-- ==== Sys2Proof/Word.lean ====
section
/-! DEFINITION. The two widths of the machine's values (00_scope.md R5, R7). -/

namespace Sys2Proof

/-- A byte: 8 bits, the addressable unit of memory (R5, R50). -/
abbrev Byte := BitVec 8

/-- A word: 16 bits, the width of registers, addresses and instruction words (R5). All arithmetic on it wraps (R7). -/
abbrev Word := BitVec 16

end Sys2Proof
end

