-- ==== Sys2Proof/Config.lean ====
section
/-! DEFINITION. What is fixed for a run or for the machine: the parameters of 00_scope.md R6, the opcode table among them, and
the sizes of R5.

What a repair may have to mend stands in files it can mend: R90's value of the table is `Sys2Proof.opmap` (Decode.lean), and
the switches STORE_ADDR_FIELD and BRANCH_BASE are `storeAddrField` and `branchBase` (Machine/Operands.lean), of the types
below. The spec leaves no value of an instruction open, so there is no free value here (INVENTORY.md, "What the manual
leaves open"). -/

namespace Sys2Proof

/-- Number of bytes of Memory (R5, R50). -/
abbrev Config.memSize : Nat := 65536

/-! ## The opcode table -/

/-- The 44 defined instructions as names, without operands (R1, 30_encoding.md R90): what an opcode is assigned to. -/
inductive Operation where
  | ret
  | cld
  | std
  | cli
  | sti
  | iret
  | trap
  | neg
  | not
  | push
  | pop
  | jmpr
  | callr
  | out
  | inc
  | dec
  | lit
  | cpuid
  | cpunum
  | br
  | jr
  | add
  | sub
  | mul
  | div
  | and
  | or
  | xor
  | shr
  | shl
  | test
  | cmp
  | equ
  | mov
  | load
  | stor
  | loadb
  | storb
  | loada
  | stora
  | tnset
  | jmp
  | call
  | loadi
  deriving DecidableEq, Repr

/-- One assignment of an opcode to an instruction. -/
structure OpEntry where
  opcode : Byte
  operation : Operation
  deriving DecidableEq, Repr

/-- A value of the parameter OPMAP (R6: "table opcode -> instruction"). An opcode that is not listed is unmapped, as in R91's
array initialised to the bad handler. -/
abbrev OpMap := List OpEntry

/-! ## The parameters of a run -/

/-- The parameters of a run (R6) other than IMAGE. Defaults: CPU_COUNT 1 and PERIOD 0 are R6's; BUDGET 0 (unlimited) is a
DESIGN CHOICE, R6 gives none (notes/assumptions/2.md). OPMAP's default, R90, is given by `RunConfig.standard`
(Machine/Launch.lean). -/
structure RunConfig where
  /-- OPMAP: the opcode assignment. -/
  opmap : OpMap
  /-- CPU_COUNT: number of contexts that share Memory. -/
  cpuCount : Nat := 1
  /-- BUDGET: cycle budget per context, 0 = unlimited. -/
  budget : Nat := 0
  /-- PERIOD: timer period in cycles, 0 = disabled. -/
  period : Nat := 0
  deriving DecidableEq, Repr

/-! ## Switches -/

/-- Which register field of `stor`, `storb`, `stora` holds the address (93_implementation_defined.md G6). -/
inductive StoreAddrField where
  | reg1
  | reg2
  deriving DecidableEq, Repr

/-- What `br` and `jr` offsets are relative to: the instruction after the branch, or the branch itself
(93_implementation_defined.md G7). -/
inductive BranchBase where
  | next
  | self
  deriving DecidableEq, Repr

end Sys2Proof
end

