-- ==== Sys2Proof/Syntax.lean ====
section
/-! DEFINITION. The instructions: one constructor per row of spec/opcode_table.json, in the table's order. -/

namespace Sys2Proof

/-- A general register's index, 0 to 15 (10_state.md R20). -/
abbrev Reg := Fin 16

/-- The stack pointer is register 15 (R21), an ordinary register otherwise. -/
abbrev Reg.sp : Reg := 15

/-- The instructions of 30_encoding.md R90. `ra` is reg1 and `rb` is reg2 (R97). Bits of the encoding that R88 calls
ignored are no part of an instruction. -/
inductive Instr where
  /-- Any unmapped opcode (R92); the opcode is kept, well-formedness says it is unmapped. -/
  | bad (opcode : Byte)
  -- format Z (40_no_operand.md)
  | ret
  | cld
  | std
  | cli
  | sti
  | iret
  | trap
  -- format R1 (41_one_register.md)
  | neg (ra : Reg)
  | not (ra : Reg)
  | push (ra : Reg)
  | pop (ra : Reg)
  | jmpr (ra : Reg)
  | callr (ra : Reg)
  | out (ra : Reg)
  | inc (ra : Reg)
  | dec (ra : Reg)
  | lit (ra : Reg)
  | cpuid (ra : Reg)
  | cpunum (ra : Reg)
  -- format I8 (42_one_immediate.md): a signed byte offset
  | br (off : Byte)
  | jr (off : Byte)
  -- format R2 (43_two_register.md, 45_atomic.md)
  | add (ra rb : Reg)
  | sub (ra rb : Reg)
  | mul (ra rb : Reg)
  | div (ra rb : Reg)
  | and (ra rb : Reg)
  | or (ra rb : Reg)
  | xor (ra rb : Reg)
  | shr (ra rb : Reg)
  | shl (ra rb : Reg)
  | test (ra rb : Reg)
  | cmp (ra rb : Reg)
  | equ (ra rb : Reg)
  | mov (ra rb : Reg)
  | load (ra rb : Reg)
  | stor (ra rb : Reg)
  | loadb (ra rb : Reg)
  | storb (ra rb : Reg)
  | loada (ra rb : Reg)
  | stora (ra rb : Reg)
  | tnset (ra rb : Reg)
  -- formats X and XR (44_extended.md)
  | jmp (addr : Word)
  | call (addr : Word)
  | loadi (ra : Reg) (imm : Word)
  deriving DecidableEq, Repr

end Sys2Proof
end

