-- ==== Sys2Proof/Decode.lean ====
section
/-! DEFINITION. The decoder (30_encoding.md R80 to R93), total on any list of bytes, and after it the encoder. Both take the
opcode table as an argument (00_scope.md R6: OPMAP is a parameter); `opmap` is R90's value of it, and `decode`, `encode` are
for that value. Opcode numbers, field positions and the mode bit are the spec's decisions D1 to D5, flagged there as general
knowledge (notes/assumptions/3.md to 6.md). -/

namespace Sys2Proof

/-! ## Bytes and words (20_memory.md R52: big-endian) -/

/-- The word whose high byte is `hi` and low byte `lo`. -/
def joinBytes (hi lo : Byte) : Word := hi ++ lo

/-- Bits 15:8 of a word. -/
def hiByte (w : Word) : Byte := w.extractLsb' 8 8

/-- Bits 7:0 of a word. -/
def loByte (w : Word) : Byte := w.extractLsb' 0 8

/-! ## Fields of the instruction word (R82, R87) -/

/-- Operand-count class, opcode bits 7:6 (R82). -/
inductive OpClass where
  | noOperand
  | oneOperand
  | twoRegister
  | extended
  deriving DecidableEq, Repr

/-- What the decoder of R87 produces from the first word. -/
structure Fields where
  cls : OpClass
  mode : Bool
  opcode : Byte
  reg1 : Reg
  reg2 : Reg
  imm8 : Byte
  deriving DecidableEq, Repr

/-- The class of an opcode (R82). -/
def classOf (opcode : Byte) : OpClass :=
  if opcode.getLsbD 7 then (if opcode.getLsbD 6 then .extended else .twoRegister)
  else (if opcode.getLsbD 6 then .oneOperand else .noOperand)

/-- A 4-bit register field as a register index. -/
def regOfBits (b : BitVec 4) : Reg := b.toFin

/-- R87: a pure function of the word with no failure mode. -/
def decodeFields (w : Word) : Fields where
  cls := classOf (hiByte w)
  mode := w.getLsbD 13
  opcode := hiByte w
  reg1 := regOfBits (w.extractLsb' 4 4)
  reg2 := regOfBits (w.extractLsb' 0 4)
  imm8 := loByte w

/-! ## The instructions by name (R84) -/

/-- The six formats of R84. -/
inductive Format where
  | z
  | r1
  | i8
  | r2
  | x
  | xr
  deriving DecidableEq, Repr

/-- Formats X and XR have a second word (R80, R84). -/
def Format.hasTrailingWord : Format → Bool
  | .z => false
  | .r1 => false
  | .i8 => false
  | .r2 => false
  | .x => true
  | .xr => true

/-- Whether an opcode has the class bits, and in classes 01 and 11 the mode bit, of a format (R82, R84). -/
def Format.fits (f : Format) (opcode : Byte) : Bool :=
  match f with
  | .z => classOf opcode == .noOperand
  | .r1 => classOf opcode == .oneOperand && !opcode.getLsbD 5
  | .i8 => classOf opcode == .oneOperand && opcode.getLsbD 5
  | .r2 => classOf opcode == .twoRegister
  | .x => classOf opcode == .extended && !opcode.getLsbD 5
  | .xr => classOf opcode == .extended && opcode.getLsbD 5

/-- The format of each instruction (R90). -/
def Operation.format : Operation → Format
  | .ret => .z
  | .cld => .z
  | .std => .z
  | .cli => .z
  | .sti => .z
  | .iret => .z
  | .trap => .z
  | .neg => .r1
  | .not => .r1
  | .push => .r1
  | .pop => .r1
  | .jmpr => .r1
  | .callr => .r1
  | .out => .r1
  | .inc => .r1
  | .dec => .r1
  | .lit => .r1
  | .cpuid => .r1
  | .cpunum => .r1
  | .br => .i8
  | .jr => .i8
  | .add => .r2
  | .sub => .r2
  | .mul => .r2
  | .div => .r2
  | .and => .r2
  | .or => .r2
  | .xor => .r2
  | .shr => .r2
  | .shl => .r2
  | .test => .r2
  | .cmp => .r2
  | .equ => .r2
  | .mov => .r2
  | .load => .r2
  | .stor => .r2
  | .loadb => .r2
  | .storb => .r2
  | .loada => .r2
  | .stora => .r2
  | .tnset => .r2
  | .jmp => .x
  | .call => .x
  | .loadi => .xr

/-- The instruction made from the fields and the trailing word (R84, R87). -/
def Operation.instr : Operation → Fields → Word → Instr
  | .ret, _, _ => .ret
  | .cld, _, _ => .cld
  | .std, _, _ => .std
  | .cli, _, _ => .cli
  | .sti, _, _ => .sti
  | .iret, _, _ => .iret
  | .trap, _, _ => .trap
  | .neg, f, _ => .neg f.reg1
  | .not, f, _ => .not f.reg1
  | .push, f, _ => .push f.reg1
  | .pop, f, _ => .pop f.reg1
  | .jmpr, f, _ => .jmpr f.reg1
  | .callr, f, _ => .callr f.reg1
  | .out, f, _ => .out f.reg1
  | .inc, f, _ => .inc f.reg1
  | .dec, f, _ => .dec f.reg1
  | .lit, f, _ => .lit f.reg1
  | .cpuid, f, _ => .cpuid f.reg1
  | .cpunum, f, _ => .cpunum f.reg1
  | .br, f, _ => .br f.imm8
  | .jr, f, _ => .jr f.imm8
  | .add, f, _ => .add f.reg1 f.reg2
  | .sub, f, _ => .sub f.reg1 f.reg2
  | .mul, f, _ => .mul f.reg1 f.reg2
  | .div, f, _ => .div f.reg1 f.reg2
  | .and, f, _ => .and f.reg1 f.reg2
  | .or, f, _ => .or f.reg1 f.reg2
  | .xor, f, _ => .xor f.reg1 f.reg2
  | .shr, f, _ => .shr f.reg1 f.reg2
  | .shl, f, _ => .shl f.reg1 f.reg2
  | .test, f, _ => .test f.reg1 f.reg2
  | .cmp, f, _ => .cmp f.reg1 f.reg2
  | .equ, f, _ => .equ f.reg1 f.reg2
  | .mov, f, _ => .mov f.reg1 f.reg2
  | .load, f, _ => .load f.reg1 f.reg2
  | .stor, f, _ => .stor f.reg1 f.reg2
  | .loadb, f, _ => .loadb f.reg1 f.reg2
  | .storb, f, _ => .storb f.reg1 f.reg2
  | .loada, f, _ => .loada f.reg1 f.reg2
  | .stora, f, _ => .stora f.reg1 f.reg2
  | .tnset, f, _ => .tnset f.reg1 f.reg2
  | .jmp, _, imm => .jmp imm
  | .call, _, imm => .call imm
  | .loadi, f, imm => .loadi f.reg1 imm

/-- All defined instructions. -/
def Operation.all : List Operation :=
  [ .ret, .cld, .std, .cli, .sti, .iret, .trap, .neg, .not, .push, .pop, .jmpr, .callr, .out, .inc, .dec, .lit, .cpuid, .cpunum ] ++
  [ .br, .jr, .add, .sub, .mul, .div, .and, .or, .xor, .shr, .shl, .test, .cmp, .equ, .mov, .load, .stor, .loadb, .storb, .loada, .stora, .tnset, .jmp, .call, .loadi ]

/-! ## Opcode tables (00_scope.md R6, R90 to R92) -/

/-- Dispatch is on all 8 opcode bits (R91). -/
def OpMap.lookup (m : OpMap) (opcode : Byte) : Option Operation :=
  (m.find? fun e => e.opcode == opcode).map (·.operation)

/-- An opcode that the table gives an instruction. -/
def OpMap.maps (m : OpMap) (opcode : Byte) : Bool := (m.lookup opcode).isSome

/-- The opcode that the table gives to an instruction. -/
def OpMap.opcodeOf (m : OpMap) (o : Operation) : Option Byte :=
  (m.find? fun e => e.operation == o).map (·.opcode)

/-- What any table must meet (92_eei_decisions.md D3; R1, R82, R90, notes/assumptions/36.md): opcodes distinct, every defined
instruction in it once, 0x00 unmapped, class and mode bits as the instruction's format has them. -/
def OpMap.legal (m : OpMap) : Bool :=
  decide (m.map (·.opcode)).Nodup && decide (m.map (·.operation)).Nodup &&
    Operation.all.all (fun o => m.any fun e => e.operation == o) &&
    !m.maps 0x00 && m.all fun e => e.operation.format.fits e.opcode

/-- Class 00 (R90). -/
def opmapNoOperand : OpMap :=
  [
    ⟨0x01#8, .ret⟩,
    ⟨0x02#8, .cld⟩,
    ⟨0x03#8, .std⟩,
    ⟨0x04#8, .cli⟩,
    ⟨0x05#8, .sti⟩,
    ⟨0x06#8, .iret⟩,
    ⟨0x07#8, .trap⟩ ]

/-- Class 01, register mode (R90). -/
def opmapOneRegister : OpMap :=
  [
    ⟨0x41#8, .neg⟩,
    ⟨0x42#8, .not⟩,
    ⟨0x43#8, .push⟩,
    ⟨0x44#8, .pop⟩,
    ⟨0x45#8, .jmpr⟩,
    ⟨0x46#8, .callr⟩,
    ⟨0x47#8, .out⟩,
    ⟨0x48#8, .inc⟩,
    ⟨0x49#8, .dec⟩,
    ⟨0x4A#8, .lit⟩,
    ⟨0x4B#8, .cpuid⟩,
    ⟨0x4C#8, .cpunum⟩ ]

/-- Class 01, immediate mode (R90). -/
def opmapOneImmediate : OpMap :=
  [
    ⟨0x61#8, .br⟩,
    ⟨0x62#8, .jr⟩ ]

/-- Class 10, first part: arithmetic, logic, comparison (R90). -/
def opmapArithmetic : OpMap :=
  [
    ⟨0x81#8, .add⟩,
    ⟨0x82#8, .sub⟩,
    ⟨0x83#8, .mul⟩,
    ⟨0x84#8, .div⟩,
    ⟨0x85#8, .and⟩,
    ⟨0x86#8, .or⟩,
    ⟨0x87#8, .xor⟩,
    ⟨0x88#8, .shr⟩,
    ⟨0x89#8, .shl⟩,
    ⟨0x8A#8, .test⟩,
    ⟨0x8B#8, .cmp⟩,
    ⟨0x8C#8, .equ⟩ ]

/-- Class 10, second part: move, loads, stores, atomics (R90). -/
def opmapMemory : OpMap :=
  [
    ⟨0x8D#8, .mov⟩,
    ⟨0x8E#8, .load⟩,
    ⟨0x8F#8, .stor⟩,
    ⟨0x90#8, .loadb⟩,
    ⟨0x91#8, .storb⟩,
    ⟨0x92#8, .loada⟩,
    ⟨0x93#8, .stora⟩,
    ⟨0x94#8, .tnset⟩ ]

/-- Class 11 (R90). -/
def opmapExtended : OpMap :=
  [
    ⟨0xC1#8, .jmp⟩,
    ⟨0xC2#8, .call⟩,
    ⟨0xE1#8, .loadi⟩ ]

/-- R90's value of OPMAP: the 44 defined opcodes. Everything else is unmapped (R92). -/
def opmap : OpMap :=
  opmapNoOperand ++ opmapOneRegister ++ opmapOneImmediate ++ opmapArithmetic ++ opmapMemory ++ opmapExtended

/-- An opcode that R90's table gives an instruction. -/
def isMapped (opcode : Byte) : Bool := opmap.maps opcode

/-! ## The decoder -/

/-- Only a defined extended instruction takes a trailing word (R81). -/
def takesTrailingWord (m : OpMap) (w : Word) : Bool :=
  match m.lookup (decodeFields w).opcode with
  | none => false
  | some o => o.format.hasTrailingWord

/-- The instruction that a first word and its trailing word stand for; the trailing word matters to the extended
formats only (R83, R87, R91). -/
def instrOfWords (m : OpMap) (w trailing : Word) : Instr :=
  match m.lookup (decodeFields w).opcode with
  | none => .bad (decodeFields w).opcode
  | some o => o.instr (decodeFields w) trailing

/-- Why a list of bytes is no instruction: it ends too early. No bit pattern is rejected (R87, R92). -/
inductive DecodeError where
  /-- Fewer than two bytes. -/
  | truncatedInstructionWord
  /-- A defined extended opcode with fewer than two bytes after its first word. -/
  | truncatedTrailingWord
  deriving DecidableEq, Repr

/-- Reads one instruction from bytes in address order and gives the bytes after it (R80, R81). Rejecting a list that ends too
early is the model's (notes/assumptions/28.md). -/
def decodeWith (m : OpMap) : List Byte → Except DecodeError (Instr × List Byte)
  | hi :: lo :: rest =>
    if takesTrailingWord m (joinBytes hi lo) then
      match rest with
      | hi2 :: lo2 :: rest2 => .ok (instrOfWords m (joinBytes hi lo) (joinBytes hi2 lo2), rest2)
      | _ => .error .truncatedTrailingWord
    else .ok (instrOfWords m (joinBytes hi lo) 0, rest)
  | _ => .error .truncatedInstructionWord

/-- The decoder for R90's table. -/
def decode (bytes : List Byte) : Except DecodeError (Instr × List Byte) := decodeWith opmap bytes

/-- The four bytes, in address order, of the table's number `w` (bit 0 of `w` is the least significant bit of the first
word, bits 31..16 are the second word); bits at and above `nbits` are 0. -/
def tableBytes (nbits w : Nat) : List Byte :=
  let v := w % 2 ^ nbits
  let w1 : Word := BitVec.ofNat 16 v
  let w2 : Word := BitVec.ofNat 16 (v / 65536)
  [hiByte w1, loByte w1, hiByte w2, loByte w2]

/-- The instruction the decoder reads, with a given table, from an instruction numbered as spec/opcode_table.json numbers its
bits. -/
def decodeTableWith (m : OpMap) (nbits w : Nat) : Option Instr :=
  match decodeWith m (tableBytes nbits w) with
  | .ok (i, _) => some i
  | .error _ => none

/-- The same with R90's table. -/
def decodeTableWord (nbits w : Nat) : Option Instr := decodeTableWith opmap nbits w

/-! ## The encoder (R84, R90); ignored bits are written 0 (R88) -/

/-- A register index as a 4-bit field. -/
def bitsOfReg (r : Reg) : BitVec 4 := BitVec.ofFin r

/-- Operand byte with `a` in bits 7:4 and `b` in bits 3:0 (R82). -/
def regFields (a b : Reg) : Byte := bitsOfReg a ++ bitsOfReg b

/-- Operand byte of a one-register instruction: the register in bits 7:4, the ignored bits 0 (R84). -/
def regField (a : Reg) : Byte := bitsOfReg a ++ 0#4

/-- What an instruction's opcode is: an unmapped one kept as it is, or the table's for a defined instruction. -/
inductive Head where
  | unmapped (opcode : Byte)
  | defined (operation : Operation)
  deriving DecidableEq, Repr

/-- The head of an instruction. -/
def Instr.head : Instr → Head
  | .bad opcode => .unmapped opcode
  | .ret => .defined .ret
  | .cld => .defined .cld
  | .std => .defined .std
  | .cli => .defined .cli
  | .sti => .defined .sti
  | .iret => .defined .iret
  | .trap => .defined .trap
  | .neg _ => .defined .neg
  | .not _ => .defined .not
  | .push _ => .defined .push
  | .pop _ => .defined .pop
  | .jmpr _ => .defined .jmpr
  | .callr _ => .defined .callr
  | .out _ => .defined .out
  | .inc _ => .defined .inc
  | .dec _ => .defined .dec
  | .lit _ => .defined .lit
  | .cpuid _ => .defined .cpuid
  | .cpunum _ => .defined .cpunum
  | .br _ => .defined .br
  | .jr _ => .defined .jr
  | .add _ _ => .defined .add
  | .sub _ _ => .defined .sub
  | .mul _ _ => .defined .mul
  | .div _ _ => .defined .div
  | .and _ _ => .defined .and
  | .or _ _ => .defined .or
  | .xor _ _ => .defined .xor
  | .shr _ _ => .defined .shr
  | .shl _ _ => .defined .shl
  | .test _ _ => .defined .test
  | .cmp _ _ => .defined .cmp
  | .equ _ _ => .defined .equ
  | .mov _ _ => .defined .mov
  | .load _ _ => .defined .load
  | .stor _ _ => .defined .stor
  | .loadb _ _ => .defined .loadb
  | .storb _ _ => .defined .storb
  | .loada _ _ => .defined .loada
  | .stora _ _ => .defined .stora
  | .tnset _ _ => .defined .tnset
  | .jmp _ => .defined .jmp
  | .call _ => .defined .call
  | .loadi _ _ => .defined .loadi

/-- Whether the instruction is the halting one: `Cycle` answers `h != bad` (R92, R95). -/
def Instr.isBad (i : Instr) : Bool :=
  match i.head with
  | .unmapped _ => true
  | .defined _ => false

/-- The opcode of an instruction in a table (R90), 0 if the table gives it none (then the instruction is not well formed). -/
def Instr.opcodeIn (m : OpMap) (i : Instr) : Byte :=
  match i.head with
  | .unmapped opcode => opcode
  | .defined o => (m.opcodeOf o).getD 0

/-- The operand byte of an instruction (R82, R84). -/
def Instr.operandByte : Instr → Byte
  | .bad _ => 0
  | .ret => 0
  | .cld => 0
  | .std => 0
  | .cli => 0
  | .sti => 0
  | .iret => 0
  | .trap => 0
  | .neg a => regField a
  | .not a => regField a
  | .push a => regField a
  | .pop a => regField a
  | .jmpr a => regField a
  | .callr a => regField a
  | .out a => regField a
  | .inc a => regField a
  | .dec a => regField a
  | .lit a => regField a
  | .cpuid a => regField a
  | .cpunum a => regField a
  | .br off => off
  | .jr off => off
  | .add a b => regFields a b
  | .sub a b => regFields a b
  | .mul a b => regFields a b
  | .div a b => regFields a b
  | .and a b => regFields a b
  | .or a b => regFields a b
  | .xor a b => regFields a b
  | .shr a b => regFields a b
  | .shl a b => regFields a b
  | .test a b => regFields a b
  | .cmp a b => regFields a b
  | .equ a b => regFields a b
  | .mov a b => regFields a b
  | .load a b => regFields a b
  | .stor a b => regFields a b
  | .loadb a b => regFields a b
  | .storb a b => regFields a b
  | .loada a b => regFields a b
  | .stora a b => regFields a b
  | .tnset a b => regFields a b
  | .jmp _ => 0
  | .call _ => 0
  | .loadi a _ => regField a

/-- The trailing words of an instruction: one for the extended formats, none for the others (R80, R83). -/
def Instr.trailingWords : Instr → List Word
  | .bad _ => []
  | .ret => []
  | .cld => []
  | .std => []
  | .cli => []
  | .sti => []
  | .iret => []
  | .trap => []
  | .neg _ => []
  | .not _ => []
  | .push _ => []
  | .pop _ => []
  | .jmpr _ => []
  | .callr _ => []
  | .out _ => []
  | .inc _ => []
  | .dec _ => []
  | .lit _ => []
  | .cpuid _ => []
  | .cpunum _ => []
  | .br _ => []
  | .jr _ => []
  | .add _ _ => []
  | .sub _ _ => []
  | .mul _ _ => []
  | .div _ _ => []
  | .and _ _ => []
  | .or _ _ => []
  | .xor _ _ => []
  | .shr _ _ => []
  | .shl _ _ => []
  | .test _ _ => []
  | .cmp _ _ => []
  | .equ _ _ => []
  | .mov _ _ => []
  | .load _ _ => []
  | .stor _ _ => []
  | .loadb _ _ => []
  | .storb _ _ => []
  | .loada _ _ => []
  | .stora _ _ => []
  | .tnset _ _ => []
  | .jmp t => [t]
  | .call t => [t]
  | .loadi _ v => [v]

/-- The words of an instruction (R80). -/
def encodeWith (m : OpMap) (i : Instr) : List Word := joinBytes (i.opcodeIn m) i.operandByte :: i.trailingWords

/-- The words of an instruction in R90's table. -/
def encode (i : Instr) : List Word := encodeWith opmap i

/-- A word as memory stores it: high byte first (R52). -/
def wordBytes (w : Word) : List Byte := [hiByte w, loByte w]

/-- The bytes of an instruction in address order (R80). -/
def encodeBytesWith (m : OpMap) (i : Instr) : List Byte := (encodeWith m i).flatMap wordBytes

/-- The bytes of an instruction in R90's table. -/
def encodeBytes (i : Instr) : List Byte := encodeBytesWith opmap i

end Sys2Proof
end

