-- ==== Sys2Proof/Machine/Flags.lean ====
section
/-! DEFINITION. The state register's bits (10_state.md R28 to R31) and the three comparisons that compute the condition flag
(43_two_register.md R159 to R161). -/

namespace Sys2Proof.Machine

/-- `st.C`, bit 0: the condition flag (R28, R29). -/
def flagC (st : Word) : Bool := st.getLsbD 0

/-- `st.D`, bit 1: the debug-mode flag (R28, R30). -/
def flagD (st : Word) : Bool := st.getLsbD 1

/-- `st.X`, bit 2: in-exception; 1 refuses exceptions (R28, R31, conflict C1). -/
def flagX (st : Word) : Bool := st.getLsbD 2

/-- Assign `st.C`, leaving the other 15 bits (R29; decision D22). -/
def assignC (st : Word) (c : Bool) : Word := (st &&& 0xFFFE#16) ||| (if c then 0x0001#16 else 0x0000#16)

/-- `st & 0xFFFD` (R111). -/
def clearD (st : Word) : Word := st &&& 0xFFFD#16

/-- `st | 0x0002` (R112). -/
def setD (st : Word) : Word := st ||| 0x0002#16

/-- `st & 0xFFFB` (R113). -/
def clearX (st : Word) : Word := st &&& 0xFFFB#16

/-- `st | 0x0004` (R114, R204). -/
def setX (st : Word) : Word := st ||| 0x0004#16

/-- `test`: the bitwise AND is nonzero (R159). -/
def condTest (a b : Word) : Bool := (a &&& b) != 0

/-- `cmp`: reg1 below reg2, unsigned (R160). -/
def condCmp (a b : Word) : Bool := decide (a.toNat < b.toNat)

/-- `equ`: reg1 equals reg2 (R161). -/
def condEqu (a b : Word) : Bool := a == b

end Sys2Proof.Machine
end

