-- ==== Sys2Proof/Machine/Operands.lean ====
section
/-! DEFINITION. Operand forms and the arithmetic on operand values: immediates (30_encoding.md R85, R86), the address
operand of loads and stores (43_two_register.md section 5), branch targets (42_one_immediate.md), and the functions of
one or two register values (41_one_register.md, 43_two_register.md). `a` is reg1's value and `b` is reg2's. -/

namespace Sys2Proof.Machine

/-! ## Immediates and targets -/

/-- `sext_16` of an 8-bit value (00_scope.md R8, R85). -/
def sext16 (b : Byte) : Word := b.signExtend 16

/-- `zext_16` of an 8-bit value (R8). -/
def zext16 (b : Byte) : Word := b.zeroExtend 16

/-- BRANCH_BASE, default `next` as the source says (R140, R141; G7, notes/assumptions/12.md). -/
def branchBase : BranchBase := .next

/-- Target of `br` and `jr`: `next` plus the offset in bytes, modulo 2^16 (R140, R141; bytes: decision D11). -/
def branchTarget (next : Word) (off : Byte) : Word :=
  match branchBase with
  | .next => next + sext16 off
  | .self => next - 2 + sext16 off

/-! ## The address operand of a store -/

/-- STORE_ADDR_FIELD, default `reg1` as the source says (R164; conflict C6, G6, notes/assumptions/13.md). -/
def storeAddrField : StoreAddrField := .reg1

/-- The register that holds a store's address. -/
def storeAddrReg (ra rb : Reg) : Reg :=
  match storeAddrField with
  | .reg1 => ra
  | .reg2 => rb

/-- The register that holds a store's data. -/
def storeDataReg (ra rb : Reg) : Reg :=
  match storeAddrField with
  | .reg1 => rb
  | .reg2 => ra

/-! ## Functions of one value -/

/-- `neg`: (65536 - x) mod 2^16 (R120). -/
def aluNeg (x : Word) : Word := BitVec.ofNat 16 (65536 - x.toNat)

/-- `not`: the truth value 1 for 0, else 0 (R121; values: decision D22). -/
def aluNot (x : Word) : Word := if x = 0 then 1 else 0

/-- `inc` (R127). -/
def aluInc (x : Word) : Word := x + 1

/-- `dec` (R128). -/
def aluDec (x : Word) : Word := x - 1

/-! ## Functions of two values (R149: the exact result, then its low 16 bits) -/

/-- `add`: b + a (R150). -/
def aluAdd (a b : Word) : Word := b + a

/-- `sub`: b - a (R151). -/
def aluSub (a b : Word) : Word := b - a

/-- `mul`: b * a (R152). -/
def aluMul (a b : Word) : Word := b * a

/-- `div` for a nonzero divisor: the floor of b / a, dividend in reg2 (R153; order: decision D8). -/
def aluDiv (a b : Word) : Word := BitVec.ofNat 16 (b.toNat / a.toNat)

/-- `and` (R154). -/
def aluAnd (a b : Word) : Word := b &&& a

/-- `or` (R155). -/
def aluOr (a b : Word) : Word := b ||| a

/-- `xor` (R156). -/
def aluXor (a b : Word) : Word := b ^^^ a

/-- `shr`: b div 2^a, and 0 for counts of 16 or more (R157; roles: decision D8, large counts: decision D9). -/
def aluShr (a b : Word) : Word := if a.toNat < 16 then b >>> a.toNat else 0

/-- `shl`: (b * 2^a) mod 2^16, and 0 for counts of 16 or more (R158; decisions D8, D9). -/
def aluShl (a b : Word) : Word := if a.toNat < 16 then b <<< a.toNat else 0

/-- `mov`: reg2 := reg1 (R162). -/
def aluMov (a _b : Word) : Word := a

end Sys2Proof.Machine
end

