-- ==== Sys2Proof/Machine/State.lean ====
section
/-! DEFINITION. The state of the machine as plain data: the private state of every CPU context, the state they share, the
parameters of the run and the schedule (10_state.md R20 to R45; INVENTORY.md lists each piece with its rule). -/

namespace Sys2Proof.Machine

/-- A fault of the model. EMPTY: the spec gives every instruction and every step an effect, and says that no access, opcode
or alignment faults (20_memory.md R50, R56; 60_exceptions.md R201); stops are states (R222). Safe or unsafe does not
arise (notes/assumptions/27.md). -/
inductive Fault where
  deriving DecidableEq, Repr

/-- Reasons for giving an instruction no meaning. -/
inductive Refusal where
  /-- An instruction without a meaning, by its mnemonic in the opcode table. Raised by no arm of `exec` now; it would be
  safe, since a refused step proves nothing. -/
  | notModelled (mnemonic : String)
  deriving DecidableEq, Repr

/-- Why a context stopped (60_exceptions.md R222). -/
inductive StopReason where
  /-- HALT: a cycle dispatched an unmapped opcode. -/
  | halt
  /-- EXHAUSTED: BUDGET cycles were counted. -/
  | exhausted
  /-- TIMER_FAIL: a due tick found `st.X = 0` and `itr = 0`. -/
  | timerFail
  /-- ARITH: a division by zero whose FAULT could not be raised. -/
  | arith
  deriving DecidableEq, Repr

/-- RUNNING, or STOPPED for good with a reason (10_state.md R36, R222). -/
inductive Run where
  | running
  | stopped (reason : StopReason)
  deriving DecidableEq, Repr

/-- One indivisible action on shared state (20_memory.md R60 items 1 and 2, R62; 10_state.md R44). `slot` says which byte of
the cycle's reads a read is. -/
inductive Access where
  | read (slot : Nat) (addr : Word)
  | write (addr : Word) (b : Byte)
  | acquire
  | release
  | emit (b : Byte)
  deriving DecidableEq, Repr

/-- What a cycle in progress is doing (60_exceptions.md R221, 30_encoding.md R95). -/
inductive Stage where
  /-- Entering the INTERRUPT exception of a due tick. -/
  | tick
  /-- Fetching the instruction word. -/
  | fetch
  /-- Fetching the trailing word of an extended instruction. -/
  | trailing
  /-- The data accesses of the instruction. -/
  | handler (i : Instr)
  deriving DecidableEq, Repr

/-- A cycle in progress: the accesses still to make, in groups whose order is fixed and whose members may be taken in either
order (R60 items 3 and 4), and the bytes read so far by slot. The model's own field (notes/assumptions/24.md). -/
structure Flight where
  stage : Stage
  todo : List (List Access)
  seen : List (Nat × Byte)
  deriving DecidableEq, Repr

/-- The private state of one CPU context (R20 to R36, R226). -/
structure Context where
  /-- x[0] .. x[15] (R20). -/
  regs : Vector Word 16
  /-- Program counter (R25). -/
  pc : Word
  /-- State register: bit 0 C, bit 1 D, bit 2 X, bits 15:3 stored (R28). -/
  st : Word
  /-- Interrupt-table register (R32, R33). -/
  itr : Word
  /-- CPU id, read-only (R32). -/
  id : Word
  /-- CPU count, read-only (R32). -/
  cnt : Word
  /-- Completed cycles (R36, R224). -/
  cyc : Nat
  /-- RUNNING or STOPPED (R36, R222). -/
  run : Run
  /-- The cycle in progress, none between cycles (notes/assumptions/24.md). -/
  flight : Option Flight
  deriving DecidableEq, Repr

/-- Whose turn it is and how much of it: a whole cycle with nothing between its accesses, or ONE access of the cycle in
progress, `pick` choosing among the accesses that may go next (R60, R228; notes/assumptions/22.md, 23.md). -/
inductive Turn where
  | cycle (ctx : Word)
  | access (ctx : Word) (pick : Nat)
  deriving DecidableEq, Repr

/-- Memory M (R35, R50): the bytes that are not 0x00, as (address, byte) pairs with rising addresses. -/
abbrev Memory := List Host.Cell

/-- The whole machine. -/
structure State where
  /-- The active context: the one that acts now. -/
  cpu : Context
  /-- The other contexts (R226). -/
  others : List Context
  /-- Memory M, shared (R35). -/
  mem : Memory
  /-- LOCK: free, or held by the context with this id (R36, R62). -/
  lock : Option Word
  /-- OUTQ: the bytes emitted so far, oldest first (R36, R44). -/
  outq : List Byte
  /-- BUDGET, constant during a run, 0 = unlimited (00_scope.md R6). -/
  budget : Nat
  /-- PERIOD, constant during a run, 0 = disabled (R6). -/
  period : Nat
  /-- OPMAP, constant after reset: the opcode table of every fetch (R6, 30_encoding.md R91). -/
  opmap : OpMap
  /-- The turns to come; with none left the active context goes on (notes/assumptions/22.md). -/
  sched : List Turn
  deriving DecidableEq, Repr

/-- A context right after reset (10_state.md R45): everything zero but its id and the count of contexts. -/
def Context.reset (id cnt : Word) : Context where
  regs := Vector.replicate 16 0
  pc := 0
  st := 0
  itr := 0
  id := id
  cnt := cnt
  cyc := 0
  run := .running
  flight := none

/-- The machine right after reset with R6's defaults and the empty image (R45, 70_reset_and_hazards.md R241):
one context, memory all zero, LOCK free, nothing emitted (notes/assumptions/1.md, 2.md). -/
def State.reset : State where
  cpu := Context.reset 0 1
  others := []
  mem := []
  lock := none
  outq := []
  budget := 0
  period := 0
  opmap := Sys2Proof.opmap
  sched := []

end Sys2Proof.Machine
end

