-- ==== Sys2Proof/Machine/Ops.lean ====
section
/-! DEFINITION. The named operations on memory, registers and control state (00_scope.md R8), taking an exception and
returning from one (60_exceptions.md R204, R205, R210). -/

namespace Sys2Proof.Machine

/-! ## Memory as a list of cells (20_memory.md R50; 10_state.md R45) -/

/-- What an address that is not listed reads as: memory is zero-filled at reset (R45). -/
def unlisted : Byte := 0

/-- The byte at an address. -/
def Memory.read : Memory → Nat → Byte
  | [], _ => unlisted
  | (k, b) :: m, a => if a = k then b else Memory.read m a

/-- Drop what is listed for an address. -/
def Memory.remove (m : Memory) (a : Nat) : Memory := m.filter fun c => c.1 != a

/-- List a byte for an address, before the first higher address. -/
def Memory.place : Memory → Nat → Byte → Memory
  | [], a, b => [(a, b)]
  | (k, c) :: m, a, b => if a < k then (a, b) :: (k, c) :: m else (k, c) :: Memory.place m a b

/-- Store a byte, keeping addresses rising and no entry equal to what an unlisted address reads as. -/
def Memory.write (m : Memory) (a : Nat) (b : Byte) : Memory :=
  if b = unlisted then m.remove a else (m.remove a).place a b

/-- The canonical form: addresses strictly rising and inside the address space, no entry equal to an unlisted address. -/
abbrev Memory.wf (m : Memory) : Prop :=
  m.Pairwise (fun x y => x.1 < y.1) ∧ ∀ c ∈ m, c.1 < Config.memSize ∧ c.2 ≠ unlisted

/-! ## One update per field -/

/-- Read general register `r` of a context (R8, R20). -/
def Context.reg (c : Context) (r : Reg) : Word := c.regs[r.val]

/-- Read `x[r]` of the active context (R8, R20): no register is hard-wired. -/
def State.reg (s : State) (r : Reg) : Word := s.cpu.reg r

/-- Write `x[r]` of the active context (R8, R20). -/
def State.setReg (s : State) (r : Reg) (v : Word) : State :=
  { s with cpu := { s.cpu with regs := s.cpu.regs.set r.val v } }

/-- Write `pc`. -/
def State.setPc (s : State) (v : Word) : State := { s with cpu := { s.cpu with pc := v } }

/-- Write the state register. -/
def State.setSt (s : State) (v : Word) : State := { s with cpu := { s.cpu with st := v } }

/-- Write the interrupt-table register. -/
def State.setItr (s : State) (v : Word) : State := { s with cpu := { s.cpu with itr := v } }

/-- Set the cycle count. -/
def State.setCyc (s : State) (n : Nat) : State := { s with cpu := { s.cpu with cyc := n } }

/-- Set RUNNING or STOPPED. -/
def State.setRun (s : State) (r : Run) : State := { s with cpu := { s.cpu with run := r } }

/-- Set the cycle in progress. -/
def State.setFlight (s : State) (f : Option Flight) : State := { s with cpu := { s.cpu with flight := f } }

/-- Replace Memory. -/
def State.setMem (s : State) (m : Memory) : State := { s with mem := m }

/-- Set LOCK. -/
def State.setLock (s : State) (l : Option Word) : State := { s with lock := l }

/-- Replace the turns to come. -/
def State.setSched (s : State) (l : List Turn) : State := { s with sched := l }

/-- `Emit(b)` (10_state.md R44): append one byte to OUTQ. -/
def State.emit (s : State) (b : Byte) : State := { s with outq := s.outq ++ [b] }

/-- `Stop(reason)` (R222): this context only. -/
def State.stop (s : State) (r : StopReason) : State := s.setRun (.stopped r)

/-! ## Memory accesses of the active context (R8, R50 to R53) -/

/-- `MemRead(a, 1)`: a 16-bit address is already modulo 65536 (R50). -/
def State.readByte (s : State) (a : Word) : Byte := s.mem.read a.toNat

/-- `MemRead(a, 2)`: big-endian, the second byte at (a+1) mod 2^16 (R52, R53). -/
def State.readWord (s : State) (a : Word) : Word := joinBytes (s.readByte a) (s.readByte (a + 1))

/-- `MemWrite(a, 1, b)`. -/
def State.writeByte (s : State) (a : Word) (b : Byte) : State := s.setMem (s.mem.write a.toNat b)

/-- `MemWrite(a, 2, v)`: high byte first (R52). -/
def State.writeWord (s : State) (a : Word) (v : Word) : State :=
  (s.writeByte a (hiByte v)).writeByte (a + 1) (loByte v)

/-- Store bytes at consecutive addresses from `a`, each modulo 2^16. -/
def State.writeBytes (s : State) (a : Word) : List Byte → State
  | [] => s
  | b :: bs => (s.writeByte a b).writeBytes (a + 1) bs

/-! ## The stack (10_state.md R24; decision D6) -/

/-- Where the next push stores: x[15] - 2. -/
def State.pushAddr (s : State) : Word := s.reg Reg.sp - 2

/-- `Push(v)`: decrement x[15] by 2, then store the word there. -/
def State.push (s : State) (v : Word) : State := (s.setReg Reg.sp s.pushAddr).writeWord s.pushAddr v

/-- The word that `Pop()` reads. -/
def State.top (s : State) : Word := s.readWord (s.reg Reg.sp)

/-- The increment of x[15] by 2 that ends `Pop()`. -/
def State.dropTop (s : State) : State := s.setReg Reg.sp (s.reg Reg.sp + 2)

/-! ## Register-to-register shapes (43_two_register.md, 41_one_register.md) -/

/-- x[ra] becomes a function of itself. -/
def State.unary (s : State) (ra : Reg) (f : Word → Word) : State := s.setReg ra (f (s.reg ra))

/-- x[rb] becomes a function of x[ra] and x[rb], both read first (R23). -/
def State.binary (s : State) (ra rb : Reg) (f : Word → Word → Word) : State :=
  s.setReg rb (f (s.reg ra) (s.reg rb))

/-- `st.C` becomes a function of x[ra] and x[rb] (R29). -/
def State.compare (s : State) (ra rb : Reg) (f : Word → Word → Bool) : State :=
  s.setSt (assignC s.cpu.st (f (s.reg ra) (s.reg rb)))

/-! ## Exceptions (60_exceptions.md R200 to R213) -/

/-- The three kinds (R200). -/
inductive ExcKind where
  | interrupt
  | trap
  | fault
  deriving DecidableEq, Repr

/-- The ordinal of a kind: interrupt 0, trap 1, fault 2 (R200). -/
def ExcKind.ordinal : ExcKind → Nat
  | .interrupt => 0
  | .trap => 1
  | .fault => 2

/-- Address of the vector of a kind: (itr + 2*kind) mod 2^16 (R203). -/
def vectorAddr (itr : Word) (kind : Nat) : Word := itr + BitVec.ofNat 16 (2 * kind)

/-- Whether an exception would be accepted: normal execution and a table installed (R204). -/
def Context.accepts (c : Context) : Bool := !flagX c.st && c.itr != 0

/-- The private effect of an accepted exception, given the vector word: two words pushed, X set, pc at the handler (R205). -/
def State.enterAt (s : State) (vector : Word) : State :=
  ((s.setReg Reg.sp (s.reg Reg.sp - 4)).setSt (setX s.cpu.st)).setPc vector

/-- `Raise(kind)` (R204): none is `fail`, with nothing changed. The pushes are made before the vector is read (R205). -/
def State.raise (s : State) (kind : Nat) : Option State :=
  if flagX s.cpu.st then none
  else if s.cpu.itr = 0 then none
  else if kind > 2 then none
  else
    let p := (s.push s.cpu.st).push s.cpu.pc
    let q := p.setSt (setX s.cpu.st)
    some (q.setPc (q.readWord (vectorAddr s.cpu.itr kind)))

/-- Return from an exception (R210, R213, R115): pop `pc`, then the whole of `st`, unconditionally. -/
def State.returnFromException (s : State) : State :=
  let t := s.dropTop
  (t.dropTop.setPc s.top).setSt t.top

end Sys2Proof.Machine
end

