-- ==== Sys2Proof/Machine/Plan.lean ====
section
/-! DEFINITION. The accesses to shared state that each instruction makes (20_memory.md R55, R60 to R64), as groups of byte
accesses in the order of its pseudocode; the members of a group, the two bytes of one word access, may be taken in either
order (R60 item 4). Everything an instruction accesses is fixed by its context's registers when its handler is entered.
Also: waiting for LOCK. -/

namespace Sys2Proof.Machine

/-- The two byte reads of a word read, results in slots `slot` and `slot + 1`. -/
def readWordAccesses (slot : Nat) (a : Word) : List Access := [.read slot a, .read (slot + 1) (a + 1)]

/-- The two byte writes of a word write. -/
def writeWordAccesses (a v : Word) : List Access := [.write a (hiByte v), .write (a + 1) (loByte v)]

/-- Exception entry (60_exceptions.md R205): push `st`, push `pc`, read the vector. -/
def entryPlan (c : Context) (kind : Nat) : List (List Access) :=
  let sp := c.reg Reg.sp
  [writeWordAccesses (sp - 2) c.st, writeWordAccesses (sp - 4) c.pc, readWordAccesses 0 (vectorAddr c.itr kind)]

/-- `with Lock: body` (R62). -/
def lockedPlan (body : List (List Access)) : List (List Access) := [[.acquire]] ++ body ++ [[.release]]

/-- The accesses of an instruction whose handler is entered by context `c`, `c.pc` being `next` (R95). -/
def plan (c : Context) : Instr → List (List Access)
  | .bad _ => []
  | .ret => [readWordAccesses 0 (c.reg Reg.sp)]
  | .cld => []
  | .std => []
  | .cli => []
  | .sti => []
  | .iret => [readWordAccesses 0 (c.reg Reg.sp), readWordAccesses 2 (c.reg Reg.sp + 2)]
  | .trap => if c.accepts then entryPlan c ExcKind.trap.ordinal else []
  | .neg _ => []
  | .not _ => []
  | .push ra => [writeWordAccesses (c.reg Reg.sp - 2) (c.reg ra)]
  | .pop _ => [readWordAccesses 0 (c.reg Reg.sp)]
  | .jmpr _ => []
  | .callr _ => [writeWordAccesses (c.reg Reg.sp - 2) c.pc]
  | .out ra => [[.emit (loByte (c.reg ra))]]
  | .inc _ => []
  | .dec _ => []
  | .lit _ => []
  | .cpuid _ => []
  | .cpunum _ => []
  | .br _ => []
  | .jr _ => []
  | .add _ _ => []
  | .sub _ _ => []
  | .mul _ _ => []
  | .div ra _ => if c.reg ra = 0 ∧ c.accepts then entryPlan c ExcKind.fault.ordinal else []
  | .and _ _ => []
  | .or _ _ => []
  | .xor _ _ => []
  | .shr _ _ => []
  | .shl _ _ => []
  | .test _ _ => []
  | .cmp _ _ => []
  | .equ _ _ => []
  | .mov _ _ => []
  | .load ra _ => [readWordAccesses 0 (c.reg ra)]
  | .stor ra rb => [writeWordAccesses (c.reg (storeAddrReg ra rb)) (c.reg (storeDataReg ra rb))]
  | .loadb ra _ => [[.read 0 (c.reg ra)]]
  | .storb ra rb => [[.write (c.reg (storeAddrReg ra rb)) (loByte (c.reg (storeDataReg ra rb)))]]
  | .loada ra _ => lockedPlan [readWordAccesses 0 (c.reg ra)]
  | .stora ra rb => lockedPlan [writeWordAccesses (c.reg (storeAddrReg ra rb)) (c.reg (storeDataReg ra rb))]
  | .tnset ra _ => lockedPlan [readWordAccesses 0 (c.reg ra), [.write (c.reg ra) 0x00], [.write (c.reg ra + 1) 0x01]]
  | .jmp _ => []
  | .call _ => [writeWordAccesses (c.reg Reg.sp - 2) (c.pc + 2)]
  | .loadi _ _ => []

/-- The handler of `i` with all its accesses still to make. -/
def State.enterHandler (s : State) (i : Instr) : State :=
  s.setFlight (some { stage := .handler i, todo := plan s.cpu i, seen := [] })

/-- `with Lock:` for a handler that runs without interruption: with LOCK free the body runs, LOCK taken and released around
it; with LOCK held the context waits inside its handler, which it will finish by later turns (R62, R64). -/
def State.withLock (s : State) (i : Instr) (body : State → State) : State :=
  if s.lock.isNone then body s else s.enterHandler i

end Sys2Proof.Machine
end

