-- ==== Sys2Proof/Machine/Atomic.lean ====
section
/-! DEFINITION. The shared-memory atomic instructions (45_atomic.md R180 to R182), entered with `pc = next`; their data accesses are
made while holding LOCK (20_memory.md R62). -/

namespace Sys2Proof.Machine

/-- `loada rA, rB` (R180): `load` under the lock. -/
def execLoada (ra rb : Reg) (s : State) : Host.Outcome State Fault Refusal :=
  .next (s.withLock (.loada ra rb) fun s => s.setReg rb (s.readWord (s.reg ra)))

/-- `stora rA, rB` (R181): `stor` under the lock. -/
def execStora (ra rb : Reg) (s : State) : Host.Outcome State Fault Refusal :=
  .next (s.withLock (.stora ra rb) fun s =>
    s.writeWord (s.reg (storeAddrReg ra rb)) (s.reg (storeDataReg ra rb)))

/-- `tnset rA, rB` (R182): the old word into x[B], the bytes 0x00, 0x01 to memory, under the lock. -/
def execTnset (ra rb : Reg) (s : State) : Host.Outcome State Fault Refusal :=
  .next (s.withLock (.tnset ra rb) fun s =>
    (((s.writeByte (s.reg ra) 0x00).writeByte (s.reg ra + 1) 0x01).setReg rb (s.readWord (s.reg ra))))

end Sys2Proof.Machine
end

