-- ==== Sys2Proof/Machine/Extended.lean ====
section
/-! DEFINITION. The extended instructions (44_extended.md R170 to R172), entered with `pc = next`, the address of the trailing word,
which the fetch has read before anything is written (decision D7). -/

namespace Sys2Proof.Machine

/-- `jmp addr` (R170): pc <- imm16. -/
def execJmp (addr : Word) (s : State) : Host.Outcome State Fault Refusal := .next (s.setPc addr)

/-- `call addr` (R171): push the address after the trailing word, then jump. -/
def execCall (addr : Word) (s : State) : Host.Outcome State Fault Refusal := .next ((s.push (s.cpu.pc + 2)).setPc addr)

/-- `loadi rA, imm` (R172): x[A] <- imm16 and skip the trailing word. -/
def execLoadi (ra : Reg) (imm : Word) (s : State) : Host.Outcome State Fault Refusal :=
  .next ((s.setReg ra imm).setPc (s.cpu.pc + 2))

end Sys2Proof.Machine
end

