-- ==== Sys2Proof/Machine/NoOperand.lean ====
section
/-! DEFINITION. The no-operand instructions (40_no_operand.md R110 to R116) and the halting handler (30_encoding.md R92). Every
meaning is entered with `pc = next` (R95). -/

namespace Sys2Proof.Machine

/-- `bad` (R92): no state change; the loop of R221 stops the context after it (conflict C8). -/
def execBad (_opcode : Byte) (s : State) : Host.Outcome State Fault Refusal := .next s

/-- `ret` (R110): pc <- Pop(). -/
def execRet (s : State) : Host.Outcome State Fault Refusal := .next (s.dropTop.setPc s.top)

/-- `cld` (R111): st.D <- 0. -/
def execCld (s : State) : Host.Outcome State Fault Refusal := .next (s.setSt (clearD s.cpu.st))

/-- `std` (R112): st.D <- 1. -/
def execStd (s : State) : Host.Outcome State Fault Refusal := .next (s.setSt (setD s.cpu.st))

/-- `cli` (R113): st.X <- 0; afterwards exceptions are accepted (R31). -/
def execCli (s : State) : Host.Outcome State Fault Refusal := .next (s.setSt (clearX s.cpu.st))

/-- `sti` (R114): st.X <- 1; afterwards exceptions are refused (R31). -/
def execSti (s : State) : Host.Outcome State Fault Refusal := .next (s.setSt (setX s.cpu.st))

/-- `iret` (R115): pc <- Pop(), then st <- Pop(), unconditionally. -/
def execIret (s : State) : Host.Outcome State Fault Refusal := .next s.returnFromException

/-- `trap` (R116): Raise(TRAP); a refused raise has no visible effect (R219). -/
def execTrap (s : State) : Host.Outcome State Fault Refusal :=
  match s.raise ExcKind.trap.ordinal with
  | some t => .next t
  | none => .next s

end Sys2Proof.Machine
end

