-- ==== Sys2Proof/Machine/OneImmediate.lean ====
section
/-! DEFINITION. The one-immediate instructions (42_one_immediate.md R140, R141). Every meaning is entered with `pc = next` (R95). -/

namespace Sys2Proof.Machine

/-- `br off` (R140): taken iff the condition flag is set. -/
def execBr (off : Byte) (s : State) : Host.Outcome State Fault Refusal :=
  .next (if flagC s.cpu.st then s.setPc (branchTarget s.cpu.pc off) else s)

/-- `jr off` (R141): always taken. -/
def execJr (off : Byte) (s : State) : Host.Outcome State Fault Refusal := .next (s.setPc (branchTarget s.cpu.pc off))

end Sys2Proof.Machine
end

