-- ==== Sys2Proof/Machine/OneRegister.lean ====
section
/-! DEFINITION. The one-register instructions (41_one_register.md R120 to R131). Every meaning is entered with `pc = next` (R95). -/

namespace Sys2Proof.Machine

/-- `neg rA` (R120): two's-complement negate. -/
def execNeg (ra : Reg) (s : State) : Host.Outcome State Fault Refusal := .next (s.unary ra aluNeg)

/-- `not rA` (R121): logical not. -/
def execNot (ra : Reg) (s : State) : Host.Outcome State Fault Refusal := .next (s.unary ra aluNot)

/-- `push rA` (R122): the value is read before the decrement (R23). -/
def execPush (ra : Reg) (s : State) : Host.Outcome State Fault Refusal := .next (s.push (s.reg ra))

/-- `pop rA` (R123): the destination is written last, so `pop r15` keeps the word popped (R23). -/
def execPop (ra : Reg) (s : State) : Host.Outcome State Fault Refusal := .next (s.dropTop.setReg ra s.top)

/-- `jmpr rA` (R124): pc <- x[A]. -/
def execJmpr (ra : Reg) (s : State) : Host.Outcome State Fault Refusal := .next (s.setPc (s.reg ra))

/-- `callr rA` (R125): the target is read before the push of the return address (R23). -/
def execCallr (ra : Reg) (s : State) : Host.Outcome State Fault Refusal := .next ((s.push s.cpu.pc).setPc (s.reg ra))

/-- `out rA` (R126): emit the low byte. -/
def execOut (ra : Reg) (s : State) : Host.Outcome State Fault Refusal := .next (s.emit (loByte (s.reg ra)))

/-- `inc rA` (R127). -/
def execInc (ra : Reg) (s : State) : Host.Outcome State Fault Refusal := .next (s.unary ra aluInc)

/-- `dec rA` (R128). -/
def execDec (ra : Reg) (s : State) : Host.Outcome State Fault Refusal := .next (s.unary ra aluDec)

/-- `lit rA` (R129): itr <- x[A]. -/
def execLit (ra : Reg) (s : State) : Host.Outcome State Fault Refusal := .next (s.setItr (s.reg ra))

/-- `cpuid rA` (R130): x[A] <- id. -/
def execCpuid (ra : Reg) (s : State) : Host.Outcome State Fault Refusal := .next (s.setReg ra s.cpu.id)

/-- `cpunum rA` (R131): x[A] <- cnt. -/
def execCpunum (ra : Reg) (s : State) : Host.Outcome State Fault Refusal := .next (s.setReg ra s.cpu.cnt)

end Sys2Proof.Machine
end

