-- ==== Sys2Proof/Machine/TwoRegister.lean ====
section
/-! DEFINITION. The two-register instructions (43_two_register.md R150 to R166). Every meaning is entered with `pc = next` (R95); both
sources are read before the destination is written (R23). -/

namespace Sys2Proof.Machine

/-- `add rA, rB` (R150). -/
def execAdd (ra rb : Reg) (s : State) : Host.Outcome State Fault Refusal := .next (s.binary ra rb aluAdd)

/-- `sub rA, rB` (R151). -/
def execSub (ra rb : Reg) (s : State) : Host.Outcome State Fault Refusal := .next (s.binary ra rb aluSub)

/-- `mul rA, rB` (R152). -/
def execMul (ra rb : Reg) (s : State) : Host.Outcome State Fault Refusal := .next (s.binary ra rb aluMul)

/-- `div rA, rB` (R153, R219): a zero divisor raises FAULT, and stops this context with ARITH if that is refused; x[B] is
unchanged in both cases (decision D10). -/
def execDiv (ra rb : Reg) (s : State) : Host.Outcome State Fault Refusal :=
  if s.reg ra = 0 then
    match s.raise ExcKind.fault.ordinal with
    | some t => .next t
    | none => .next (s.stop .arith)
  else .next (s.binary ra rb aluDiv)

/-- `and rA, rB` (R154). -/
def execAnd (ra rb : Reg) (s : State) : Host.Outcome State Fault Refusal := .next (s.binary ra rb aluAnd)

/-- `or rA, rB` (R155). -/
def execOr (ra rb : Reg) (s : State) : Host.Outcome State Fault Refusal := .next (s.binary ra rb aluOr)

/-- `xor rA, rB` (R156). -/
def execXor (ra rb : Reg) (s : State) : Host.Outcome State Fault Refusal := .next (s.binary ra rb aluXor)

/-- `shr rA, rB` (R157). -/
def execShr (ra rb : Reg) (s : State) : Host.Outcome State Fault Refusal := .next (s.binary ra rb aluShr)

/-- `shl rA, rB` (R158). -/
def execShl (ra rb : Reg) (s : State) : Host.Outcome State Fault Refusal := .next (s.binary ra rb aluShl)

/-- `test rA, rB` (R159): assigns st.C. -/
def execTest (ra rb : Reg) (s : State) : Host.Outcome State Fault Refusal := .next (s.compare ra rb condTest)

/-- `cmp rA, rB` (R160): assigns st.C. -/
def execCmp (ra rb : Reg) (s : State) : Host.Outcome State Fault Refusal := .next (s.compare ra rb condCmp)

/-- `equ rA, rB` (R161): assigns st.C. -/
def execEqu (ra rb : Reg) (s : State) : Host.Outcome State Fault Refusal := .next (s.compare ra rb condEqu)

/-- `mov rA, rB` (R162). -/
def execMov (ra rb : Reg) (s : State) : Host.Outcome State Fault Refusal := .next (s.binary ra rb aluMov)

/-- `load rA, rB` (R163): the word at x[A] into x[B]. -/
def execLoad (ra rb : Reg) (s : State) : Host.Outcome State Fault Refusal := .next (s.setReg rb (s.readWord (s.reg ra)))

/-- `stor rA, rB` (R164): the word x[B] to address x[A] (conflict C6). -/
def execStor (ra rb : Reg) (s : State) : Host.Outcome State Fault Refusal :=
  .next (s.writeWord (s.reg (storeAddrReg ra rb)) (s.reg (storeDataReg ra rb)))

/-- `loadb rA, rB` (R165): the byte at x[A], zero-extended, into x[B]. -/
def execLoadb (ra rb : Reg) (s : State) : Host.Outcome State Fault Refusal := .next (s.setReg rb (zext16 (s.readByte (s.reg ra))))

/-- `storb rA, rB` (R166): the low byte of x[B] to address x[A], one byte only (decision D21). -/
def execStorb (ra rb : Reg) (s : State) : Host.Outcome State Fault Refusal :=
  .next (s.writeByte (s.reg (storeAddrReg ra rb)) (loByte (s.reg (storeDataReg ra rb))))

end Sys2Proof.Machine
end

