-- ==== Sys2Proof/Machine/Dispatch.lean ====
section
/-! DEFINITION. The dispatch (30_encoding.md R91): one meaning per instruction. -/

namespace Sys2Proof.Machine

def exec (i : Instr) (s : State) : Host.Outcome State Fault Refusal :=
  match i with
  | .bad opcode => Sys2Proof.Machine.execBad opcode s
  | .ret => Sys2Proof.Machine.execRet s
  | .cld => Sys2Proof.Machine.execCld s
  | .std => Sys2Proof.Machine.execStd s
  | .cli => Sys2Proof.Machine.execCli s
  | .sti => Sys2Proof.Machine.execSti s
  | .iret => Sys2Proof.Machine.execIret s
  | .trap => Sys2Proof.Machine.execTrap s
  | .neg ra => Sys2Proof.Machine.execNeg ra s
  | .not ra => Sys2Proof.Machine.execNot ra s
  | .push ra => Sys2Proof.Machine.execPush ra s
  | .pop ra => Sys2Proof.Machine.execPop ra s
  | .jmpr ra => Sys2Proof.Machine.execJmpr ra s
  | .callr ra => Sys2Proof.Machine.execCallr ra s
  | .out ra => Sys2Proof.Machine.execOut ra s
  | .inc ra => Sys2Proof.Machine.execInc ra s
  | .dec ra => Sys2Proof.Machine.execDec ra s
  | .lit ra => Sys2Proof.Machine.execLit ra s
  | .cpuid ra => Sys2Proof.Machine.execCpuid ra s
  | .cpunum ra => Sys2Proof.Machine.execCpunum ra s
  | .br off => Sys2Proof.Machine.execBr off s
  | .jr off => Sys2Proof.Machine.execJr off s
  | .add ra rb => Sys2Proof.Machine.execAdd ra rb s
  | .sub ra rb => Sys2Proof.Machine.execSub ra rb s
  | .mul ra rb => Sys2Proof.Machine.execMul ra rb s
  | .div ra rb => Sys2Proof.Machine.execDiv ra rb s
  | .and ra rb => Sys2Proof.Machine.execAnd ra rb s
  | .or ra rb => Sys2Proof.Machine.execOr ra rb s
  | .xor ra rb => Sys2Proof.Machine.execXor ra rb s
  | .shr ra rb => Sys2Proof.Machine.execShr ra rb s
  | .shl ra rb => Sys2Proof.Machine.execShl ra rb s
  | .test ra rb => Sys2Proof.Machine.execTest ra rb s
  | .cmp ra rb => Sys2Proof.Machine.execCmp ra rb s
  | .equ ra rb => Sys2Proof.Machine.execEqu ra rb s
  | .mov ra rb => Sys2Proof.Machine.execMov ra rb s
  | .load ra rb => Sys2Proof.Machine.execLoad ra rb s
  | .stor ra rb => Sys2Proof.Machine.execStor ra rb s
  | .loadb ra rb => Sys2Proof.Machine.execLoadb ra rb s
  | .storb ra rb => Sys2Proof.Machine.execStorb ra rb s
  | .loada ra rb => Sys2Proof.Machine.execLoada ra rb s
  | .stora ra rb => Sys2Proof.Machine.execStora ra rb s
  | .tnset ra rb => Sys2Proof.Machine.execTnset ra rb s
  | .jmp addr => Sys2Proof.Machine.execJmp addr s
  | .call addr => Sys2Proof.Machine.execCall addr s
  | .loadi ra imm => Sys2Proof.Machine.execLoadi ra imm s

end Sys2Proof.Machine
end

