-- ==== Sys2Proof/Machine/Cycle.lean ====
section
/-! DEFINITION. The cycle of one context (30_encoding.md R95) and one round of the loop around it (60_exceptions.md R221),
with nothing of another context in between. -/

namespace Sys2Proof.Machine

/-- The instruction at `pc`, by the machine's opcode table: its word, and for a defined extended opcode the trailing word after it (R81, R83, R95). -/
def State.fetch (s : State) : Instr :=
  let w := s.readWord s.cpu.pc
  instrOfWords s.opmap w (if takesTrailingWord s.opmap w then s.readWord (s.cpu.pc + 2) else 0)

/-- Go on from a next state. -/
def onNext (o : Host.Outcome State Fault Refusal) (f : State → State) : Host.Outcome State Fault Refusal :=
  match o with
  | .next s => .next (f s)
  | .fault r => .fault r
  | .refused r => .refused r

/-- What the loop does after the handler of `i` (R208, R221): an unmapped opcode stops the context and is not counted
(R92, R224); a context that stopped or still waits inside its handler is not counted; else `cyc` advances. -/
def State.endCycle (s : State) (i : Instr) : State :=
  if i.isBad then s.stop .halt
  else if s.cpu.run ≠ .running then s
  else if s.cpu.flight.isSome then s
  else s.setCyc (s.cpu.cyc + 1)

/-- One cycle and its count: fetch, decode, advance `pc`, run the handler (R95, R221). -/
def State.runCycle (s : State) : Host.Outcome State Fault Refusal :=
  onNext (exec s.fetch (s.setPc (s.cpu.pc + 2))) fun t => t.endCycle s.fetch

/-- A tick is due between cycles: PERIOD is not 0, cyc is not 0 and a multiple of PERIOD (R215). -/
def State.tickDue (s : State) : Bool :=
  decide (s.period ≠ 0 ∧ s.cpu.cyc ≠ 0 ∧ s.cpu.cyc % s.period = 0)

/-- The budget is used up (R221, R223). -/
def State.budgetSpent (s : State) : Bool := decide (s.budget ≠ 0 ∧ s.budget ≤ s.cpu.cyc)

/-- What stands between two cycles (R221). -/
inductive Boundary where
  /-- Stop(EXHAUSTED). -/
  | exhausted
  /-- Raise(INTERRUPT), then the cycle. -/
  | tick
  /-- The cycle: no tick is due, or the tick is dropped because X is 1 (R217). -/
  | go
  deriving DecidableEq, Repr

/-- The checks of R221 before a cycle, in order. -/
def State.boundary (s : State) : Boundary :=
  if s.budgetSpent then .exhausted
  else if s.tickDue && !flagX s.cpu.st then .tick
  else .go

/-- One round of the loop of R221 without interruption; a stopped context does nothing (R222). -/
def State.loopRound (s : State) : Host.Outcome State Fault Refusal :=
  if s.cpu.run ≠ .running then .next s
  else
    match s.boundary with
    | .exhausted => .next (s.stop .exhausted)
    | .tick =>
      match s.raise ExcKind.interrupt.ordinal with
      | some t => t.runCycle
      | none => .next (s.stop .timerFail)
    | .go => s.runCycle

end Sys2Proof.Machine
end

