-- ==== Sys2Proof/Machine/Interleave.lean ====
section
/-! DEFINITION. The same loop one byte access at a time, so that accesses of other contexts can fall in between
(20_memory.md R60 to R64; notes/assumptions/16.md, 17.md, 24.md), and whose turn it is (60_exceptions.md R226, R228). -/

namespace Sys2Proof.Machine

/-! ## The accesses of a cycle in progress -/

/-- The byte that the cycle read into a slot. -/
def Flight.byteAt (f : Flight) (slot : Nat) : Byte := (f.seen.lookup slot).getD 0

/-- The word that the cycle read into slots `slot` and `slot + 1`. -/
def Flight.wordAt (f : Flight) (slot : Nat) : Word := joinBytes (f.byteAt slot) (f.byteAt (slot + 1))

/-- The access that goes next, and what is left: any member of the first group (R60 items 3 and 4). -/
def nextAccess : List (List Access) → Nat → Option (Access × List (List Access))
  | [], _ => none
  | [] :: gs, pick => nextAccess gs pick
  | (x :: xs) :: gs, pick =>
    let k := pick % (x :: xs).length
    let rest := (x :: xs).eraseIdx k
    some ((x :: xs).getD k x, if rest.isEmpty then gs else rest :: gs)

/-- One access by the active context; none when it asks for LOCK and LOCK is held (R62). -/
def State.perform (s : State) (f : Flight) : Access → Option (State × Flight)
  | .read slot a => some (s, { f with seen := (slot, s.readByte a) :: f.seen })
  | .write a b => some (s.writeByte a b, f)
  | .acquire => if s.lock.isNone then some (s.setLock (some s.cpu.id), f) else none
  | .release => some (s.setLock none, f)
  | .emit b => some (s.emit b, f)

/-! ## The private effect at the end of a handler -/

/-- What the handler of `i` does to its own context once all its accesses are made, given the bytes they read. An
instruction without accesses has only this effect. -/
def State.commit (s : State) (f : Flight) (i : Instr) : Host.Outcome State Fault Refusal :=
  match i with
  | .bad _ => exec i s
  | .ret => .next (s.dropTop.setPc (f.wordAt 0))
  | .cld => exec i s
  | .std => exec i s
  | .cli => exec i s
  | .sti => exec i s
  | .iret => .next ((s.dropTop.dropTop.setPc (f.wordAt 0)).setSt (f.wordAt 2))
  | .trap => if s.cpu.accepts then .next (s.enterAt (f.wordAt 0)) else exec i s
  | .neg _ => exec i s
  | .not _ => exec i s
  | .push _ => .next (s.setReg Reg.sp s.pushAddr)
  | .pop ra => .next (s.dropTop.setReg ra (f.wordAt 0))
  | .jmpr _ => exec i s
  | .callr ra => .next ((s.setReg Reg.sp s.pushAddr).setPc (s.reg ra))
  | .out _ => .next s
  | .inc _ => exec i s
  | .dec _ => exec i s
  | .lit _ => exec i s
  | .cpuid _ => exec i s
  | .cpunum _ => exec i s
  | .br _ => exec i s
  | .jr _ => exec i s
  | .add _ _ => exec i s
  | .sub _ _ => exec i s
  | .mul _ _ => exec i s
  | .div ra _ => if s.reg ra = 0 ∧ s.cpu.accepts then .next (s.enterAt (f.wordAt 0)) else exec i s
  | .and _ _ => exec i s
  | .or _ _ => exec i s
  | .xor _ _ => exec i s
  | .shr _ _ => exec i s
  | .shl _ _ => exec i s
  | .test _ _ => exec i s
  | .cmp _ _ => exec i s
  | .equ _ _ => exec i s
  | .mov _ _ => exec i s
  | .load _ rb => .next (s.setReg rb (f.wordAt 0))
  | .stor _ _ => .next s
  | .loadb _ rb => .next (s.setReg rb (zext16 (f.byteAt 0)))
  | .storb _ _ => .next s
  | .loada _ rb => .next (s.setReg rb (f.wordAt 0))
  | .stora _ _ => .next s
  | .tnset _ rb => .next (s.setReg rb (f.wordAt 0))
  | .jmp _ => exec i s
  | .call addr => .next ((s.setReg Reg.sp s.pushAddr).setPc addr)
  | .loadi _ _ => exec i s

/-- The end of a handler: its private effect, then what the loop does after it (R221); the cycle is over. -/
def State.finishHandler (s : State) (f : Flight) (i : Instr) : Host.Outcome State Fault Refusal :=
  onNext ((s.setFlight none).commit f i) fun t => t.endCycle i

/-! ## Stages of a cycle -/

/-- A cycle about to fetch its instruction word (R95). -/
def State.fetchFlight (s : State) : Flight :=
  { stage := .fetch, todo := [readWordAccesses 0 s.cpu.pc], seen := [] }

/-- A cycle about to enter the INTERRUPT exception (R215, R221). -/
def State.tickFlight (s : State) : Flight :=
  { stage := .tick, todo := entryPlan s.cpu ExcKind.interrupt.ordinal, seen := [] }

/-- Advance `pc` and enter the handler of `i` (R95); a handler without accesses is over at once. -/
def State.beginHandler (s : State) (i : Instr) : Host.Outcome State Fault Refusal :=
  let t := s.setPc (s.cpu.pc + 2)
  if (plan t.cpu i).isEmpty then t.finishHandler { stage := .handler i, todo := [], seen := [] } i
  else .next (t.enterHandler i)

/-- What follows when a stage has made all its accesses. -/
def State.finishStage (s : State) (f : Flight) : Host.Outcome State Fault Refusal :=
  match f.stage with
  | .tick =>
    let t := s.enterAt (f.wordAt 0)
    .next (t.setFlight (some t.fetchFlight))
  | .fetch =>
    if takesTrailingWord s.opmap (f.wordAt 0) then
      .next (s.setFlight (some { stage := .trailing, todo := [readWordAccesses 2 (s.cpu.pc + 2)], seen := f.seen }))
    else s.beginHandler (instrOfWords s.opmap (f.wordAt 0) 0)
  | .trailing => s.beginHandler (instrOfWords s.opmap (f.wordAt 0) (f.wordAt 2))
  | .handler i => s.finishHandler f i

/-- One access of the cycle in progress `f`. A context that waits for LOCK changes nothing. -/
def State.accessFlight (s : State) (f : Flight) (pick : Nat) : Host.Outcome State Fault Refusal :=
  match nextAccess f.todo pick with
  | none => s.finishStage f
  | some (x, rest) =>
    match s.perform f x with
    | none => .next s
    | some (t, g) =>
      if rest.isEmpty then t.finishStage { g with todo := rest }
      else .next (t.setFlight (some { g with todo := rest }))

/-- One access of the active context, starting its next cycle if none is in progress (R221). -/
def State.accessTurn (s : State) (pick : Nat) : Host.Outcome State Fault Refusal :=
  if s.cpu.run ≠ .running then .next s
  else
    match s.cpu.flight with
    | some f => s.accessFlight f pick
    | none =>
      match s.boundary with
      | .exhausted => .next (s.stop .exhausted)
      | .tick => if s.cpu.accepts then s.accessFlight s.tickFlight pick else .next (s.stop .timerFail)
      | .go => s.accessFlight s.fetchFlight pick

/-! ## Turns -/

/-- A whole cycle of the active context, or the next access of a cycle already in progress (notes/assumptions/23.md). -/
def State.cycleTurn (s : State) : Host.Outcome State Fault Refusal :=
  if s.cpu.flight.isSome then s.accessTurn 0 else s.loopRound

/-- Take the context with id `k` out of a list and put `c` in its place. -/
def swapIn (c : Context) (k : Word) : List Context → Option (Context × List Context)
  | [] => none
  | d :: ds =>
    if d.id = k then some (d, c :: ds)
    else (swapIn c k ds).map fun r => (r.1, d :: r.2)

/-- Make the context with id `k` the active one; none if there is none. -/
def State.switchTo (s : State) (k : Word) : Option State :=
  if s.cpu.id = k then some s
  else (swapIn s.cpu k s.others).map fun r => { s with cpu := r.1, others := r.2 }

/-- One turn of the machine (R226, R228): the schedule says whose; with none left the active context goes on; a turn of a
context that does not exist is void (notes/assumptions/22.md). -/
def State.takeTurn (s : State) : Host.Outcome State Fault Refusal :=
  match s.sched with
  | [] => s.cycleTurn
  | .cycle k :: rest =>
    match (s.setSched rest).switchTo k with
    | some t => t.cycleTurn
    | none => .next (s.setSched rest)
  | .access k pick :: rest =>
    match (s.setSched rest).switchTo k with
    | some t => t.accessTurn pick
    | none => .next (s.setSched rest)

/-- Nothing stands between this state and the fetch of the active context's next instruction: it is running and between
cycles, no turn is scheduled, its budget is not spent and no tick is due (notes/assumptions/34.md). -/
def State.readyToFetch (s : State) : State :=
  let t := ((s.setRun .running).setFlight none).setSched []
  { t with
    budget := if s.budgetSpent then 0 else s.budget
    period := if s.tickDue then 0 else s.period }

end Sys2Proof.Machine
end

