-- ==== Sys2Proof/Machine/Launch.lean ====
section
/-! DEFINITION. Reset with parameters and an image (70_reset_and_hazards.md R240, R241; 20_memory.md R58; 10_state.md R45). -/

namespace Sys2Proof

/-- R6's defaults, OPMAP as R90 gives it (BUDGET: notes/assumptions/2.md). -/
def RunConfig.standard : RunConfig := { opmap := Sys2Proof.opmap }

/-- 1 <= CPU_COUNT <= 65535 (R6; the upper bound is the spec's decision D20), and a legal opcode table (decision D3). -/
def RunConfig.legal (c : RunConfig) : Bool := decide (1 ≤ c.cpuCount ∧ c.cpuCount ≤ 65535) && c.opmap.legal

end Sys2Proof

namespace Sys2Proof.Machine

/-- The bytes of an image from an address on, into a memory. -/
def Memory.load (m : Memory) (a : Nat) : List Byte → Memory
  | [] => m
  | b :: bs => (m.write a b).load (a + 1) bs

/-- The machine at the start of a run: memory zero-filled, then the image at address 0; every context zeroed with its id and
the count; everything else as R45 says. An illegal CPU_COUNT or opcode table or an image longer than Memory has no launch state
(R6, R58, R262). Context 0 is active. -/
def launch (c : RunConfig) (image : List Byte) : Option State :=
  if c.legal ∧ image.length ≤ Config.memSize then
    some
      { cpu := Context.reset 0 (BitVec.ofNat 16 c.cpuCount)
        others := (List.range' 1 (c.cpuCount - 1)).map fun k =>
          Context.reset (BitVec.ofNat 16 k) (BitVec.ofNat 16 c.cpuCount)
        mem := Memory.load [] 0 image
        lock := none
        outq := []
        budget := c.budget
        period := c.period
        opmap := c.opmap
        sched := [] }
  else none

end Sys2Proof.Machine
end

