-- ==== Sys2Proof/Machine/Step.lean ====
section
/-! DEFINITION. One step of the machine: one turn of one context. -/

namespace Sys2Proof.Machine

/-- One step: one turn (60_exceptions.md R221, R226; Machine/Interleave.lean). -/
def step (s : State) : Host.Outcome State Fault Refusal := s.takeTurn

/-- `s` with the instruction of the opcode table's number `w` stored at the active context's `pc`, where the next step
fetches it (notes/assumptions/1.md, 34.md). -/
def State.withFetchWord (s : State) (nbits w : Nat) : State :=
  s.readyToFetch.writeBytes s.cpu.pc (tableBytes nbits w)

end Sys2Proof.Machine
end

