-- ==== Sys2Proof/Safety.lean ====
section
/-! DEFINITION. What a run reports (60_exceptions.md R225, 70_reset_and_hazards.md R260), which runs are graceful (R222), and
the invariants of the machine that claims use. -/

namespace Sys2Proof.Machine

/-- All contexts, the active one first (R226). -/
def State.contexts (s : State) : List Context := s.cpu :: s.others

/-- STATUS (10_state.md R37, R225): per context its id, `run` with the reason, and `cyc`. -/
def State.status (s : State) : List (Word × Run × Nat) := s.contexts.map fun c => (c.id, c.run, c.cyc)

/-- The run is over: every context is STOPPED (R225, R260). -/
def State.finished (s : State) : Bool := s.contexts.all fun c => c.run != .running

/-- A stop the source calls no error: HALT and EXHAUSTED (R222). -/
def StopReason.graceful : StopReason → Bool
  | .halt => true
  | .exhausted => true
  | .timerFail => false
  | .arith => false

/-- No context has stopped with TIMER_FAIL or ARITH. -/
def State.safe (s : State) : Bool :=
  s.contexts.all fun c => match c.run with
    | .running => true
    | .stopped r => r.graceful

/-! ## Invariants -/

/-- Memory is in its canonical form. -/
abbrev State.MemoryCanonical (s : State) : Prop := s.mem.wf

/-- The context has taken LOCK and not yet released it: its remaining accesses hold the release and no acquire (R62). -/
def Context.insideLock (c : Context) : Bool :=
  match c.flight with
  | none => false
  | some f => f.todo.any (·.contains .release) && !f.todo.any (·.contains .acquire)

/-- A nonempty group of accesses that does not touch LOCK. -/
def LockFree (g : List Access) : Prop := g ≠ [] ∧ .acquire ∉ g ∧ .release ∉ g

/-- What a cycle in progress may still have to do about LOCK: nothing; or to release it at the very end; or to acquire it first and
release it at the very end (Machine/Plan.lean `lockedPlan`). -/
def LockShape (todo : List (List Access)) : Prop :=
  ∃ body, (∀ g ∈ body, LockFree g) ∧
    (todo = body ∨ todo = body ++ [[.release]] ∨ todo = [.acquire] :: (body ++ [[.release]]))

/-- LOCK discipline (R62, R64): ids are distinct, LOCK is held exactly by the context that is inside its locked section, every
cycle in progress keeps to the shape of `lockedPlan`, and a stopped context has no cycle in progress (R222: it holds no
lock). -/
structure State.LockDiscipline (s : State) : Prop where
  ids : (s.contexts.map (·.id)).Nodup
  held : ∀ c ∈ s.contexts, c.insideLock = true ↔ s.lock = some c.id
  owner : ∀ k, s.lock = some k → ∃ c ∈ s.contexts, c.id = k
  shape : ∀ c ∈ s.contexts, ∀ f, c.flight = some f → LockShape f.todo
  running : ∀ c ∈ s.contexts, c.flight.isSome = true → c.run = .running

/-- No context has counted more cycles than BUDGET allows, and one in the middle of a cycle has one left (R223). -/
def State.WithinBudget (s : State) : Prop :=
  s.budget ≠ 0 → ∀ c ∈ s.contexts, c.cyc ≤ s.budget ∧ (c.flight.isSome = true → c.cyc < s.budget)

/-! ## What an instruction leaves alone -/

/-- The frame of an instruction: registers outside `regs`, bytes of memory outside `stored`, everything about other contexts,
LOCK, the schedule, the parameters and the context's own id, count, cycle count and cycle in progress. -/
structure Frame (s t : State) (regs : List Reg) (stored : List Word) : Prop where
  regs : ∀ r, r ∉ regs → t.reg r = s.reg r
  mem : ∀ a, a ∉ stored → t.readByte a = s.readByte a
  id : t.cpu.id = s.cpu.id
  cnt : t.cpu.cnt = s.cpu.cnt
  cyc : t.cpu.cyc = s.cpu.cyc
  flight : t.cpu.flight = s.cpu.flight
  others : t.others = s.others
  lock : t.lock = s.lock
  budget : t.budget = s.budget
  period : t.period = s.period
  opmap : t.opmap = s.opmap
  sched : t.sched = s.sched

/-- The frame of an instruction that writes registers and memory at most: also the status register, the interrupt-table
register, RUNNING and the output are as before. The program counter may change. -/
structure Quiet (s t : State) (regs : List Reg) (stored : List Word) : Prop extends Frame s t regs stored where
  st : t.cpu.st = s.cpu.st
  itr : t.cpu.itr = s.cpu.itr
  run : t.cpu.run = s.cpu.run
  outq : t.outq = s.outq

/-! ## Runs -/

/-- The active context takes one access after another, the choices given by a list. -/
def accessRun : List Nat → State → Host.Outcome State Fault Refusal
  | [], s => .next s
  | p :: ps, s =>
    match s.accessTurn p with
    | .next t => accessRun ps t
    | .fault r => .fault r
    | .refused r => .refused r

/-- The next step is one uninterrupted cycle of the active context: no other turn is scheduled, it is running and between
cycles, its budget is not spent, and no tick that could be taken is due (R221). -/
structure State.AtCycle (s : State) : Prop where
  sched : s.sched = []
  running : s.cpu.run = .running
  between : s.cpu.flight = none
  budget : s.budget = 0 ∨ s.cpu.cyc < s.budget
  noTick : s.period = 0 ∨ s.cpu.cyc = 0 ∨ s.cpu.cyc % s.period ≠ 0 ∨ flagX s.cpu.st = true

end Sys2Proof.Machine
end

