-- ==== Sys2Proof/WellFormed.lean ====
section
/-! DEFINITION. Well-formed instructions. Register fields, offsets and immediates are bounded by their types; the one check
left is about the opcode: `bad` stands for an UNMAPPED opcode (30_encoding.md R92), so that every word has one reading, and a
defined instruction is one that the table gives an opcode. -/

namespace Sys2Proof

/-- Well formed for a table: `bad` exactly for the opcodes the table leaves out (R92), a defined instruction if the table lists
it. -/
def Instr.wellFormedIn (m : OpMap) (i : Instr) : Bool :=
  match i.head with
  | .unmapped opcode => !m.maps opcode
  | .defined o => (m.opcodeOf o).isSome

/-- Well formed for R90's table. -/
def Instr.wellFormed (i : Instr) : Bool := i.wellFormedIn opmap

end Sys2Proof
end

