-- ==== Sys2Proof/Certificates/Slice0/Obligations.lean ====
section
/-! DEFINITION. The statements for the provers, from the numbered rules of spec/. Each docstring names what it rests on; where
a clause rests on a decision of the spec's own (D<n>) or on a choice of the model (a log entry), it says so. -/

open Sys2Proof Sys2Proof.Machine

/-! ## Encoding -/

/-- 30_encoding.md R84, R87, R90, one word per format and one unmapped word, ignored bits set (decisions D1 to D5; the opcode
numbers are D3, notes/assumptions/3.md to 6.md). -/
def Obligations.SampleWordsDecodeAsTheTableSays : Prop :=
  decode [0x01, 0xFF] = .ok (.ret, []) ∧ decode [0x41, 0x3F] = .ok (.neg 3, []) ∧
  decode [0x61, 0xF8] = .ok (.br 0xF8, []) ∧ decode [0x82, 0x5A] = .ok (.sub 5 10, []) ∧
  decode [0xC2, 0x77, 0x12, 0x34] = .ok (.call 0x1234, []) ∧
  decode [0xE1, 0xF3, 0x10, 0x00] = .ok (.loadi 15 0x1000, []) ∧
  decode [0xFF, 0x12, 0x34, 0x56] = .ok (.bad 0xFF, [0x34, 0x56])

/-- 30_encoding.md R90, R91, R82: R90's table is legal (opcodes distinct, 0x00 unmapped, every defined instruction in it once),
has 44 rows, and each row's format agrees with the class bits of its opcode (numbers: decision D3,
notes/assumptions/3.md, 36.md). -/
def Obligations.OpcodeMapIsUnambiguous : Prop :=
  opmap.legal = true ∧ opmap.length = 44 ∧ (opmap.map (·.opcode)).Nodup ∧ isMapped 0x00 = false ∧
  ∀ r ∈ opmap, classOf r.opcode =
    match r.operation.format with
    | .z => .noOperand
    | .r1 => .oneOperand
    | .i8 => .oneOperand
    | .r2 => .twoRegister
    | .x => .extended
    | .xr => .extended

/-- With every legal opcode table (R6, decision D3), R90's among them: decoding the encoding of a well-formed instruction gives
it back, with every operand value, and leaves the bytes after it (R80, R82, R83, R84, R90; decisions D1 to D5). -/
def Obligations.DecodeInvertsEncode : Prop :=
  (∀ (m : OpMap) (i : Instr) (rest : List Byte), m.legal = true → i.wellFormedIn m = true →
    decodeWith m (encodeBytesWith m i ++ rest) = .ok (i, rest)) ∧
  (∀ (i : Instr) (rest : List Byte), i.wellFormed = true → decode (encodeBytes i ++ rest) = .ok (i, rest))

/-- R81, R87, R92, with every legal opcode table (R6, decision D3): any two bytes begin an instruction; it is well formed; it is
4 bytes long exactly for a defined opcode of class 11 and else 2; an unmapped opcode is `bad`. That a class-11 instruction
with fewer than two bytes after its first word is rejected as `truncatedTrailingWord` is the model's (DEDUCED,
notes/assumptions/28.md): R87 gives the decoder no failure mode, and memory never ends. -/
def Obligations.EveryWordDecodesWithTheLengthOfItsClass : Prop :=
  ∀ (m : OpMap) (hi lo : Byte) (rest : List Byte), m.legal = true →
    (m.maps hi = false → decodeWith m (hi :: lo :: rest) = .ok (.bad hi, rest)) ∧
    (m.maps hi = true → classOf hi ≠ .extended →
      ∃ i, decodeWith m (hi :: lo :: rest) = .ok (i, rest) ∧ i.wellFormedIn m = true ∧ i.opcodeIn m = hi) ∧
    (m.maps hi = true → classOf hi = .extended →
      (∀ h l tail, rest = h :: l :: tail →
        ∃ i, decodeWith m (hi :: lo :: rest) = .ok (i, tail) ∧ i.wellFormedIn m = true ∧ i.opcodeIn m = hi) ∧
      (rest.length < 2 → decodeWith m (hi :: lo :: rest) = .error .truncatedTrailingWord))

/-! ## Memory -/

/-- 20_memory.md R52: words are big-endian for reads, writes and instruction fetch. A write sets the two bytes and no other
(the frame is R50's). -/
def Obligations.WordAccessIsBigEndian : Prop :=
  ∀ (s : State) (a v : Word),
    (s.readWord a).toNat = (s.readByte a).toNat * 256 + (s.readByte (a + 1)).toNat ∧
    ((s.writeWord a v).readByte a).toNat = v.toNat / 256 ∧
    ((s.writeWord a v).readByte (a + 1)).toNat = v.toNat % 256 ∧
    (∀ x, x ≠ a → x ≠ a + 1 → (s.writeWord a v).readByte x = s.readByte x) ∧
    (decodeFields (s.readWord s.cpu.pc)).opcode = s.readByte s.cpu.pc ∧
    (decodeFields (s.readWord s.cpu.pc)).imm8 = s.readByte (s.cpu.pc + 1)

/-- 20_memory.md R54, R53: a mixed-width access sees bytes, at the top of memory too. -/
def Obligations.MixedWidthAccessSeesBytes : Prop :=
  ∀ (s : State) (a v : Word),
    (s.writeWord a v).readByte a = hiByte v ∧ (s.writeWord a v).readByte (a + 1) = loByte v ∧
    (s.writeWord a v).readWord (a + 1) = joinBytes (loByte v) (s.readByte (a + 2)) ∧
    (s.writeWord 0xFFFF v).readByte 0xFFFF = hiByte v ∧ (s.writeWord 0xFFFF v).readByte 0x0000 = loByte v

/-- Every step keeps Memory in its canonical form, whoever acts and at whatever grain (the form is the model's,
INVENTORY.md `mem`; the accesses are R55's). -/
def Obligations.StepKeepsMemoryCanonical : Prop :=
  ∀ s t : State, s.MemoryCanonical → step s = .next t → t.MemoryCanonical

/-! ## Results, completion and frame of every instruction -/

/-- R120, R121, R127, R128: `neg`, `not`, `inc`, `dec` (truth values of `not`: decision D22). -/
def Obligations.UnaryInstructionsWriteTheirRegister : Prop :=
  ∀ (s : State) (ra : Reg),
    (∃ t, exec (.neg ra) s = .next t ∧ (t.reg ra).toNat = (65536 - (s.reg ra).toNat) % 65536 ∧
      t.cpu.pc = s.cpu.pc ∧ Quiet s t [ra] []) ∧
    (∃ t, exec (.not ra) s = .next t ∧ (t.reg ra).toNat = (if (s.reg ra).toNat = 0 then 1 else 0) ∧
      t.cpu.pc = s.cpu.pc ∧ Quiet s t [ra] []) ∧
    (∃ t, exec (.inc ra) s = .next t ∧ (t.reg ra).toNat = ((s.reg ra).toNat + 1) % 65536 ∧
      t.cpu.pc = s.cpu.pc ∧ Quiet s t [ra] []) ∧
    (∃ t, exec (.dec ra) s = .next t ∧ (t.reg ra).toNat = ((s.reg ra).toNat + 65535) % 65536 ∧
      t.cpu.pc = s.cpu.pc ∧ Quiet s t [ra] [])

/-- R130, R131: `cpuid`, `cpunum`. -/
def Obligations.CpuidAndCpunumReadTheConfiguration : Prop :=
  ∀ (s : State) (ra : Reg),
    (∃ t, exec (.cpuid ra) s = .next t ∧ t.reg ra = s.cpu.id ∧ t.cpu.pc = s.cpu.pc ∧ Quiet s t [ra] []) ∧
    (∃ t, exec (.cpunum ra) s = .next t ∧ t.reg ra = s.cpu.cnt ∧ t.cpu.pc = s.cpu.pc ∧ Quiet s t [ra] [])

/-- R149 to R152, R154 to R156, R162: `add`, `sub`, `mul`, `and`, `or`, `xor`, `mov` compute from the values at entry, also
when both fields name one register (R23), and keep the low 16 bits. -/
def Obligations.BinaryInstructionsWriteTheSecondRegister : Prop :=
  ∀ (s : State) (ra rb : Reg),
    (∃ t, exec (.add ra rb) s = .next t ∧ (t.reg rb).toNat = ((s.reg rb).toNat + (s.reg ra).toNat) % 65536 ∧
      t.cpu.pc = s.cpu.pc ∧ Quiet s t [rb] []) ∧
    (∃ t, exec (.sub ra rb) s = .next t ∧
      ((t.reg rb).toNat : Int) = (((s.reg rb).toNat : Int) - (s.reg ra).toNat) % 65536 ∧
      t.cpu.pc = s.cpu.pc ∧ Quiet s t [rb] []) ∧
    (∃ t, exec (.mul ra rb) s = .next t ∧ (t.reg rb).toNat = ((s.reg rb).toNat * (s.reg ra).toNat) % 65536 ∧
      t.cpu.pc = s.cpu.pc ∧ Quiet s t [rb] []) ∧
    (∃ t, exec (.and ra rb) s = .next t ∧ (∀ k, (t.reg rb).getLsbD k = ((s.reg rb).getLsbD k && (s.reg ra).getLsbD k)) ∧
      t.cpu.pc = s.cpu.pc ∧ Quiet s t [rb] []) ∧
    (∃ t, exec (.or ra rb) s = .next t ∧ (∀ k, (t.reg rb).getLsbD k = ((s.reg rb).getLsbD k || (s.reg ra).getLsbD k)) ∧
      t.cpu.pc = s.cpu.pc ∧ Quiet s t [rb] []) ∧
    (∃ t, exec (.xor ra rb) s = .next t ∧ (∀ k, (t.reg rb).getLsbD k = ((s.reg rb).getLsbD k ^^ (s.reg ra).getLsbD k)) ∧
      t.cpu.pc = s.cpu.pc ∧ Quiet s t [rb] []) ∧
    (∃ t, exec (.mov ra rb) s = .next t ∧ t.reg rb = s.reg ra ∧ t.cpu.pc = s.cpu.pc ∧ Quiet s t [rb] [])

/-- R157, R158: `shr` and `shl` by the whole 16-bit count; counts of 16 or more give 0 (operand roles: decision D8; large
counts: decision D9, notes/assumptions/9.md, 10.md). -/
def Obligations.ShiftsMultiplyAndDivideByPowersOfTwo : Prop :=
  ∀ (s : State) (ra rb : Reg),
    (∃ t, exec (.shr ra rb) s = .next t ∧ (t.reg rb).toNat = (s.reg rb).toNat / 2 ^ (s.reg ra).toNat ∧
      t.cpu.pc = s.cpu.pc ∧ Quiet s t [rb] []) ∧
    (∃ t, exec (.shl ra rb) s = .next t ∧ (t.reg rb).toNat = ((s.reg rb).toNat * 2 ^ (s.reg ra).toNat) % 65536 ∧
      t.cpu.pc = s.cpu.pc ∧ Quiet s t [rb] [])

/-- R153 with a nonzero divisor: the floor of reg2 / reg1 (operand order: decision D8, notes/assumptions/9.md). -/
def Obligations.DivideByNonzeroGivesTheQuotient : Prop :=
  ∀ (s : State) (ra rb : Reg), s.reg ra ≠ 0 →
    ∃ t, exec (.div ra rb) s = .next t ∧ (t.reg rb).toNat = (s.reg rb).toNat / (s.reg ra).toNat ∧
      t.cpu.pc = s.cpu.pc ∧ Quiet s t [rb] []

/-- R153, R219: division by zero raises FAULT through the vector at itr + 4 with `pc` (= next) saved, the destination unchanged;
in-exception or without a table it stops the context with ARITH and changes nothing else (decision D10,
notes/assumptions/11.md). -/
def Obligations.DivideByZeroRaisesFaultOrStops : Prop :=
  ∀ (s : State) (ra rb : Reg), s.reg ra = 0 →
    (flagX s.cpu.st = false ∧ s.cpu.itr ≠ 0 →
      ∃ t, exec (.div ra rb) s = .next t ∧ s.raise 2 = some t ∧ t.cpu.pc = t.readWord (s.cpu.itr + 4) ∧
        t.readWord (s.reg Reg.sp - 4) = s.cpu.pc ∧ (rb ≠ Reg.sp → t.reg rb = s.reg rb)) ∧
    (flagX s.cpu.st = true ∨ s.cpu.itr = 0 → exec (.div ra rb) s = .next (s.stop .arith))

/-- R159, R160, R161: `test`, `cmp`, `equ` assign C both ways and nothing else (decision D22: other bits of `st` stay). -/
def Obligations.ComparisonsAssignTheConditionFlag : Prop :=
  ∀ (s : State) (ra rb : Reg),
    (∃ t, exec (.test ra rb) s = .next t ∧ (flagC t.cpu.st = true ↔ s.reg ra &&& s.reg rb ≠ 0) ∧
      (∀ k, k ≠ 0 → t.cpu.st.getLsbD k = s.cpu.st.getLsbD k) ∧ t.cpu.itr = s.cpu.itr ∧ t.cpu.run = s.cpu.run ∧
      t.outq = s.outq ∧ t.cpu.pc = s.cpu.pc ∧ Frame s t [] []) ∧
    (∃ t, exec (.cmp ra rb) s = .next t ∧ (flagC t.cpu.st = true ↔ (s.reg ra).toNat < (s.reg rb).toNat) ∧
      (∀ k, k ≠ 0 → t.cpu.st.getLsbD k = s.cpu.st.getLsbD k) ∧ t.cpu.itr = s.cpu.itr ∧ t.cpu.run = s.cpu.run ∧
      t.outq = s.outq ∧ t.cpu.pc = s.cpu.pc ∧ Frame s t [] []) ∧
    (∃ t, exec (.equ ra rb) s = .next t ∧ (flagC t.cpu.st = true ↔ s.reg ra = s.reg rb) ∧
      (∀ k, k ≠ 0 → t.cpu.st.getLsbD k = s.cpu.st.getLsbD k) ∧ t.cpu.itr = s.cpu.itr ∧ t.cpu.run = s.cpu.run ∧
      t.outq = s.outq ∧ t.cpu.pc = s.cpu.pc ∧ Frame s t [] [])

/-- R111 to R114: `cld`, `std`, `cli`, `sti` write their one bit of `st` and nothing else. -/
def Obligations.StatusBitInstructionsWriteOneBit : Prop :=
  ∀ s : State,
    (∃ t, exec .cld s = .next t ∧ (∀ k, t.cpu.st.getLsbD k = (s.cpu.st.getLsbD k && k != 1)) ∧ t = s.setSt t.cpu.st) ∧
    (∃ t, exec .std s = .next t ∧ (∀ k, t.cpu.st.getLsbD k = (s.cpu.st.getLsbD k || k == 1)) ∧ t = s.setSt t.cpu.st) ∧
    (∃ t, exec .cli s = .next t ∧ (∀ k, t.cpu.st.getLsbD k = (s.cpu.st.getLsbD k && k != 2)) ∧ t = s.setSt t.cpu.st) ∧
    (∃ t, exec .sti s = .next t ∧ (∀ k, t.cpu.st.getLsbD k = (s.cpu.st.getLsbD k || k == 2)) ∧ t = s.setSt t.cpu.st)

/-- R140, R141, R124, R170: `br` (taken iff C), `jr`, `jmpr`, `jmp` write `pc` and nothing else. -/
def Obligations.JumpsWriteOnlyThePc : Prop :=
  ∀ (s : State) (ra : Reg) (off : Byte) (addr : Word),
    (flagC s.cpu.st = true → exec (.br off) s = .next (s.setPc (branchTarget s.cpu.pc off))) ∧
    (flagC s.cpu.st = false → exec (.br off) s = .next s) ∧
    exec (.jr off) s = .next (s.setPc (branchTarget s.cpu.pc off)) ∧
    exec (.jmpr ra) s = .next (s.setPc (s.reg ra)) ∧
    exec (.jmp addr) s = .next (s.setPc addr)

/-- The switches stand where the source puts them: branch targets count bytes from the instruction after the branch (R85, R140;
decision D11, G7, notes/assumptions/12.md), and a store's address is in reg1, its data in reg2 (R164; conflict C6, G6,
notes/assumptions/13.md). -/
def Obligations.BranchBaseAndStoreFieldAreTheSources : Prop :=
  (∀ (next : Word) (off : Byte),
    ((branchTarget next off).toNat : Int) = ((next.toNat : Int) + off.toInt) % 65536) ∧
  (∀ ra rb : Reg, storeAddrReg ra rb = ra ∧ storeDataReg ra rb = rb)

/-- R122: `push` stores the register's value at entry below the old stack pointer (decisions D6, D7). -/
def Obligations.PushStoresBelowTheStackPointer : Prop :=
  ∀ (s : State) (ra : Reg),
    ∃ t, exec (.push ra) s = .next t ∧ t.reg Reg.sp = s.reg Reg.sp - 2 ∧ t.readWord s.pushAddr = s.reg ra ∧
      s.pushAddr = s.reg Reg.sp - 2 ∧ t.cpu.pc = s.cpu.pc ∧ Quiet s t [Reg.sp] [s.pushAddr, s.pushAddr + 1]

/-- R123: `pop` loads the word on top and moves the stack pointer up by 2, except that `pop r15` leaves the word popped
(decisions D6, D7). -/
def Obligations.PopLoadsTheTop : Prop :=
  ∀ (s : State) (ra : Reg),
    ∃ t, exec (.pop ra) s = .next t ∧ t.reg ra = s.readWord (s.reg Reg.sp) ∧
      (ra ≠ Reg.sp → t.reg Reg.sp = s.reg Reg.sp + 2) ∧ t.cpu.pc = s.cpu.pc ∧ Quiet s t [ra, Reg.sp] []

/-- R171, R125: `call` and `callr` push the address of the instruction after them and jump; the target is read before the push
(decisions D6, D7). -/
def Obligations.CallsPushTheReturnAddress : Prop :=
  ∀ (s : State) (ra : Reg) (addr : Word),
    (∃ t, exec (.call addr) s = .next t ∧ t.cpu.pc = addr ∧ t.readWord s.pushAddr = s.cpu.pc + 2 ∧
      t.reg Reg.sp = s.reg Reg.sp - 2 ∧ Quiet s t [Reg.sp] [s.pushAddr, s.pushAddr + 1]) ∧
    (∃ t, exec (.callr ra) s = .next t ∧ t.cpu.pc = s.reg ra ∧ t.readWord s.pushAddr = s.cpu.pc ∧
      t.reg Reg.sp = s.reg Reg.sp - 2 ∧ Quiet s t [Reg.sp] [s.pushAddr, s.pushAddr + 1])

/-- R110: `ret` pops `pc` (decision D6). -/
def Obligations.RetPopsThePc : Prop :=
  ∀ s : State, ∃ t, exec .ret s = .next t ∧ t.cpu.pc = s.readWord (s.reg Reg.sp) ∧
    t.reg Reg.sp = s.reg Reg.sp + 2 ∧ Quiet s t [Reg.sp] []

/-- R213, R115: `iret` pops `pc` and then the whole of `st`, whether or not the context is in-exception, so a program can set any
word in `st` by pushing it and a target. -/
def Obligations.IretLoadsPcAndStUnconditionally : Prop :=
  (∀ s : State, ∃ t, exec .iret s = .next t ∧ t.cpu.pc = s.readWord (s.reg Reg.sp) ∧
    t.cpu.st = s.readWord (s.reg Reg.sp + 2) ∧ t.reg Reg.sp = s.reg Reg.sp + 4 ∧
    t.cpu.itr = s.cpu.itr ∧ t.cpu.run = s.cpu.run ∧ t.outq = s.outq ∧ Frame s t [Reg.sp] []) ∧
  (∀ (s : State) (v target : Word), ∃ t, exec .iret ((s.push v).push target) = .next t ∧
    t.cpu.st = v ∧ t.cpu.pc = target ∧ t.reg Reg.sp = s.reg Reg.sp)

/-- R126, R44: `out` appends the low byte of its register to the output and changes nothing else. -/
def Obligations.OutAppendsOneByte : Prop :=
  ∀ (s : State) (ra : Reg), ∃ t, exec (.out ra) s = .next t ∧ t.outq.dropLast = s.outq ∧
    t.outq.getLast?.map (·.toNat) = some ((s.reg ra).toNat % 256) ∧ t.cpu = s.cpu ∧ Frame s t [] []

/-- R129, R172: `lit` loads `itr`; `loadi` loads a register and skips its trailing word. -/
def Obligations.LitAndLoadiLoadTheirValue : Prop :=
  ∀ (s : State) (ra : Reg) (imm : Word),
    (∃ t, exec (.lit ra) s = .next t ∧ t.cpu.itr = s.reg ra ∧ t.cpu.st = s.cpu.st ∧ t.cpu.run = s.cpu.run ∧
      t.outq = s.outq ∧ t.cpu.pc = s.cpu.pc ∧ Frame s t [] []) ∧
    (∃ t, exec (.loadi ra imm) s = .next t ∧ t.reg ra = imm ∧ t.cpu.pc = s.cpu.pc + 2 ∧ Quiet s t [ra] [])

/-- R163, R165, R180: `load` and, with LOCK free, `loada` read the word at reg1's address; `loadb` the byte, zero-extended
(decision D21). Memory does not change. -/
def Obligations.LoadsReadTheAddressInReg1 : Prop :=
  ∀ (s : State) (ra rb : Reg),
    (∃ t, exec (.load ra rb) s = .next t ∧ t.reg rb = s.readWord (s.reg ra) ∧ t.cpu.pc = s.cpu.pc ∧ Quiet s t [rb] []) ∧
    (∃ t, exec (.loadb ra rb) s = .next t ∧ (t.reg rb).toNat = (s.readByte (s.reg ra)).toNat ∧
      t.cpu.pc = s.cpu.pc ∧ Quiet s t [rb] []) ∧
    (s.lock = none → ∃ t, exec (.loada ra rb) s = .next t ∧ t.reg rb = s.readWord (s.reg ra) ∧
      t.cpu.pc = s.cpu.pc ∧ Quiet s t [rb] [])

/-- R164, R166, R181: `stor` and, with LOCK free, `stora` store a word, `storb` one byte, at the address the meaning computes, and
no other byte and no register changes. -/
def Obligations.StoresWriteOnlyTheirBytes : Prop :=
  ∀ (s : State) (ra rb : Reg) (a : Word), a = s.reg (storeAddrReg ra rb) →
    (∃ t, exec (.stor ra rb) s = .next t ∧ t.readWord a = s.reg (storeDataReg ra rb) ∧ t.cpu.pc = s.cpu.pc ∧
      Quiet s t [] [a, a + 1]) ∧
    (∃ t, exec (.storb ra rb) s = .next t ∧ (t.readByte a).toNat = (s.reg (storeDataReg ra rb)).toNat % 256 ∧
      t.cpu.pc = s.cpu.pc ∧ Quiet s t [] [a]) ∧
    (s.lock = none → ∃ t, exec (.stora ra rb) s = .next t ∧ t.readWord a = s.reg (storeDataReg ra rb) ∧
      t.cpu.pc = s.cpu.pc ∧ Quiet s t [] [a, a + 1])

/-- R182: with LOCK free, `tnset` gives the old word and leaves the word 0x0001 (the pattern's reading: decision D15,
notes/assumptions/17.md), LOCK free again. -/
def Obligations.TnsetReadsThenSetsTheWord : Prop :=
  ∀ (s : State) (ra rb : Reg), s.lock = none →
    ∃ t, exec (.tnset ra rb) s = .next t ∧ t.reg rb = s.readWord (s.reg ra) ∧ t.readWord (s.reg ra) = 0x0001 ∧
      t.cpu.pc = s.cpu.pc ∧ Quiet s t [rb] [s.reg ra, s.reg ra + 1]

/-- R62, R64: an atomic that finds LOCK held waits: nothing changes but that its handler is entered with all its accesses to
make, `acquire` first, and its turns change nothing while LOCK stays held (the form of waiting is the model's,
notes/assumptions/17.md, 24.md). -/
def Obligations.AtomicsWaitWhileLockIsHeld : Prop :=
  ∀ (s : State) (ra rb : Reg) (k : Word) (i : Instr), s.lock = some k →
    (i = .loada ra rb ∨ i = .stora ra rb ∨ i = .tnset ra rb) →
    ∃ f : Flight, exec i s = .next (s.setFlight (some f)) ∧ f.stage = .handler i ∧ f.todo.head? = some [.acquire] ∧
      f.todo.getLast? = some [.release] ∧ f.seen = [] ∧
      ∀ pick, (s.setFlight (some f)).accessTurn pick = .next (s.setFlight (some f))

/-- R116, R219: `trap` raises TRAP through the vector at itr + 2; refused, it has no visible effect. -/
def Obligations.TrapRaisesOrDoesNothing : Prop :=
  ∀ s : State,
    (flagX s.cpu.st = false ∧ s.cpu.itr ≠ 0 →
      ∃ t, exec .trap s = .next t ∧ s.raise 1 = some t ∧ t.cpu.pc = t.readWord (s.cpu.itr + 2) ∧
        t.readWord (s.reg Reg.sp - 4) = s.cpu.pc) ∧
    (flagX s.cpu.st = true ∨ s.cpu.itr = 0 → exec .trap s = .next s)

/-! ## Exceptions -/

/-- 60_exceptions.md R204, R205: when `Raise` is refused, and everything it does when it is not. The vector is read after the
pushes; the two stacked words overlap nothing of each other. -/
def Obligations.RaiseIsRefusedOrEntersTheHandler : Prop :=
  ∀ (s : State) (kind : Nat),
    (s.raise kind = none ↔ flagX s.cpu.st = true ∨ s.cpu.itr = 0 ∨ kind > 2) ∧
    ∀ t, s.raise kind = some t →
      t.readWord (s.reg Reg.sp - 2) = s.cpu.st ∧ t.readWord (s.reg Reg.sp - 4) = s.cpu.pc ∧
      t.reg Reg.sp = s.reg Reg.sp - 4 ∧
      (∀ k, t.cpu.st.getLsbD k = (s.cpu.st.getLsbD k || k == 2)) ∧
      t.cpu.pc = t.readWord (s.cpu.itr + BitVec.ofNat 16 (2 * kind)) ∧
      t.cpu.itr = s.cpu.itr ∧ t.cpu.run = s.cpu.run ∧ t.outq = s.outq ∧
      Frame s t [Reg.sp] [s.reg Reg.sp - 2, s.reg Reg.sp - 1, s.reg Reg.sp - 4, s.reg Reg.sp - 3]

/-- R205, R210, R115, read together (derived: `iret` is the inverse of an entry): `iret` right after an entry, where X is set,
restores `pc`, `st` and the stack pointer, returns to normal execution, and changes no other register. That `iret` loads them
whatever X is stands in `Obligations.IretLoadsPcAndStUnconditionally`. -/
def Obligations.IretUndoesAnEntry : Prop :=
  ∀ (s t : State) (kind : Nat), s.raise kind = some t →
    ∃ u, exec .iret t = .next u ∧ u.cpu.pc = s.cpu.pc ∧ u.cpu.st = s.cpu.st ∧ flagX u.cpu.st = false ∧
      (∀ r, u.reg r = s.reg r) ∧ (∀ a, u.readByte a = t.readByte a)

/-- R211: while X is 1 no exception is delivered: `Raise` changes nothing, `trap` is a no-op, a tick is dropped and the cycle runs
(decision D17, notes/assumptions/19.md), a division by zero stops the context (decision D10, notes/assumptions/11.md). -/
def Obligations.NestingGuardRefusesEveryException : Prop :=
  ∀ s : State, flagX s.cpu.st = true →
    (∀ kind, s.raise kind = none) ∧ exec .trap s = .next s ∧
    (∀ ra rb, s.reg ra = 0 → exec (.div ra rb) s = .next (s.stop .arith)) ∧
    (s.cpu.run = .running → (s.budget = 0 ∨ s.cpu.cyc < s.budget) → s.loopRound = s.runCycle)

/-! ## Status and control registers over all instructions -/

/-- R29: only `test`, `cmp`, `equ` assign C, `iret` replaces `st`, nothing else touches it, exception entry included; and C is read by
`br` alone: without `br` and without the entries that save `st` (`trap`, `div`), what an instruction does to everything but
`st` does not depend on C. -/
def Obligations.ConditionFlagHasFourWritersAndOneReader : Prop :=
  (∀ (i : Instr) (s t : State), exec i s = .next t →
    (∀ ra rb, i = .test ra rb → (flagC t.cpu.st = true ↔ s.reg ra &&& s.reg rb ≠ 0)) ∧
    (∀ ra rb, i = .cmp ra rb → (flagC t.cpu.st = true ↔ (s.reg ra).toNat < (s.reg rb).toNat)) ∧
    (∀ ra rb, i = .equ ra rb → (flagC t.cpu.st = true ↔ s.reg ra = s.reg rb)) ∧
    (i = .iret → t.cpu.st = s.readWord (s.reg Reg.sp + 2)) ∧
    ((∀ ra rb, i ≠ .test ra rb ∧ i ≠ .cmp ra rb ∧ i ≠ .equ ra rb) → i ≠ .iret → flagC t.cpu.st = flagC s.cpu.st)) ∧
  (∀ (s t : State) (kind : Nat), s.raise kind = some t → flagC t.cpu.st = flagC s.cpu.st) ∧
  (∀ (i : Instr) (s t : State) (c : Bool), (∀ off, i ≠ .br off) → i ≠ .trap → (∀ ra rb, i ≠ .div ra rb) →
    exec i s = .next t → ∃ u, exec i (s.setSt (assignC s.cpu.st c)) = .next u ∧
      u.setSt 0 = t.setSt 0)

/-- R30, R231: D has no effect on anything but itself: two states that differ in D alone go to states that differ in D at most, for
every instruction but those that save `st` in memory on an entry (`trap`, `div`). -/
def Obligations.DebugFlagHasNoEffect : Prop :=
  ∀ (i : Instr) (s t : State), i ≠ .trap → (∀ ra rb, i ≠ .div ra rb) → exec i s = .next t →
    ∃ u, exec i (s.setSt (s.cpu.st ^^^ 0x0002)) = .next u ∧ u.setSt 0 = t.setSt 0 ∧
      ∀ k, k ≠ 1 → u.cpu.st.getLsbD k = t.cpu.st.getLsbD k

/-- R28, R32: bits 15:3 of `st` change by `iret` only (decision D13), X by `cli`, `sti`, `iret`, `trap`, `div` only, D by `cld`, `std`,
`iret` only, `itr` by `lit` only; `id` and `cnt` by nothing. -/
def Obligations.ControlRegistersHaveTheNamedWriters : Prop :=
  ∀ (i : Instr) (s t : State), exec i s = .next t →
    (i ≠ .iret → ∀ k, 3 ≤ k → t.cpu.st.getLsbD k = s.cpu.st.getLsbD k) ∧
    (i ≠ .iret → i ≠ .cli → i ≠ .sti → i ≠ .trap → (∀ ra rb, i ≠ .div ra rb) →
      flagX t.cpu.st = flagX s.cpu.st) ∧
    (i ≠ .iret → i ≠ .cld → i ≠ .std → flagD t.cpu.st = flagD s.cpu.st) ∧
    ((∀ ra, i ≠ .lit ra) → t.cpu.itr = s.cpu.itr) ∧
    t.cpu.id = s.cpu.id ∧ t.cpu.cnt = s.cpu.cnt

/-- R230: every instruction is available at all times: whatever the mode bits, the registers and memory hold, it answers a next
state. -/
def Obligations.EveryInstructionIsAlwaysAvailable : Prop :=
  ∀ (i : Instr) (s : State), ∃ t, exec i s = .next t

/-! ## The cycle and the loop -/

/-- 30_encoding.md R95, with the end of the cycle of 60_exceptions.md R221, R224: when the bytes at `pc` decode, by the machine's
opcode table, to `i`, one uninterrupted step is `exec i` with `pc` at next, and then the loop's end of cycle (HALT for
`bad`, else `cyc` + 1 unless the context stopped or waits). That `cyc` counts the cycles that did not stop the context is
decision D18 (notes/assumptions/20.md); that a waiting context is one with a cycle in progress is the model's (DESIGN CHOICE,
notes/assumptions/24.md). -/
def Obligations.StepRunsTheDecodedInstruction : Prop :=
  ∀ (s : State) (i : Instr) (rest : List Byte), s.AtCycle →
    decodeWith s.opmap [s.readByte s.cpu.pc, s.readByte (s.cpu.pc + 1), s.readByte (s.cpu.pc + 2),
      s.readByte (s.cpu.pc + 3)] = .ok (i, rest) →
    ∀ t, exec i (s.setPc (s.cpu.pc + 2)) = .next t → step s = .next (t.endCycle i) ∧
      (i.isBad = false → t.cpu.run = .running → t.cpu.flight = none → t.endCycle i = t.setCyc (s.cpu.cyc + 1))

/-- R92: an unmapped opcode halts the context: no state changes but `pc` = the word's address + 2 and STOPPED(HALT), `cyc` is not
advanced, no exception is raised; it is the only way to HALT; R90's table leaves 212 of the 256 opcodes unmapped, 0x00 among
them (which ones: decision D3, notes/assumptions/3.md). -/
def Obligations.UnmappedOpcodeHalts : Prop :=
  (∀ (op : Byte) (s : State), exec (.bad op) s = .next s) ∧
  (∀ s : State, s.AtCycle → s.opmap.maps (s.readByte s.cpu.pc) = false →
    step s = .next ((s.setPc (s.cpu.pc + 2)).stop .halt)) ∧
  (∀ s t : State, s.AtCycle → s.opmap.maps (s.readByte s.cpu.pc) = true → step s = .next t → t.cpu.run ≠ .stopped .halt) ∧
  ((List.range 256).filter fun n => !isMapped (BitVec.ofNat 8 n)).length = 212 ∧ isMapped 0x00 = false

/-- R223, R221: with BUDGET = n, n counted cycles end the context with EXHAUSTED whatever the next instruction is; with 0 or a
budget not used up the check does not stop it. -/
def Obligations.BudgetStopsTheContext : Prop :=
  ∀ s : State, s.sched = [] → s.cpu.run = .running → s.cpu.flight = none →
    (s.budget ≠ 0 → s.budget ≤ s.cpu.cyc → step s = .next (s.stop .exhausted)) ∧
    (s.budget = 0 ∨ s.cpu.cyc < s.budget → ∀ t, step s = .next t → t.cpu.run ≠ .stopped .exhausted)

/-- R223: no step takes a context past its budget. -/
def Obligations.StepKeepsWithinBudget : Prop :=
  ∀ s t : State, s.WithinBudget → step s = .next t → t.WithinBudget

/-- R218, R215: a due tick with X = 0 and itr = 0 stops that context with TIMER_FAIL, its state as the last cycle left it, the others
unaffected (when a tick is due: decision D16, notes/assumptions/18.md). -/
def Obligations.TickWithoutATableIsFatal : Prop :=
  ∀ s : State, s.sched = [] → s.cpu.run = .running → s.cpu.flight = none → (s.budget = 0 ∨ s.cpu.cyc < s.budget) →
    s.period ≠ 0 → s.cpu.cyc ≠ 0 → s.cpu.cyc % s.period = 0 → flagX s.cpu.st = false → s.cpu.itr = 0 →
    step s = .next (s.stop .timerFail)

/-- R216, R215, R206: a due tick that is accepted enters the INTERRUPT handler through the word at itr, the interrupted `pc` saved,
and the step's cycle is the handler's first; the tick itself costs no cycle (when a tick is due: decision D16,
notes/assumptions/18.md). -/
def Obligations.TickEntersTheInterruptHandler : Prop :=
  ∀ s : State, s.sched = [] → s.cpu.run = .running → s.cpu.flight = none → (s.budget = 0 ∨ s.cpu.cyc < s.budget) →
    s.period ≠ 0 → s.cpu.cyc ≠ 0 → s.cpu.cyc % s.period = 0 → flagX s.cpu.st = false → s.cpu.itr ≠ 0 →
    ∃ t, s.raise 0 = some t ∧ t.cpu.pc = t.readWord s.cpu.itr ∧ t.readWord (s.reg Reg.sp - 4) = s.cpu.pc ∧
      t.cpu.cyc = s.cpu.cyc ∧ step s = t.runCycle

/-- R217, R215: a due tick with X = 1 is dropped, and no tick is due with PERIOD 0, before the first cycle, or off a multiple of
PERIOD: the step is the cycle alone (decisions D16, D17, notes/assumptions/18.md, 19.md). -/
def Obligations.DroppedOrAbsentTickLeavesTheCycle : Prop :=
  ∀ s : State, s.AtCycle → step s = s.runCycle

/-- R222: STOPPED is final: a stopped context is in the next state as it was, whoever acts. -/
def Obligations.StoppedContextsNeverChange : Prop :=
  ∀ (s t : State) (c : Context) (r : StopReason), step s = .next t → c ∈ s.contexts → c.run = .stopped r →
    c ∈ t.contexts

/-! ## Several contexts -/

/-- 20_memory.md R72: a step leaves every context but the one that acts exactly as it was, starts and removes none; it signals
none, since everything a context holds is in its record. -/
def Obligations.StepLeavesOtherContextsAlone : Prop :=
  ∀ s t : State, step s = .next t →
    (∀ c ∈ s.contexts, c ∈ t.contexts ∨ c.id = t.cpu.id) ∧
    (t.contexts.map fun c => (c.id, c.cnt)).Perm (s.contexts.map fun c => (c.id, c.cnt)) ∧
    t.budget = s.budget ∧ t.period = s.period

/-- R44, R126: a step appends at most one byte to the output and never changes what was emitted. -/
def Obligations.OutputOnlyGrows : Prop :=
  ∀ s t : State, step s = .next t → t.outq = s.outq ∨ ∃ b, t.outq = s.outq ++ [b]

/-- R62, R64: LOCK discipline is kept by every step, byte-grained ones included: LOCK is held exactly by the one context inside its
locked section (the record of the section is the model's, notes/assumptions/24.md). -/
def Obligations.StepKeepsLockDiscipline : Prop :=
  ∀ s t : State, s.LockDiscipline → step s = .next t → t.LockDiscipline

/-- R60, R96 (and R62 with LOCK free): the byte accesses of one cycle, taken one by one without interruption and in whatever order
within each word, make exactly the cycle that `exec` gives. The two grains of a turn and the cycle in progress are the
model's (DESIGN CHOICE, notes/assumptions/23.md, 24.md); that the two bytes of a word may be taken in either order is decision
D14 (notes/assumptions/16.md). -/
def Obligations.UninterruptedAccessesMakeTheCycle : Prop :=
  ∀ (s : State) (picks : List Nat), s.MemoryCanonical → s.lock = none → s.cpu.run = .running →
    s.cpu.flight = none → 14 ≤ picks.length →
    ∃ n, 0 < n ∧ n ≤ 14 ∧ accessRun (picks.take n) s = s.loopRound

/-- R60 item 4, R63 (decision D14, notes/assumptions/16.md), as a litmus test: context 0 loads the word at 0x0200 into x3 (bytes
8E 13), which is 0 at the start, while context 1 stores 0x1234 there (bytes 8F 12). With the load between the two byte writes
of the store x3 is neither the old word nor the new one, whichever byte is written first; with the store whole before or
after the load it is one of the two. Memory ends with 0x1234 in each case. The turns are the model's (DESIGN CHOICE,
notes/assumptions/22.md, 23.md). -/
def Obligations.OrdinaryWordAccessesTear : Prop :=
  let start (turns : List Turn) : State :=
    { State.reset with
      cpu := { Context.reset 0 2 with regs := (Vector.replicate 16 0).set 1 0x0200 }
      others := [{ Context.reset 1 2 with pc := 0x0010, regs := ((Vector.replicate 16 0).set 1 0x0200).set 2 0x1234 }]
      mem := [(0x0000, 0x8E), (0x0001, 0x13), (0x0010, 0x8F), (0x0011, 0x12)]
      sched := turns }
  let ends (turns : List Turn) (x3 : Word) : Prop :=
    ∃ t : State, Sys2Proof.core.run turns.length (start turns) = .next t ∧
      (t.contexts.find? (·.id == 0)).map (·.regs[3]) = some x3 ∧ t.readWord 0x0200 = 0x1234
  let load : List Turn := List.replicate 4 (.access 0 0)
  let fetchStore : List Turn := List.replicate 2 (.access 1 0)
  ends (fetchStore ++ [.access 1 0] ++ load ++ [.access 1 0]) 0x1200 ∧
  ends (fetchStore ++ [.access 1 1] ++ load ++ [.access 1 0]) 0x0034 ∧
  ends (load ++ fetchStore ++ [.access 1 0, .access 1 0]) 0x0000 ∧
  ends (fetchStore ++ [.access 1 0, .access 1 0] ++ load) 0x1234

/-- R67, R182, R62: of two contexts that execute `tnset` on one word one after the other, with LOCK free and the word 0, the first gets
0 and the second gets 1, and the word stays 1 (available = 0: conflict C5, decision D15). -/
def Obligations.SecondTnsetFindsTheWordTaken : Prop :=
  ∀ (s t u v : State) (ra rb qa qb : Reg) (k : Word), s.lock = none → s.readWord (s.reg ra) = 0x0000 →
    exec (.tnset ra rb) s = .next t → t.switchTo k = some u → u.reg qa = s.reg ra →
    exec (.tnset qa qb) u = .next v →
    t.reg rb = 0x0000 ∧ v.reg qb = 0x0001 ∧ v.readWord (s.reg ra) = 0x0001

/-! ## Round trips -/

/-- R123 (the source's stack discipline, 95_test_vectors.md S4): `push r` and then `pop r'` move the value of `r` into `r'` and put the
stack pointer back, and change nothing else, `pc` included, but the stack slot, for r' other than 15. -/
def Obligations.PushThenPopMovesTheValue : Prop :=
  ∀ (s : State) (ra rb : Reg), rb ≠ Reg.sp →
    ∃ t u, exec (.push ra) s = .next t ∧ exec (.pop rb) t = .next u ∧ u.reg rb = s.reg ra ∧
      u.reg Reg.sp = s.reg Reg.sp ∧ u.cpu.pc = s.cpu.pc ∧ Quiet s u [rb] [s.pushAddr, s.pushAddr + 1]

/-- R110, R171 (95_test_vectors.md S5): `call` and then `ret` with the stack as the call left it resumes after the call. -/
def Obligations.CallThenRetResumesAfterTheCall : Prop :=
  ∀ (s : State) (ra : Reg) (addr : Word) (i : Instr), (i = .call addr ∨ i = .callr ra) →
    ∃ t u, exec i s = .next t ∧ exec .ret t = .next u ∧
      u.cpu.pc = s.cpu.pc + (if i = .call addr then 2 else 0) ∧
      Quiet s u [] [s.pushAddr, s.pushAddr + 1]

/-! ## Reset -/

/-- 10_state.md R45, 70_reset_and_hazards.md R240, 00_scope.md R6: a legal launch gives CPU_COUNT contexts with ids
0 .. CPU_COUNT-1, all else of each zero, the image followed by zeros in Memory, LOCK free, nothing emitted, and the given
parameters, the opcode table among them. An illegal count or table, or an image longer than Memory, has no launch state (R6,
R58, R262; LOCK, `cyc`, OUTQ: decisions D15, D18, D20; what makes a table legal: decision D3, DEDUCED,
notes/assumptions/36.md). -/
def Obligations.LaunchZeroesContextsAndLoadsTheImage : Prop :=
  ∀ (c : RunConfig) (image : List Byte),
    (launch c image = none ↔ ¬ (1 ≤ c.cpuCount ∧ c.cpuCount ≤ 65535 ∧ c.opmap.legal = true ∧ image.length ≤ 65536)) ∧
    ∀ s, launch c image = some s →
      s.contexts = (List.range c.cpuCount).map (fun k => Context.reset (BitVec.ofNat 16 k) (BitVec.ofNat 16 c.cpuCount)) ∧
      (∀ a : Word, s.readByte a = image.getD a.toNat 0) ∧ s.mem.wf ∧ s.lock = none ∧ s.outq = [] ∧
      s.budget = c.budget ∧ s.period = c.period ∧ s.opmap = c.opmap ∧ s.LockDiscipline

/-- R45, R242: the state the model starts from: address 0, normal execution, no vector table, debug off, C clear, every register 0,
memory all zero, so the first opcode is the byte at address 0, and OPMAP R90's table, R6's default; it meets the invariants
(CPU_COUNT 1, BUDGET 0, PERIOD 0 and the empty image and schedule are the model's choice, notes/assumptions/2.md,
22.md). -/
def Obligations.ResetIsTheZeroStateAndMeetsTheInvariants : Prop :=
  (∀ r, State.reset.reg r = 0) ∧ State.reset.cpu.pc = 0 ∧ State.reset.cpu.st = 0 ∧ State.reset.cpu.itr = 0 ∧
  State.reset.cpu.id = 0 ∧ State.reset.cpu.cnt = 1 ∧ State.reset.cpu.cyc = 0 ∧ State.reset.cpu.run = .running ∧
  (∀ a, State.reset.readByte a = 0) ∧ State.reset.lock = none ∧ State.reset.outq = [] ∧
  (∀ kind, State.reset.raise kind = none) ∧ State.reset.opmap = Sys2Proof.opmap ∧
  launch RunConfig.standard [] = some State.reset ∧
  State.reset.MemoryCanonical ∧ State.reset.LockDiscipline ∧ State.reset.WithinBudget ∧ State.reset.AtCycle

/-- The host's way to place an instruction: the word stored where the active context fetches is, by the machine's opcode table
(R90's in State.reset, the one of `decodeTableWord`), the next instruction it fetches, and the next step is that cycle (the
model's stand-in for loading a program, notes/assumptions/1.md, 34.md). -/
def Obligations.PlacedWordIsFetchedNext : Prop :=
  ∀ (s : State) (nbits w : Nat) (i : Instr), decodeTableWith s.opmap nbits w = some i →
    (s.withFetchWord nbits w).fetch = i ∧ (s.withFetchWord nbits w).AtCycle ∧
    step (s.withFetchWord nbits w) = (s.withFetchWord nbits w).runCycle

/-! ## Operands of every word, and the opcode table -/

/-- R82, R83, R84, R88: which bits of the bytes each instruction reads as its operands, for every word, ignored bits set or not,
and with every opcode table (R6): reg1 is bits 7:4 of the operand byte and reg2 bits 3:0, an offset is the whole operand byte,
an immediate the trailing word, big-endian. Positions are decisions D1 and D2 (notes/assumptions/4.md), ignored bits decision
D4 (notes/assumptions/5.md). -/
def Obligations.DecodedOperandsAreTheFieldsOfTheWord : Prop :=
  ∀ (m : OpMap) (hi lo h l : Byte) (rest : List Byte) (o : Operation), m.lookup hi = some o →
    let a : Reg := Fin.ofNat 16 (lo.toNat / 16)
    let b : Reg := Fin.ofNat 16 (lo.toNat % 16)
    let v : Word := BitVec.ofNat 16 (h.toNat * 256 + l.toNat)
    decodeWith m (hi :: lo :: h :: l :: rest) =
      match o with
      | .ret => .ok (.ret, h :: l :: rest)
      | .cld => .ok (.cld, h :: l :: rest)
      | .std => .ok (.std, h :: l :: rest)
      | .cli => .ok (.cli, h :: l :: rest)
      | .sti => .ok (.sti, h :: l :: rest)
      | .iret => .ok (.iret, h :: l :: rest)
      | .trap => .ok (.trap, h :: l :: rest)
      | .neg => .ok (.neg a, h :: l :: rest)
      | .not => .ok (.not a, h :: l :: rest)
      | .push => .ok (.push a, h :: l :: rest)
      | .pop => .ok (.pop a, h :: l :: rest)
      | .jmpr => .ok (.jmpr a, h :: l :: rest)
      | .callr => .ok (.callr a, h :: l :: rest)
      | .out => .ok (.out a, h :: l :: rest)
      | .inc => .ok (.inc a, h :: l :: rest)
      | .dec => .ok (.dec a, h :: l :: rest)
      | .lit => .ok (.lit a, h :: l :: rest)
      | .cpuid => .ok (.cpuid a, h :: l :: rest)
      | .cpunum => .ok (.cpunum a, h :: l :: rest)
      | .br => .ok (.br lo, h :: l :: rest)
      | .jr => .ok (.jr lo, h :: l :: rest)
      | .add => .ok (.add a b, h :: l :: rest)
      | .sub => .ok (.sub a b, h :: l :: rest)
      | .mul => .ok (.mul a b, h :: l :: rest)
      | .div => .ok (.div a b, h :: l :: rest)
      | .and => .ok (.and a b, h :: l :: rest)
      | .or => .ok (.or a b, h :: l :: rest)
      | .xor => .ok (.xor a b, h :: l :: rest)
      | .shr => .ok (.shr a b, h :: l :: rest)
      | .shl => .ok (.shl a b, h :: l :: rest)
      | .test => .ok (.test a b, h :: l :: rest)
      | .cmp => .ok (.cmp a b, h :: l :: rest)
      | .equ => .ok (.equ a b, h :: l :: rest)
      | .mov => .ok (.mov a b, h :: l :: rest)
      | .load => .ok (.load a b, h :: l :: rest)
      | .stor => .ok (.stor a b, h :: l :: rest)
      | .loadb => .ok (.loadb a b, h :: l :: rest)
      | .storb => .ok (.storb a b, h :: l :: rest)
      | .loada => .ok (.loada a b, h :: l :: rest)
      | .stora => .ok (.stora a b, h :: l :: rest)
      | .tnset => .ok (.tnset a b, h :: l :: rest)
      | .jmp => .ok (.jmp v, rest)
      | .call => .ok (.call v, rest)
      | .loadi => .ok (.loadi a v, rest)

/-- R60 items 1 and 4, R63 (decision D14, notes/assumptions/16.md), for all states: when the handler of a `stor` has made one of
its two byte writes, a `load` of the word by another context gives the new byte and the old one, the high byte being the one
written first for an even choice and the low byte for an odd one; and the next access of the `stor` completes the word and
the cycle. The cycle in progress is the model's (DESIGN CHOICE, notes/assumptions/24.md). -/
def Obligations.LoadBetweenTheBytesOfAStorGetsOneOfEach : Prop :=
  ∀ (s t u : State) (ra rb qa qb : Reg) (k : Word) (pick : Nat), s.cpu.run = .running →
    (s.enterHandler (.stor ra rb)).accessTurn pick = .next t → t.switchTo k = some u → k ≠ s.cpu.id →
    u.reg qa = s.reg (storeAddrReg ra rb) →
    (∃ v, exec (.load qa qb) u = .next v ∧
      v.reg qb =
        (if pick % 2 = 0 then
          joinBytes (hiByte (s.reg (storeDataReg ra rb))) (s.readByte (s.reg (storeAddrReg ra rb) + 1))
        else joinBytes (s.readByte (s.reg (storeAddrReg ra rb))) (loByte (s.reg (storeDataReg ra rb))))) ∧
    ∀ other, ∃ w, t.accessTurn other = .next w ∧
      w.readWord (s.reg (storeAddrReg ra rb)) = s.reg (storeDataReg ra rb) ∧ w.cpu.flight = none ∧
      w.cpu.cyc = s.cpu.cyc + 1

/-- R91, 00_scope.md R6 and decision D3: the opcode table is constant after reset, every legal table leaves 0x00 unmapped and
has 44 rows (DEDUCED, notes/assumptions/36.md), and the meaning of an instruction does not depend on the table: with another
table it does the same. -/
def Obligations.OpcodeTableIsConstantAndChangesNoMeaning : Prop :=
  (∀ s t : State, step s = .next t → t.opmap = s.opmap) ∧
  (∀ m : OpMap, m.legal = true → m.maps 0x00 = false ∧ m.length = 44) ∧
  (∀ (i : Instr) (s t : State) (m : OpMap), exec i s = .next t →
    exec i { s with opmap := m } = .next { t with opmap := m })
end

