-- ==== Sys2Proof/Laws/Decode.lean ====
section
/-! SUPPORT. What a legal opcode table gives: looking an opcode up and giving an instruction its opcode are inverse to each
other, and a mapped opcode has the bits of its instruction's format (30_encoding.md R82, R90 to R92). -/

namespace Sys2Proof

/-- The parts of legality (92_eei_decisions.md D3). -/
theorem OpMap.legal_iff (m : OpMap) :
    m.legal = true ↔
      (m.map (·.opcode)).Nodup ∧ (m.map (·.operation)).Nodup ∧ (∀ o ∈ Operation.all, ∃ e ∈ m, e.operation = o) ∧
        m.maps 0x00 = false ∧ ∀ e ∈ m, e.operation.format.fits e.opcode = true := by
  simp [OpMap.legal, and_assoc]

/-- `Operation.all` leaves none out. -/
theorem Operation.mem_all (o : Operation) : o ∈ Operation.all := by
  cases o <;> decide

/-- What is looked up stands in the table. -/
theorem OpMap.mem_of_lookup {m : OpMap} {b : Byte} {o : Operation} (h : m.lookup b = some o) : ⟨b, o⟩ ∈ m := by
  obtain ⟨e, he, rfl⟩ := Option.map_eq_some_iff.1 h
  have hb : e.opcode = b := by simpa using List.find?_some he
  exact hb ▸ List.mem_of_find?_eq_some he

/-- The opcode given to an instruction stands in the table. -/
theorem OpMap.mem_of_opcodeOf {m : OpMap} {b : Byte} {o : Operation} (h : m.opcodeOf o = some b) : ⟨b, o⟩ ∈ m := by
  obtain ⟨e, he, rfl⟩ := Option.map_eq_some_iff.1 h
  have ho : e.operation = o := by simpa using List.find?_some he
  exact ho ▸ List.mem_of_find?_eq_some he

/-- With distinct keys, finding by the key of a member gives that member. -/
theorem find?_eq_of_nodup {α β : Type} [DecidableEq β] {l : List α} {key : α → β} (hn : (l.map key).Nodup) {x : α} (hx : x ∈ l) :
    l.find? (fun y => key y == key x) = some x := by
  induction l with
  | nil => cases hx
  | cons y l ih =>
    obtain ⟨hy, hl⟩ := List.nodup_cons.1 hn
    rcases List.mem_cons.1 hx with rfl | hx
    · simp
    · have hne : key y ≠ key x := fun e => hy (e ▸ List.mem_map_of_mem hx)
      simpa [hne] using ih hl hx

/-- The opcode a legal table gives an instruction is looked up as that instruction. -/
theorem OpMap.lookup_of_opcodeOf {m : OpMap} (hm : m.legal = true) {b : Byte} {o : Operation} (h : m.opcodeOf o = some b) :
    m.lookup b = some o := by
  have := find?_eq_of_nodup (m.legal_iff.1 hm).1 (OpMap.mem_of_opcodeOf h)
  simp only at this
  simp [OpMap.lookup, this]

/-- An instruction looked up in a legal table has that opcode. -/
theorem OpMap.opcodeOf_of_lookup {m : OpMap} (hm : m.legal = true) {b : Byte} {o : Operation} (h : m.lookup b = some o) :
    m.opcodeOf o = some b := by
  have := find?_eq_of_nodup (m.legal_iff.1 hm).2.1 (OpMap.mem_of_lookup h)
  simp only at this
  simp [OpMap.opcodeOf, this]

/-- A legal table gives every defined instruction an opcode. -/
theorem OpMap.opcodeOf_isSome {m : OpMap} (hm : m.legal = true) (o : Operation) : (m.opcodeOf o).isSome = true := by
  obtain ⟨e, he, ho⟩ := (m.legal_iff.1 hm).2.2.1 o o.mem_all
  simpa [OpMap.opcodeOf] using ⟨e, he, ho⟩

/-- A mapped opcode of a legal table has the class and mode bits of its instruction's format. -/
theorem OpMap.fits_of_lookup {m : OpMap} (hm : m.legal = true) {b : Byte} {o : Operation} (h : m.lookup b = some o) :
    o.format.fits b = true :=
  (m.legal_iff.1 hm).2.2.2.2 _ (OpMap.mem_of_lookup h)

/-- A format whose bits an opcode has takes a trailing word exactly in class 11 (R81). -/
theorem Format.hasTrailingWord_of_fits {f : Format} {b : Byte} (h : f.fits b = true) :
    f.hasTrailingWord = true ↔ classOf b = .extended := by
  cases f <;> simp_all [Format.fits, Format.hasTrailingWord]

/-- The instruction a defined name makes has that name as its head. -/
@[simp] theorem Operation.head_instr (o : Operation) (f : Fields) (w : Word) : (o.instr f w).head = .defined o := by
  cases o <;> rfl

/-- In a legal table an instruction's opcode is looked up as the instruction it heads. -/
theorem Instr.lookup_opcodeIn {m : OpMap} (hm : m.legal = true) {i : Instr} (hi : i.wellFormedIn m = true) :
    m.lookup (i.opcodeIn m) =
      match i.head with
      | .unmapped _ => none
      | .defined o => some o := by
  unfold Instr.wellFormedIn at hi
  unfold Instr.opcodeIn
  split at hi
  · rename_i heq
    simpa [heq, OpMap.maps] using hi
  · rename_i o heq
    obtain ⟨b, hb⟩ := Option.isSome_iff_exists.1 hi
    simp [heq, hb, OpMap.lookup_of_opcodeOf hm hb]

end Sys2Proof
end

