-- ==== Sys2Proof/Laws/State.lean ====
section
/-! SUPPORT. One lemma per field per update, true by `rfl`, so that no later proof unfolds a record update; and the reads
that an update of private state leaves alone. -/

namespace Sys2Proof.Machine

@[simp] theorem State.cpu_reg (s : State) (r : Reg) : s.cpu.reg r = s.reg r := rfl

/-! ### setReg -/

@[simp] theorem State.setReg_pc (s : State) (r : Reg) (v : Word) : (s.setReg r v).cpu.pc = s.cpu.pc := rfl
@[simp] theorem State.setReg_st (s : State) (r : Reg) (v : Word) : (s.setReg r v).cpu.st = s.cpu.st := rfl
@[simp] theorem State.setReg_itr (s : State) (r : Reg) (v : Word) : (s.setReg r v).cpu.itr = s.cpu.itr := rfl
@[simp] theorem State.setReg_id (s : State) (r : Reg) (v : Word) : (s.setReg r v).cpu.id = s.cpu.id := rfl
@[simp] theorem State.setReg_cnt (s : State) (r : Reg) (v : Word) : (s.setReg r v).cpu.cnt = s.cpu.cnt := rfl
@[simp] theorem State.setReg_cyc (s : State) (r : Reg) (v : Word) : (s.setReg r v).cpu.cyc = s.cpu.cyc := rfl
@[simp] theorem State.setReg_run (s : State) (r : Reg) (v : Word) : (s.setReg r v).cpu.run = s.cpu.run := rfl
@[simp] theorem State.setReg_flight (s : State) (r : Reg) (v : Word) : (s.setReg r v).cpu.flight = s.cpu.flight := rfl
@[simp] theorem State.setReg_others (s : State) (r : Reg) (v : Word) : (s.setReg r v).others = s.others := rfl
@[simp] theorem State.setReg_mem (s : State) (r : Reg) (v : Word) : (s.setReg r v).mem = s.mem := rfl
@[simp] theorem State.setReg_lock (s : State) (r : Reg) (v : Word) : (s.setReg r v).lock = s.lock := rfl
@[simp] theorem State.setReg_outq (s : State) (r : Reg) (v : Word) : (s.setReg r v).outq = s.outq := rfl
@[simp] theorem State.setReg_budget (s : State) (r : Reg) (v : Word) : (s.setReg r v).budget = s.budget := rfl
@[simp] theorem State.setReg_period (s : State) (r : Reg) (v : Word) : (s.setReg r v).period = s.period := rfl
@[simp] theorem State.setReg_opmap (s : State) (r : Reg) (v : Word) : (s.setReg r v).opmap = s.opmap := rfl
@[simp] theorem State.setReg_sched (s : State) (r : Reg) (v : Word) : (s.setReg r v).sched = s.sched := rfl
@[simp] theorem State.setReg_readByte (s : State) (r : Reg) (v : Word) (a : Word) : (s.setReg r v).readByte a = s.readByte a := rfl
@[simp] theorem State.setReg_readWord (s : State) (r : Reg) (v : Word) (a : Word) : (s.setReg r v).readWord a = s.readWord a := rfl

/-! ### setPc -/

@[simp] theorem State.setPc_pc (s : State) (v : Word) : (s.setPc v).cpu.pc = v := rfl
@[simp] theorem State.setPc_st (s : State) (v : Word) : (s.setPc v).cpu.st = s.cpu.st := rfl
@[simp] theorem State.setPc_itr (s : State) (v : Word) : (s.setPc v).cpu.itr = s.cpu.itr := rfl
@[simp] theorem State.setPc_id (s : State) (v : Word) : (s.setPc v).cpu.id = s.cpu.id := rfl
@[simp] theorem State.setPc_cnt (s : State) (v : Word) : (s.setPc v).cpu.cnt = s.cpu.cnt := rfl
@[simp] theorem State.setPc_cyc (s : State) (v : Word) : (s.setPc v).cpu.cyc = s.cpu.cyc := rfl
@[simp] theorem State.setPc_run (s : State) (v : Word) : (s.setPc v).cpu.run = s.cpu.run := rfl
@[simp] theorem State.setPc_flight (s : State) (v : Word) : (s.setPc v).cpu.flight = s.cpu.flight := rfl
@[simp] theorem State.setPc_others (s : State) (v : Word) : (s.setPc v).others = s.others := rfl
@[simp] theorem State.setPc_mem (s : State) (v : Word) : (s.setPc v).mem = s.mem := rfl
@[simp] theorem State.setPc_lock (s : State) (v : Word) : (s.setPc v).lock = s.lock := rfl
@[simp] theorem State.setPc_outq (s : State) (v : Word) : (s.setPc v).outq = s.outq := rfl
@[simp] theorem State.setPc_budget (s : State) (v : Word) : (s.setPc v).budget = s.budget := rfl
@[simp] theorem State.setPc_period (s : State) (v : Word) : (s.setPc v).period = s.period := rfl
@[simp] theorem State.setPc_opmap (s : State) (v : Word) : (s.setPc v).opmap = s.opmap := rfl
@[simp] theorem State.setPc_sched (s : State) (v : Word) : (s.setPc v).sched = s.sched := rfl
@[simp] theorem State.setPc_reg (s : State) (v : Word) (q : Reg) : (s.setPc v).reg q = s.reg q := rfl
@[simp] theorem State.setPc_readByte (s : State) (v : Word) (a : Word) : (s.setPc v).readByte a = s.readByte a := rfl
@[simp] theorem State.setPc_readWord (s : State) (v : Word) (a : Word) : (s.setPc v).readWord a = s.readWord a := rfl

/-! ### setSt -/

@[simp] theorem State.setSt_pc (s : State) (v : Word) : (s.setSt v).cpu.pc = s.cpu.pc := rfl
@[simp] theorem State.setSt_st (s : State) (v : Word) : (s.setSt v).cpu.st = v := rfl
@[simp] theorem State.setSt_itr (s : State) (v : Word) : (s.setSt v).cpu.itr = s.cpu.itr := rfl
@[simp] theorem State.setSt_id (s : State) (v : Word) : (s.setSt v).cpu.id = s.cpu.id := rfl
@[simp] theorem State.setSt_cnt (s : State) (v : Word) : (s.setSt v).cpu.cnt = s.cpu.cnt := rfl
@[simp] theorem State.setSt_cyc (s : State) (v : Word) : (s.setSt v).cpu.cyc = s.cpu.cyc := rfl
@[simp] theorem State.setSt_run (s : State) (v : Word) : (s.setSt v).cpu.run = s.cpu.run := rfl
@[simp] theorem State.setSt_flight (s : State) (v : Word) : (s.setSt v).cpu.flight = s.cpu.flight := rfl
@[simp] theorem State.setSt_others (s : State) (v : Word) : (s.setSt v).others = s.others := rfl
@[simp] theorem State.setSt_mem (s : State) (v : Word) : (s.setSt v).mem = s.mem := rfl
@[simp] theorem State.setSt_lock (s : State) (v : Word) : (s.setSt v).lock = s.lock := rfl
@[simp] theorem State.setSt_outq (s : State) (v : Word) : (s.setSt v).outq = s.outq := rfl
@[simp] theorem State.setSt_budget (s : State) (v : Word) : (s.setSt v).budget = s.budget := rfl
@[simp] theorem State.setSt_period (s : State) (v : Word) : (s.setSt v).period = s.period := rfl
@[simp] theorem State.setSt_opmap (s : State) (v : Word) : (s.setSt v).opmap = s.opmap := rfl
@[simp] theorem State.setSt_sched (s : State) (v : Word) : (s.setSt v).sched = s.sched := rfl
@[simp] theorem State.setSt_reg (s : State) (v : Word) (q : Reg) : (s.setSt v).reg q = s.reg q := rfl
@[simp] theorem State.setSt_readByte (s : State) (v : Word) (a : Word) : (s.setSt v).readByte a = s.readByte a := rfl
@[simp] theorem State.setSt_readWord (s : State) (v : Word) (a : Word) : (s.setSt v).readWord a = s.readWord a := rfl

/-! ### setItr -/

@[simp] theorem State.setItr_pc (s : State) (v : Word) : (s.setItr v).cpu.pc = s.cpu.pc := rfl
@[simp] theorem State.setItr_st (s : State) (v : Word) : (s.setItr v).cpu.st = s.cpu.st := rfl
@[simp] theorem State.setItr_itr (s : State) (v : Word) : (s.setItr v).cpu.itr = v := rfl
@[simp] theorem State.setItr_id (s : State) (v : Word) : (s.setItr v).cpu.id = s.cpu.id := rfl
@[simp] theorem State.setItr_cnt (s : State) (v : Word) : (s.setItr v).cpu.cnt = s.cpu.cnt := rfl
@[simp] theorem State.setItr_cyc (s : State) (v : Word) : (s.setItr v).cpu.cyc = s.cpu.cyc := rfl
@[simp] theorem State.setItr_run (s : State) (v : Word) : (s.setItr v).cpu.run = s.cpu.run := rfl
@[simp] theorem State.setItr_flight (s : State) (v : Word) : (s.setItr v).cpu.flight = s.cpu.flight := rfl
@[simp] theorem State.setItr_others (s : State) (v : Word) : (s.setItr v).others = s.others := rfl
@[simp] theorem State.setItr_mem (s : State) (v : Word) : (s.setItr v).mem = s.mem := rfl
@[simp] theorem State.setItr_lock (s : State) (v : Word) : (s.setItr v).lock = s.lock := rfl
@[simp] theorem State.setItr_outq (s : State) (v : Word) : (s.setItr v).outq = s.outq := rfl
@[simp] theorem State.setItr_budget (s : State) (v : Word) : (s.setItr v).budget = s.budget := rfl
@[simp] theorem State.setItr_period (s : State) (v : Word) : (s.setItr v).period = s.period := rfl
@[simp] theorem State.setItr_opmap (s : State) (v : Word) : (s.setItr v).opmap = s.opmap := rfl
@[simp] theorem State.setItr_sched (s : State) (v : Word) : (s.setItr v).sched = s.sched := rfl
@[simp] theorem State.setItr_reg (s : State) (v : Word) (q : Reg) : (s.setItr v).reg q = s.reg q := rfl
@[simp] theorem State.setItr_readByte (s : State) (v : Word) (a : Word) : (s.setItr v).readByte a = s.readByte a := rfl
@[simp] theorem State.setItr_readWord (s : State) (v : Word) (a : Word) : (s.setItr v).readWord a = s.readWord a := rfl

/-! ### setCyc -/

@[simp] theorem State.setCyc_pc (s : State) (v : Nat) : (s.setCyc v).cpu.pc = s.cpu.pc := rfl
@[simp] theorem State.setCyc_st (s : State) (v : Nat) : (s.setCyc v).cpu.st = s.cpu.st := rfl
@[simp] theorem State.setCyc_itr (s : State) (v : Nat) : (s.setCyc v).cpu.itr = s.cpu.itr := rfl
@[simp] theorem State.setCyc_id (s : State) (v : Nat) : (s.setCyc v).cpu.id = s.cpu.id := rfl
@[simp] theorem State.setCyc_cnt (s : State) (v : Nat) : (s.setCyc v).cpu.cnt = s.cpu.cnt := rfl
@[simp] theorem State.setCyc_cyc (s : State) (v : Nat) : (s.setCyc v).cpu.cyc = v := rfl
@[simp] theorem State.setCyc_run (s : State) (v : Nat) : (s.setCyc v).cpu.run = s.cpu.run := rfl
@[simp] theorem State.setCyc_flight (s : State) (v : Nat) : (s.setCyc v).cpu.flight = s.cpu.flight := rfl
@[simp] theorem State.setCyc_others (s : State) (v : Nat) : (s.setCyc v).others = s.others := rfl
@[simp] theorem State.setCyc_mem (s : State) (v : Nat) : (s.setCyc v).mem = s.mem := rfl
@[simp] theorem State.setCyc_lock (s : State) (v : Nat) : (s.setCyc v).lock = s.lock := rfl
@[simp] theorem State.setCyc_outq (s : State) (v : Nat) : (s.setCyc v).outq = s.outq := rfl
@[simp] theorem State.setCyc_budget (s : State) (v : Nat) : (s.setCyc v).budget = s.budget := rfl
@[simp] theorem State.setCyc_period (s : State) (v : Nat) : (s.setCyc v).period = s.period := rfl
@[simp] theorem State.setCyc_opmap (s : State) (v : Nat) : (s.setCyc v).opmap = s.opmap := rfl
@[simp] theorem State.setCyc_sched (s : State) (v : Nat) : (s.setCyc v).sched = s.sched := rfl
@[simp] theorem State.setCyc_reg (s : State) (v : Nat) (q : Reg) : (s.setCyc v).reg q = s.reg q := rfl
@[simp] theorem State.setCyc_readByte (s : State) (v : Nat) (a : Word) : (s.setCyc v).readByte a = s.readByte a := rfl
@[simp] theorem State.setCyc_readWord (s : State) (v : Nat) (a : Word) : (s.setCyc v).readWord a = s.readWord a := rfl

/-! ### setRun -/

@[simp] theorem State.setRun_pc (s : State) (v : Run) : (s.setRun v).cpu.pc = s.cpu.pc := rfl
@[simp] theorem State.setRun_st (s : State) (v : Run) : (s.setRun v).cpu.st = s.cpu.st := rfl
@[simp] theorem State.setRun_itr (s : State) (v : Run) : (s.setRun v).cpu.itr = s.cpu.itr := rfl
@[simp] theorem State.setRun_id (s : State) (v : Run) : (s.setRun v).cpu.id = s.cpu.id := rfl
@[simp] theorem State.setRun_cnt (s : State) (v : Run) : (s.setRun v).cpu.cnt = s.cpu.cnt := rfl
@[simp] theorem State.setRun_cyc (s : State) (v : Run) : (s.setRun v).cpu.cyc = s.cpu.cyc := rfl
@[simp] theorem State.setRun_run (s : State) (v : Run) : (s.setRun v).cpu.run = v := rfl
@[simp] theorem State.setRun_flight (s : State) (v : Run) : (s.setRun v).cpu.flight = s.cpu.flight := rfl
@[simp] theorem State.setRun_others (s : State) (v : Run) : (s.setRun v).others = s.others := rfl
@[simp] theorem State.setRun_mem (s : State) (v : Run) : (s.setRun v).mem = s.mem := rfl
@[simp] theorem State.setRun_lock (s : State) (v : Run) : (s.setRun v).lock = s.lock := rfl
@[simp] theorem State.setRun_outq (s : State) (v : Run) : (s.setRun v).outq = s.outq := rfl
@[simp] theorem State.setRun_budget (s : State) (v : Run) : (s.setRun v).budget = s.budget := rfl
@[simp] theorem State.setRun_period (s : State) (v : Run) : (s.setRun v).period = s.period := rfl
@[simp] theorem State.setRun_opmap (s : State) (v : Run) : (s.setRun v).opmap = s.opmap := rfl
@[simp] theorem State.setRun_sched (s : State) (v : Run) : (s.setRun v).sched = s.sched := rfl
@[simp] theorem State.setRun_reg (s : State) (v : Run) (q : Reg) : (s.setRun v).reg q = s.reg q := rfl
@[simp] theorem State.setRun_readByte (s : State) (v : Run) (a : Word) : (s.setRun v).readByte a = s.readByte a := rfl
@[simp] theorem State.setRun_readWord (s : State) (v : Run) (a : Word) : (s.setRun v).readWord a = s.readWord a := rfl

/-! ### setFlight -/

@[simp] theorem State.setFlight_pc (s : State) (v : Option Flight) : (s.setFlight v).cpu.pc = s.cpu.pc := rfl
@[simp] theorem State.setFlight_st (s : State) (v : Option Flight) : (s.setFlight v).cpu.st = s.cpu.st := rfl
@[simp] theorem State.setFlight_itr (s : State) (v : Option Flight) : (s.setFlight v).cpu.itr = s.cpu.itr := rfl
@[simp] theorem State.setFlight_id (s : State) (v : Option Flight) : (s.setFlight v).cpu.id = s.cpu.id := rfl
@[simp] theorem State.setFlight_cnt (s : State) (v : Option Flight) : (s.setFlight v).cpu.cnt = s.cpu.cnt := rfl
@[simp] theorem State.setFlight_cyc (s : State) (v : Option Flight) : (s.setFlight v).cpu.cyc = s.cpu.cyc := rfl
@[simp] theorem State.setFlight_run (s : State) (v : Option Flight) : (s.setFlight v).cpu.run = s.cpu.run := rfl
@[simp] theorem State.setFlight_flight (s : State) (v : Option Flight) : (s.setFlight v).cpu.flight = v := rfl
@[simp] theorem State.setFlight_others (s : State) (v : Option Flight) : (s.setFlight v).others = s.others := rfl
@[simp] theorem State.setFlight_mem (s : State) (v : Option Flight) : (s.setFlight v).mem = s.mem := rfl
@[simp] theorem State.setFlight_lock (s : State) (v : Option Flight) : (s.setFlight v).lock = s.lock := rfl
@[simp] theorem State.setFlight_outq (s : State) (v : Option Flight) : (s.setFlight v).outq = s.outq := rfl
@[simp] theorem State.setFlight_budget (s : State) (v : Option Flight) : (s.setFlight v).budget = s.budget := rfl
@[simp] theorem State.setFlight_period (s : State) (v : Option Flight) : (s.setFlight v).period = s.period := rfl
@[simp] theorem State.setFlight_opmap (s : State) (v : Option Flight) : (s.setFlight v).opmap = s.opmap := rfl
@[simp] theorem State.setFlight_sched (s : State) (v : Option Flight) : (s.setFlight v).sched = s.sched := rfl
@[simp] theorem State.setFlight_reg (s : State) (v : Option Flight) (q : Reg) : (s.setFlight v).reg q = s.reg q := rfl
@[simp] theorem State.setFlight_readByte (s : State) (v : Option Flight) (a : Word) : (s.setFlight v).readByte a = s.readByte a := rfl
@[simp] theorem State.setFlight_readWord (s : State) (v : Option Flight) (a : Word) : (s.setFlight v).readWord a = s.readWord a := rfl

/-! ### setMem -/

@[simp] theorem State.setMem_cpu (s : State) (v : Memory) : (s.setMem v).cpu = s.cpu := rfl
@[simp] theorem State.setMem_others (s : State) (v : Memory) : (s.setMem v).others = s.others := rfl
@[simp] theorem State.setMem_mem (s : State) (v : Memory) : (s.setMem v).mem = v := rfl
@[simp] theorem State.setMem_lock (s : State) (v : Memory) : (s.setMem v).lock = s.lock := rfl
@[simp] theorem State.setMem_outq (s : State) (v : Memory) : (s.setMem v).outq = s.outq := rfl
@[simp] theorem State.setMem_budget (s : State) (v : Memory) : (s.setMem v).budget = s.budget := rfl
@[simp] theorem State.setMem_period (s : State) (v : Memory) : (s.setMem v).period = s.period := rfl
@[simp] theorem State.setMem_opmap (s : State) (v : Memory) : (s.setMem v).opmap = s.opmap := rfl
@[simp] theorem State.setMem_sched (s : State) (v : Memory) : (s.setMem v).sched = s.sched := rfl
@[simp] theorem State.setMem_reg (s : State) (v : Memory) (q : Reg) : (s.setMem v).reg q = s.reg q := rfl

/-! ### setLock -/

@[simp] theorem State.setLock_cpu (s : State) (v : Option Word) : (s.setLock v).cpu = s.cpu := rfl
@[simp] theorem State.setLock_others (s : State) (v : Option Word) : (s.setLock v).others = s.others := rfl
@[simp] theorem State.setLock_mem (s : State) (v : Option Word) : (s.setLock v).mem = s.mem := rfl
@[simp] theorem State.setLock_lock (s : State) (v : Option Word) : (s.setLock v).lock = v := rfl
@[simp] theorem State.setLock_outq (s : State) (v : Option Word) : (s.setLock v).outq = s.outq := rfl
@[simp] theorem State.setLock_budget (s : State) (v : Option Word) : (s.setLock v).budget = s.budget := rfl
@[simp] theorem State.setLock_period (s : State) (v : Option Word) : (s.setLock v).period = s.period := rfl
@[simp] theorem State.setLock_opmap (s : State) (v : Option Word) : (s.setLock v).opmap = s.opmap := rfl
@[simp] theorem State.setLock_sched (s : State) (v : Option Word) : (s.setLock v).sched = s.sched := rfl
@[simp] theorem State.setLock_reg (s : State) (v : Option Word) (q : Reg) : (s.setLock v).reg q = s.reg q := rfl
@[simp] theorem State.setLock_readByte (s : State) (v : Option Word) (a : Word) : (s.setLock v).readByte a = s.readByte a := rfl
@[simp] theorem State.setLock_readWord (s : State) (v : Option Word) (a : Word) : (s.setLock v).readWord a = s.readWord a := rfl

/-! ### setSched -/

@[simp] theorem State.setSched_cpu (s : State) (v : List Turn) : (s.setSched v).cpu = s.cpu := rfl
@[simp] theorem State.setSched_others (s : State) (v : List Turn) : (s.setSched v).others = s.others := rfl
@[simp] theorem State.setSched_mem (s : State) (v : List Turn) : (s.setSched v).mem = s.mem := rfl
@[simp] theorem State.setSched_lock (s : State) (v : List Turn) : (s.setSched v).lock = s.lock := rfl
@[simp] theorem State.setSched_outq (s : State) (v : List Turn) : (s.setSched v).outq = s.outq := rfl
@[simp] theorem State.setSched_budget (s : State) (v : List Turn) : (s.setSched v).budget = s.budget := rfl
@[simp] theorem State.setSched_period (s : State) (v : List Turn) : (s.setSched v).period = s.period := rfl
@[simp] theorem State.setSched_opmap (s : State) (v : List Turn) : (s.setSched v).opmap = s.opmap := rfl
@[simp] theorem State.setSched_sched (s : State) (v : List Turn) : (s.setSched v).sched = v := rfl
@[simp] theorem State.setSched_reg (s : State) (v : List Turn) (q : Reg) : (s.setSched v).reg q = s.reg q := rfl
@[simp] theorem State.setSched_readByte (s : State) (v : List Turn) (a : Word) : (s.setSched v).readByte a = s.readByte a := rfl
@[simp] theorem State.setSched_readWord (s : State) (v : List Turn) (a : Word) : (s.setSched v).readWord a = s.readWord a := rfl

/-! ### emit -/

@[simp] theorem State.emit_cpu (s : State) (b : Byte) : (s.emit b).cpu = s.cpu := rfl
@[simp] theorem State.emit_others (s : State) (b : Byte) : (s.emit b).others = s.others := rfl
@[simp] theorem State.emit_mem (s : State) (b : Byte) : (s.emit b).mem = s.mem := rfl
@[simp] theorem State.emit_lock (s : State) (b : Byte) : (s.emit b).lock = s.lock := rfl
@[simp] theorem State.emit_outq (s : State) (b : Byte) : (s.emit b).outq = s.outq ++ [b] := rfl
@[simp] theorem State.emit_budget (s : State) (b : Byte) : (s.emit b).budget = s.budget := rfl
@[simp] theorem State.emit_period (s : State) (b : Byte) : (s.emit b).period = s.period := rfl
@[simp] theorem State.emit_opmap (s : State) (b : Byte) : (s.emit b).opmap = s.opmap := rfl
@[simp] theorem State.emit_sched (s : State) (b : Byte) : (s.emit b).sched = s.sched := rfl
@[simp] theorem State.emit_reg (s : State) (b : Byte) (q : Reg) : (s.emit b).reg q = s.reg q := rfl
@[simp] theorem State.emit_readByte (s : State) (b : Byte) (a : Word) : (s.emit b).readByte a = s.readByte a := rfl
@[simp] theorem State.emit_readWord (s : State) (b : Byte) (a : Word) : (s.emit b).readWord a = s.readWord a := rfl

/-! ### writeByte -/

@[simp] theorem State.writeByte_cpu (s : State) (x : Word) (b : Byte) : (s.writeByte x b).cpu = s.cpu := rfl
@[simp] theorem State.writeByte_others (s : State) (x : Word) (b : Byte) : (s.writeByte x b).others = s.others := rfl
@[simp] theorem State.writeByte_mem (s : State) (x : Word) (b : Byte) : (s.writeByte x b).mem = s.mem.write x.toNat b := rfl
@[simp] theorem State.writeByte_lock (s : State) (x : Word) (b : Byte) : (s.writeByte x b).lock = s.lock := rfl
@[simp] theorem State.writeByte_outq (s : State) (x : Word) (b : Byte) : (s.writeByte x b).outq = s.outq := rfl
@[simp] theorem State.writeByte_budget (s : State) (x : Word) (b : Byte) : (s.writeByte x b).budget = s.budget := rfl
@[simp] theorem State.writeByte_period (s : State) (x : Word) (b : Byte) : (s.writeByte x b).period = s.period := rfl
@[simp] theorem State.writeByte_opmap (s : State) (x : Word) (b : Byte) : (s.writeByte x b).opmap = s.opmap := rfl
@[simp] theorem State.writeByte_sched (s : State) (x : Word) (b : Byte) : (s.writeByte x b).sched = s.sched := rfl
@[simp] theorem State.writeByte_reg (s : State) (x : Word) (b : Byte) (q : Reg) : (s.writeByte x b).reg q = s.reg q := rfl

/-! ### writeWord -/

@[simp] theorem State.writeWord_cpu (s : State) (x : Word) (v : Word) : (s.writeWord x v).cpu = s.cpu := rfl
@[simp] theorem State.writeWord_others (s : State) (x : Word) (v : Word) : (s.writeWord x v).others = s.others := rfl
@[simp] theorem State.writeWord_lock (s : State) (x : Word) (v : Word) : (s.writeWord x v).lock = s.lock := rfl
@[simp] theorem State.writeWord_outq (s : State) (x : Word) (v : Word) : (s.writeWord x v).outq = s.outq := rfl
@[simp] theorem State.writeWord_budget (s : State) (x : Word) (v : Word) : (s.writeWord x v).budget = s.budget := rfl
@[simp] theorem State.writeWord_period (s : State) (x : Word) (v : Word) : (s.writeWord x v).period = s.period := rfl
@[simp] theorem State.writeWord_opmap (s : State) (x : Word) (v : Word) : (s.writeWord x v).opmap = s.opmap := rfl
@[simp] theorem State.writeWord_sched (s : State) (x : Word) (v : Word) : (s.writeWord x v).sched = s.sched := rfl
@[simp] theorem State.writeWord_reg (s : State) (x : Word) (v : Word) (q : Reg) : (s.writeWord x v).reg q = s.reg q := rfl

/-! ### Registers -/

/-- A register reads what was last written to it; no register is hard-wired (R20). -/
@[simp] theorem State.reg_setReg (s : State) (r q : Reg) (v : Word) :
    (s.setReg r v).reg q = if r = q then v else s.reg q := by
  simp [State.reg, State.setReg, Context.reg, Vector.getElem_set, Fin.val_inj]

theorem State.reg_setReg_same (s : State) (r : Reg) (v : Word) : (s.setReg r v).reg r = v := by simp

theorem State.reg_setReg_other (s : State) {r q : Reg} (h : r ≠ q) (v : Word) : (s.setReg r v).reg q = s.reg q := by
  simp [h]

/-- Writing a register twice keeps the later value. -/
@[simp] theorem State.setReg_setReg (s : State) (r : Reg) (v w : Word) :
    (s.setReg r v).setReg r w = s.setReg r w := by
  simp [State.setReg]

end Sys2Proof.Machine
end

