-- ==== Sys2Proof/Laws/Memory.lean ====
section
/-! SUPPORT. The laws of memory: what a read gives after a write, and that every memory operation keeps the canonical
form. -/

namespace Sys2Proof.Machine

/-! ## Lists of cells -/

theorem Memory.read_remove (m : Memory) (a x : Nat) :
    (m.remove a).read x = if x = a then unlisted else m.read x := by
  induction m with
  | nil => simp [Memory.remove, Memory.read]
  | cons c m ih =>
    obtain ⟨k, b⟩ := c
    by_cases hk : k = a
    · subst hk
      by_cases hx : x = k
      · subst hx; simpa [Memory.remove, Memory.read] using ih
      · simpa [Memory.remove, Memory.read, hx] using ih
    · by_cases hx : x = k
      · subst hx; simp [Memory.remove, Memory.read, hk]
      · simpa [Memory.remove, Memory.read, hx, hk] using ih

theorem Memory.read_place (m : Memory) (a x : Nat) (b : Byte) (h : ∀ c ∈ m, c.1 ≠ a) :
    (m.place a b).read x = if x = a then b else m.read x := by
  induction m with
  | nil => simp [Memory.place, Memory.read]
  | cons c m ih =>
    obtain ⟨k, d⟩ := c
    have hk : k ≠ a := h (k, d) (by simp)
    have ih := ih fun c hc => h c (by simp [hc])
    by_cases hlt : a < k
    · simp [Memory.place, Memory.read, hlt]
    · by_cases hx : x = k
      · subst hx; simp [Memory.place, Memory.read, hlt, hk]
      · simp [Memory.place, Memory.read, hlt, hx, ih]

theorem Memory.not_mem_remove (m : Memory) (a : Nat) : ∀ c ∈ m.remove a, c.1 ≠ a := by
  simp [Memory.remove]

/-- The one law of reading after writing; it needs no canonical form. -/
@[simp] theorem Memory.read_write (m : Memory) (a x : Nat) (b : Byte) :
    (m.write a b).read x = if x = a then b else m.read x := by
  by_cases hb : b = unlisted
  · simp [Memory.write, hb, Memory.read_remove]
  · rw [Memory.write, if_neg hb, Memory.read_place _ _ _ _ (m.not_mem_remove a), Memory.read_remove]
    by_cases hx : x = a <;> simp [hx]

theorem Memory.mem_place (m : Memory) (a : Nat) (b : Byte) (c : Host.Cell) :
    c ∈ m.place a b ↔ c = (a, b) ∨ c ∈ m := by
  induction m with
  | nil => simp [Memory.place]
  | cons d m ih =>
    by_cases h : a < d.1 <;> simp [Memory.place, h, ih, or_left_comm]

theorem Memory.wf_remove {m : Memory} (h : m.wf) (a : Nat) : (m.remove a).wf :=
  ⟨h.1.filter _, fun c hc => h.2 c (List.mem_filter.1 hc).1⟩

theorem Memory.pairwise_place (m : Memory) (a : Nat) (b : Byte) (hs : m.Pairwise (fun x y => x.1 < y.1))
    (hne : ∀ c ∈ m, c.1 ≠ a) : (m.place a b).Pairwise (fun x y => x.1 < y.1) := by
  induction m with
  | nil => simp [Memory.place]
  | cons d m ih =>
    obtain ⟨hd, hm⟩ := List.pairwise_cons.1 hs
    by_cases h : a < d.1
    · simp only [Memory.place, h, if_true]
      refine List.pairwise_cons.2 ⟨fun c hc => ?_, hs⟩
      rcases List.mem_cons.1 hc with rfl | hc
      · exact h
      · exact h.trans (hd c hc)
    · simp only [Memory.place, h, if_false]
      refine List.pairwise_cons.2 ⟨fun c hc => ?_, ih hm fun c hc => hne c (by simp [hc])⟩
      have hda : d.1 ≠ a := hne d (by simp)
      rcases (Memory.mem_place m a b c).1 hc with rfl | hc
      · exact (by omega : d.1 < a)
      · exact hd c hc

theorem Memory.wf_place {m : Memory} (h : m.wf) {a : Nat} {b : Byte} (ha : a < Config.memSize) (hb : b ≠ unlisted)
    (hne : ∀ c ∈ m, c.1 ≠ a) : (m.place a b).wf :=
  ⟨m.pairwise_place a b h.1 hne, fun c hc => by
    rcases (Memory.mem_place m a b c).1 hc with rfl | hc
    · exact ⟨ha, hb⟩
    · exact h.2 c hc⟩

/-- A write keeps the canonical form. -/
theorem Memory.wf_write {m : Memory} (h : m.wf) {a : Nat} (ha : a < Config.memSize) (b : Byte) : (m.write a b).wf := by
  by_cases hb : b = unlisted
  · simpa [Memory.write, hb] using Memory.wf_remove h a
  · simpa [Memory.write, hb] using Memory.wf_place (Memory.wf_remove h a) ha hb (m.not_mem_remove a)

theorem Memory.wf_nil : Memory.wf [] := by simp [Memory.wf]

/-- Two canonical memories that read the same everywhere are the same list. -/
theorem Memory.ext_of_wf {m n : Memory} (hm : m.wf) (hn : n.wf) (h : ∀ a, m.read a = n.read a) : m = n := by
  induction m generalizing n with
  | nil =>
    cases n with
    | nil => rfl
    | cons d n =>
      have h1 := h d.1
      have h2 := (hn.2 d (by simp)).2
      simp [Memory.read] at h1
      exact absurd h1.symm h2
  | cons c m ih =>
    have hcm := List.pairwise_cons.1 hm.1
    have below : ∀ (l : Memory) (a : Nat), (∀ e ∈ l, a < e.1) → l.read a = unlisted := by
      intro l a hl
      induction l with
      | nil => rfl
      | cons e l ihl =>
        have he := hl e (by simp)
        simp only [Memory.read, Nat.ne_of_lt he, if_false]
        exact ihl fun e he => hl e (by simp [he])
    cases n with
    | nil =>
      have h1 := h c.1
      simp [Memory.read] at h1
      exact absurd h1 (hm.2 c (by simp)).2
    | cons d n =>
      have hdn := List.pairwise_cons.1 hn.1
      have hkey : c.1 = d.1 := by
        rcases Nat.lt_trichotomy c.1 d.1 with hlt | heq | hgt
        · have h1 := h c.1
          rw [below (d :: n) c.1 (by
            intro e he
            rcases List.mem_cons.1 he with rfl | he
            · exact hlt
            · exact hlt.trans (hdn.1 e he))] at h1
          simp [Memory.read] at h1
          exact absurd h1 (hm.2 c (by simp)).2
        · exact heq
        · have h1 := h d.1
          rw [below (c :: m) d.1 (by
            intro e he
            rcases List.mem_cons.1 he with rfl | he
            · exact hgt
            · exact hgt.trans (hcm.1 e he))] at h1
          simp [Memory.read] at h1
          exact absurd h1.symm (hn.2 d (by simp)).2
      have hval : c.2 = d.2 := by
        have h1 := h c.1
        simpa [Memory.read, hkey] using h1
      have hcd : c = d := Prod.ext hkey hval
      subst hcd
      refine congrArg (c :: ·) (ih ⟨hcm.2, fun e he => hm.2 e (by simp [he])⟩ ⟨hdn.2, fun e he => hn.2 e (by simp [he])⟩ ?_)
      intro a
      by_cases ha : a = c.1
      · subst ha
        rw [below m c.1 hcm.1, below n c.1 hdn.1]
      · have h1 := h a
        simpa [Memory.read, ha] using h1

/-! ## Bytes and words of the state -/

@[simp] theorem hiByte_joinBytes (hi lo : Byte) : hiByte (joinBytes hi lo) = hi := by
  apply BitVec.eq_of_getLsbD_eq
  intro i hi'
  simp only [hiByte, joinBytes, BitVec.getLsbD_extractLsb', BitVec.getLsbD_append]
  simp [hi', show ¬ 8 + i < 8 by omega]

@[simp] theorem loByte_joinBytes (hi lo : Byte) : loByte (joinBytes hi lo) = lo := by
  apply BitVec.eq_of_getLsbD_eq
  intro i hi'
  simp only [loByte, joinBytes, BitVec.getLsbD_extractLsb', BitVec.getLsbD_append]
  simp [hi']

@[simp] theorem joinBytes_hiByte_loByte (w : Word) : joinBytes (hiByte w) (loByte w) = w := by
  apply BitVec.eq_of_getLsbD_eq
  intro i hi'
  simp only [hiByte, loByte, joinBytes, BitVec.getLsbD_extractLsb', BitVec.getLsbD_append]
  by_cases h : i < 8
  · simp [h]
  · simp [h, show i - 8 < 8 by omega, show 8 + (i - 8) = i by omega]

theorem Word.succ_ne (a : Word) : a + 1 ≠ a := by
  intro h
  have := congrArg BitVec.toNat h
  simp [BitVec.toNat_add] at this
  omega

@[simp] theorem State.readByte_writeByte (s : State) (a x : Word) (b : Byte) :
    (s.writeByte a b).readByte x = if x = a then b else s.readByte x := by
  simp [State.readByte, BitVec.toNat_inj]

/-- A byte after a word write: the high byte at the address, the low byte at the next, else as before (R52, R53). -/
theorem State.readByte_writeWord (s : State) (a x v : Word) :
    (s.writeWord a v).readByte x =
      if x = a + 1 then loByte v else if x = a then hiByte v else s.readByte x := by
  simp [State.writeWord]

/-- A word reads back (R52). -/
@[simp] theorem State.readWord_writeWord (s : State) (a v : Word) : (s.writeWord a v).readWord a = v := by
  simp [State.readWord, State.readByte_writeWord]

/-- A word elsewhere is untouched. -/
theorem State.readWord_writeWord_other (s : State) (a x v : Word)
    (h : x ≠ a ∧ x ≠ a + 1 ∧ x + 1 ≠ a) : (s.writeWord a v).readWord x = s.readWord x := by
  have h2 : x + 1 ≠ a + 1 := fun e => h.1 (by simpa using e)
  simp only [State.readWord, State.readByte_writeWord, if_neg h.1, if_neg h.2.1, if_neg h.2.2, if_neg h2]

theorem State.wf_writeByte {s : State} (h : s.mem.wf) (a : Word) (b : Byte) : (s.writeByte a b).mem.wf := by
  rw [State.writeByte_mem]
  exact Memory.wf_write h a.isLt b

theorem State.wf_writeWord {s : State} (h : s.mem.wf) (a v : Word) : (s.writeWord a v).mem.wf :=
  State.wf_writeByte (State.wf_writeByte h _ _) _ _

theorem State.wf_push {s : State} (h : s.mem.wf) (v : Word) : (s.push v).mem.wf :=
  State.wf_writeWord (s := s.setReg Reg.sp s.pushAddr) h _ _

theorem State.wf_writeBytes {s : State} (h : s.mem.wf) (a : Word) (bs : List Byte) : (s.writeBytes a bs).mem.wf := by
  induction bs generalizing s a with
  | nil => exact h
  | cons b bs ih => exact ih (State.wf_writeByte h a b) (a + 1)

end Sys2Proof.Machine
end

