-- ==== Sys2Proof/Laws/Ops.lean ====
section
/-! SUPPORT. For each shared operation, everything it can do, said once: the stack, the flags, taking an exception, waiting
for LOCK. -/

namespace Sys2Proof.Machine

/-! ## The stack (R24) -/

@[simp] theorem State.push_others (s : State) (v : Word) : (s.push v).others = s.others := rfl
@[simp] theorem State.push_lock (s : State) (v : Word) : (s.push v).lock = s.lock := rfl
@[simp] theorem State.push_outq (s : State) (v : Word) : (s.push v).outq = s.outq := rfl
@[simp] theorem State.push_budget (s : State) (v : Word) : (s.push v).budget = s.budget := rfl
@[simp] theorem State.push_period (s : State) (v : Word) : (s.push v).period = s.period := rfl
@[simp] theorem State.push_opmap (s : State) (v : Word) : (s.push v).opmap = s.opmap := rfl
@[simp] theorem State.push_sched (s : State) (v : Word) : (s.push v).sched = s.sched := rfl
@[simp] theorem State.push_pc (s : State) (v : Word) : (s.push v).cpu.pc = s.cpu.pc := rfl
@[simp] theorem State.push_st (s : State) (v : Word) : (s.push v).cpu.st = s.cpu.st := rfl
@[simp] theorem State.push_itr (s : State) (v : Word) : (s.push v).cpu.itr = s.cpu.itr := rfl
@[simp] theorem State.push_id (s : State) (v : Word) : (s.push v).cpu.id = s.cpu.id := rfl
@[simp] theorem State.push_cnt (s : State) (v : Word) : (s.push v).cpu.cnt = s.cpu.cnt := rfl
@[simp] theorem State.push_cyc (s : State) (v : Word) : (s.push v).cpu.cyc = s.cpu.cyc := rfl
@[simp] theorem State.push_run (s : State) (v : Word) : (s.push v).cpu.run = s.cpu.run := rfl
@[simp] theorem State.push_flight (s : State) (v : Word) : (s.push v).cpu.flight = s.cpu.flight := rfl

@[simp] theorem State.push_reg (s : State) (v : Word) (q : Reg) :
    (s.push v).reg q = if Reg.sp = q then s.reg Reg.sp - 2 else s.reg q := by
  simp [State.push, State.pushAddr]

/-- A push stores its word, high byte first, below the old stack pointer, and no other byte. -/
theorem State.readByte_push (s : State) (v x : Word) :
    (s.push v).readByte x =
      if x = s.pushAddr + 1 then loByte v else if x = s.pushAddr then hiByte v else s.readByte x := by
  simp [State.push, State.readByte_writeWord]

/-- What was pushed is on top of the stack. -/
@[simp] theorem State.top_push (s : State) (v : Word) : (s.push v).top = v := by
  simp only [State.top, State.push_reg, if_true]
  exact State.readWord_writeWord _ _ _

@[simp] theorem State.dropTop_reg (s : State) (q : Reg) :
    s.dropTop.reg q = if Reg.sp = q then s.reg Reg.sp + 2 else s.reg q := by
  simp [State.dropTop]

/-! ## Flags (R28, R29) -/

@[simp] theorem flagC_assignC (st : Word) (c : Bool) : flagC (assignC st c) = c := by
  cases c <;> simp [flagC, assignC]

/-- Assigning C leaves every other bit of `st`. -/
theorem getLsbD_assignC (st : Word) (c : Bool) {k : Nat} (hk : k ≠ 0) :
    (assignC st c).getLsbD k = st.getLsbD k := by
  by_cases h : k < 16
  · obtain ⟨k, rfl⟩ : ∃ j : Fin 16, j.val = k := ⟨⟨k, h⟩, rfl⟩
    rw [assignC, BitVec.getLsbD_or, BitVec.getLsbD_and]
    have hm : ∀ j : Fin 16, j.val ≠ 0 → (0xFFFE#16).getLsbD j.val = true ∧
        ∀ c : Bool, (if c then 0x0001#16 else 0x0000#16).getLsbD j.val = false := by decide
    rw [(hm k hk).1, (hm k hk).2 c, Bool.and_true, Bool.or_false]
  · rw [BitVec.getLsbD_of_ge _ _ (by omega), BitVec.getLsbD_of_ge _ _ (by omega)]

@[simp] theorem flagX_setX (st : Word) : flagX (setX st) = true := by simp [flagX, setX]

@[simp] theorem flagX_clearX (st : Word) : flagX (clearX st) = false := by simp [flagX, clearX]

/-! ## Exceptions (R204, R205) -/

/-- `Raise` fails exactly in-exception, without a table, or out of range. -/
theorem State.raise_eq_none_iff (s : State) (kind : Nat) :
    s.raise kind = none ↔ flagX s.cpu.st = true ∨ s.cpu.itr = 0 ∨ kind > 2 := by
  unfold State.raise
  split <;> [simp [*]; skip]
  split <;> [simp [*]; skip]
  split <;> simp_all

/-- Everything a successful `Raise` does. -/
theorem State.raise_eq_some {s t : State} {kind : Nat} (h : s.raise kind = some t) :
    (flagX s.cpu.st = false ∧ s.cpu.itr ≠ 0 ∧ kind ≤ 2) ∧
      t = (((s.push s.cpu.st).push s.cpu.pc).setSt (setX s.cpu.st)).setPc
        (((s.push s.cpu.st).push s.cpu.pc).readWord (vectorAddr s.cpu.itr kind)) := by
  unfold State.raise at h
  split at h <;> [simp at h; skip]
  split at h <;> [simp at h; skip]
  split at h <;> [simp at h; skip]
  simp only [Option.some.injEq] at h
  exact ⟨⟨by simp_all, by assumption, by omega⟩, h.symm⟩

/-- When `Raise` succeeds. -/
theorem State.raise_isSome {s : State} {kind : Nat} (h : s.cpu.accepts = true) (hk : kind ≤ 2) :
    ∃ t, s.raise kind = some t := by
  cases hr : s.raise kind with
  | some t => exact ⟨t, rfl⟩
  | none =>
    simp only [Context.accepts, Bool.and_eq_true, Bool.not_eq_true', bne_iff_ne, ne_eq] at h
    rcases (s.raise_eq_none_iff kind).1 hr with h1 | h1 | h1
    · simp [h.1] at h1
    · exact absurd h1 h.2
    · omega

/-! ## LOCK (R62) -/

theorem State.withLock_free {s : State} (h : s.lock = none) (i : Instr) (body : State → State) :
    s.withLock i body = body s := by
  simp [State.withLock, h]

theorem State.withLock_held {s : State} {k : Word} (h : s.lock = some k) (i : Instr) (body : State → State) :
    s.withLock i body = s.enterHandler i := by
  simp [State.withLock, h]

end Sys2Proof.Machine
end

