-- ==== Sys2Proof/Laws/Exec.lean ====
section
/-! SUPPORT. Everything an instruction can do to the state outside its result, said once for all instructions: what it keeps, how
the output, RUNNING and the cycle in progress can change, and that it keeps memory canonical. Later proofs cite these lemmas
instead of unfolding `exec`. -/

namespace Sys2Proof.Machine

/-- What a step of one context keeps: the other contexts, the schedule, the parameters, and its own id, count and cycle count. -/
structure Kept (s t : State) : Prop where
  others : t.others = s.others
  budget : t.budget = s.budget
  period : t.period = s.period
  opmap : t.opmap = s.opmap
  sched : t.sched = s.sched
  id : t.cpu.id = s.cpu.id
  cnt : t.cpu.cnt = s.cpu.cnt
  cyc : t.cpu.cyc = s.cpu.cyc

theorem Kept.refl (s : State) : Kept s s := ⟨rfl, rfl, rfl, rfl, rfl, rfl, rfl, rfl⟩

theorem Kept.trans {s t u : State} (h : Kept s t) (k : Kept t u) : Kept s u :=
  ⟨k.others.trans h.others, k.budget.trans h.budget, k.period.trans h.period, k.opmap.trans h.opmap, k.sched.trans h.sched, k.id.trans h.id,
    k.cnt.trans h.cnt, k.cyc.trans h.cyc⟩

/-- The ways an instruction can change what is not its result. -/
structure ExecEffect (i : Instr) (s t : State) : Prop where
  kept : Kept s t
  lock : t.lock = s.lock
  outq : t.outq = s.outq ∨ ∃ b, t.outq = s.outq ++ [b]
  run : t.cpu.run = s.cpu.run ∨ t.cpu.run = .stopped .arith
  flight : t.cpu.flight = s.cpu.flight ∨ (s.lock ≠ none ∧ t = s.enterHandler i ∧ ∃ body, plan s.cpu i = lockedPlan body)
  mem : s.mem.wf → t.mem.wf

/-- An update that touches at most registers, `pc`, `st`, `itr` and keeps memory canonical is such an effect. -/
theorem ExecEffect.quiet {i : Instr} {s t : State} (kept : Kept s t) (lock : t.lock = s.lock) (outq : t.outq = s.outq)
    (run : t.cpu.run = s.cpu.run) (flight : t.cpu.flight = s.cpu.flight) (mem : s.mem.wf → t.mem.wf) :
    ExecEffect i s t :=
  ⟨kept, lock, .inl outq, .inl run, .inl flight, mem⟩

theorem ExecEffect.raise {i : Instr} {s t : State} {kind : Nat} (h : s.raise kind = some t) : ExecEffect i s t := by
  obtain ⟨-, rfl⟩ := State.raise_eq_some h
  exact .quiet ⟨rfl, rfl, rfl, rfl, rfl, rfl, rfl, rfl⟩ rfl rfl rfl rfl fun h => State.wf_push (State.wf_push h _) _

/-- An atomic either runs its body with LOCK free, or waits. -/
theorem ExecEffect.withLock {i : Instr} {s : State} {body : State → State} (hbody : ExecEffect i s (body s))
    (hplan : ∃ b, plan s.cpu i = lockedPlan b) : ExecEffect i s (s.withLock i body) := by
  cases hl : s.lock with
  | none => rw [State.withLock_free hl]; exact hbody
  | some k =>
    rw [State.withLock_held hl]
    exact ⟨⟨rfl, rfl, rfl, rfl, rfl, rfl, rfl, rfl⟩, rfl, .inl rfl, .inl rfl, .inr ⟨by simp [hl], rfl, hplan⟩, id⟩

/-- Everything `exec` can do outside the result of the instruction. -/
theorem exec_effect {i : Instr} {s t : State} (h : exec i s = .next t) : ExecEffect i s t := by
  have stay : ∀ u : State, Kept s u → u.lock = s.lock → u.outq = s.outq → u.cpu.run = s.cpu.run →
      u.cpu.flight = s.cpu.flight → u.mem = s.mem → ExecEffect i s u :=
    fun u k l o r f m => .quiet k l o r f fun hw => by rw [m]; exact hw
  cases i
  case trap =>
    simp only [exec, execTrap] at h
    split at h <;> cases h
    case h_1 hr => exact .raise hr
    case h_2 => exact stay _ (Kept.refl _) rfl rfl rfl rfl rfl
  case div ra rb =>
    simp only [exec, execDiv] at h
    split at h
    · split at h <;> cases h
      case h_1 hr => exact .raise hr
      case h_2 => exact ⟨⟨rfl, rfl, rfl, rfl, rfl, rfl, rfl, rfl⟩, rfl, .inl rfl, .inr rfl, .inl rfl, id⟩
    · cases h; exact stay _ ⟨rfl, rfl, rfl, rfl, rfl, rfl, rfl, rfl⟩ rfl rfl rfl rfl rfl
  case out ra => cases h; exact ⟨⟨rfl, rfl, rfl, rfl, rfl, rfl, rfl, rfl⟩, rfl, .inr ⟨_, rfl⟩, .inl rfl, .inl rfl, id⟩
  case br off =>
    cases h
    by_cases hc : flagC s.cpu.st = true
    · rw [if_pos hc]; exact stay _ ⟨rfl, rfl, rfl, rfl, rfl, rfl, rfl, rfl⟩ rfl rfl rfl rfl rfl
    · rw [if_neg hc]; exact stay _ (Kept.refl _) rfl rfl rfl rfl rfl
  case push ra =>
    cases h
    exact .quiet ⟨rfl, rfl, rfl, rfl, rfl, rfl, rfl, rfl⟩ rfl rfl rfl rfl fun hw => State.wf_push hw _
  case callr ra =>
    cases h
    exact .quiet ⟨rfl, rfl, rfl, rfl, rfl, rfl, rfl, rfl⟩ rfl rfl rfl rfl fun hw => State.wf_push hw _
  case call addr =>
    cases h
    exact .quiet ⟨rfl, rfl, rfl, rfl, rfl, rfl, rfl, rfl⟩ rfl rfl rfl rfl fun hw => State.wf_push hw _
  case stor ra rb =>
    cases h
    exact .quiet ⟨rfl, rfl, rfl, rfl, rfl, rfl, rfl, rfl⟩ rfl rfl rfl rfl fun hw => State.wf_writeWord hw _ _
  case storb ra rb =>
    cases h
    exact .quiet ⟨rfl, rfl, rfl, rfl, rfl, rfl, rfl, rfl⟩ rfl rfl rfl rfl fun hw => State.wf_writeByte hw _ _
  case loada ra rb =>
    cases h
    exact .withLock (stay _ ⟨rfl, rfl, rfl, rfl, rfl, rfl, rfl, rfl⟩ rfl rfl rfl rfl rfl) ⟨_, rfl⟩
  case stora ra rb =>
    cases h
    exact .withLock (.quiet ⟨rfl, rfl, rfl, rfl, rfl, rfl, rfl, rfl⟩ rfl rfl rfl rfl fun hw => State.wf_writeWord hw _ _) ⟨_, rfl⟩
  case tnset ra rb =>
    cases h
    exact .withLock (.quiet ⟨rfl, rfl, rfl, rfl, rfl, rfl, rfl, rfl⟩ rfl rfl rfl rfl
      fun hw => State.wf_writeByte (s := s.writeByte (s.reg ra) 0x00) (State.wf_writeByte hw _ _) (s.reg ra + 1) 0x01) ⟨_, rfl⟩
  all_goals
    cases h
    exact stay _ ⟨rfl, rfl, rfl, rfl, rfl, rfl, rfl, rfl⟩ rfl rfl rfl rfl rfl

/-- With LOCK free, or for an instruction that is no atomic, the handler is over when `exec` answers. -/
theorem exec_flight {i : Instr} {s t : State} (h : exec i s = .next t) (hl : s.lock = none) :
    t.cpu.flight = s.cpu.flight :=
  (exec_effect h).flight.resolve_right fun hw => hw.1 hl

end Sys2Proof.Machine
end

