-- ==== Sys2Proof/Laws/PerInstr.lean ====
section
/-! SUPPORT. Statements made per instruction, with every legal opcode table: the first byte of an instruction's encoding is its
opcode, which the table gives that instruction and no other, and its length in bytes is 4 for the extended formats and 2 for
the others (30_encoding.md R80, R81, R90, R92). -/

namespace Sys2Proof.Laws

theorem encodeBytesWith_head? (m : OpMap) (i : Instr) : (encodeBytesWith m i).head? = some (i.opcodeIn m) := by
  simp [encodeBytesWith, encodeWith, wordBytes]

/-- Length in bytes by head (R80, R81). -/
def lengthOf : Head → Nat
  | .unmapped _ => 2
  | .defined o => if o.format.hasTrailingWord then 4 else 2

/-- The opcode comes first and is the instruction's own in the table, and the length is that of the format. -/
def EncodesItsOpcode.Statement (i : Instr) : Prop :=
  ∀ m : OpMap, m.legal = true → i.wellFormedIn m = true →
    (encodeBytesWith m i).head? = some (i.opcodeIn m) ∧ (encodeBytesWith m i).length = lengthOf i.head ∧
      m.lookup (i.opcodeIn m) =
        match i.head with
        | .unmapped _ => none
        | .defined o => some o

/-- What is left per instruction is its length. -/
theorem encodesItsOpcode_of_length {i : Instr} (h : ∀ m, (encodeBytesWith m i).length = lengthOf i.head) :
    EncodesItsOpcode.Statement i :=
  fun m hm hi => ⟨encodeBytesWith_head? m i, h m, Instr.lookup_opcodeIn hm hi⟩

theorem EncodesItsOpcode.bad (op : Byte) : EncodesItsOpcode.Statement (.bad op) :=
  encodesItsOpcode_of_length fun _ => rfl

theorem EncodesItsOpcode.ret : EncodesItsOpcode.Statement .ret :=
  encodesItsOpcode_of_length fun _ => rfl

theorem EncodesItsOpcode.cld : EncodesItsOpcode.Statement .cld :=
  encodesItsOpcode_of_length fun _ => rfl

theorem EncodesItsOpcode.std : EncodesItsOpcode.Statement .std :=
  encodesItsOpcode_of_length fun _ => rfl

theorem EncodesItsOpcode.cli : EncodesItsOpcode.Statement .cli :=
  encodesItsOpcode_of_length fun _ => rfl

theorem EncodesItsOpcode.sti : EncodesItsOpcode.Statement .sti :=
  encodesItsOpcode_of_length fun _ => rfl

theorem EncodesItsOpcode.iret : EncodesItsOpcode.Statement .iret :=
  encodesItsOpcode_of_length fun _ => rfl

theorem EncodesItsOpcode.trap : EncodesItsOpcode.Statement .trap :=
  encodesItsOpcode_of_length fun _ => rfl

theorem EncodesItsOpcode.neg (ra : Reg) : EncodesItsOpcode.Statement (.neg ra) :=
  encodesItsOpcode_of_length fun _ => rfl

theorem EncodesItsOpcode.not (ra : Reg) : EncodesItsOpcode.Statement (.not ra) :=
  encodesItsOpcode_of_length fun _ => rfl

theorem EncodesItsOpcode.push (ra : Reg) : EncodesItsOpcode.Statement (.push ra) :=
  encodesItsOpcode_of_length fun _ => rfl

theorem EncodesItsOpcode.pop (ra : Reg) : EncodesItsOpcode.Statement (.pop ra) :=
  encodesItsOpcode_of_length fun _ => rfl

theorem EncodesItsOpcode.jmpr (ra : Reg) : EncodesItsOpcode.Statement (.jmpr ra) :=
  encodesItsOpcode_of_length fun _ => rfl

theorem EncodesItsOpcode.callr (ra : Reg) : EncodesItsOpcode.Statement (.callr ra) :=
  encodesItsOpcode_of_length fun _ => rfl

theorem EncodesItsOpcode.out (ra : Reg) : EncodesItsOpcode.Statement (.out ra) :=
  encodesItsOpcode_of_length fun _ => rfl

theorem EncodesItsOpcode.inc (ra : Reg) : EncodesItsOpcode.Statement (.inc ra) :=
  encodesItsOpcode_of_length fun _ => rfl

theorem EncodesItsOpcode.dec (ra : Reg) : EncodesItsOpcode.Statement (.dec ra) :=
  encodesItsOpcode_of_length fun _ => rfl

theorem EncodesItsOpcode.lit (ra : Reg) : EncodesItsOpcode.Statement (.lit ra) :=
  encodesItsOpcode_of_length fun _ => rfl

theorem EncodesItsOpcode.cpuid (ra : Reg) : EncodesItsOpcode.Statement (.cpuid ra) :=
  encodesItsOpcode_of_length fun _ => rfl

theorem EncodesItsOpcode.cpunum (ra : Reg) : EncodesItsOpcode.Statement (.cpunum ra) :=
  encodesItsOpcode_of_length fun _ => rfl

theorem EncodesItsOpcode.br (off : Byte) : EncodesItsOpcode.Statement (.br off) :=
  encodesItsOpcode_of_length fun _ => rfl

theorem EncodesItsOpcode.jr (off : Byte) : EncodesItsOpcode.Statement (.jr off) :=
  encodesItsOpcode_of_length fun _ => rfl

theorem EncodesItsOpcode.add (ra rb : Reg) : EncodesItsOpcode.Statement (.add ra rb) :=
  encodesItsOpcode_of_length fun _ => rfl

theorem EncodesItsOpcode.sub (ra rb : Reg) : EncodesItsOpcode.Statement (.sub ra rb) :=
  encodesItsOpcode_of_length fun _ => rfl

theorem EncodesItsOpcode.mul (ra rb : Reg) : EncodesItsOpcode.Statement (.mul ra rb) :=
  encodesItsOpcode_of_length fun _ => rfl

theorem EncodesItsOpcode.div (ra rb : Reg) : EncodesItsOpcode.Statement (.div ra rb) :=
  encodesItsOpcode_of_length fun _ => rfl

theorem EncodesItsOpcode.and (ra rb : Reg) : EncodesItsOpcode.Statement (.and ra rb) :=
  encodesItsOpcode_of_length fun _ => rfl

theorem EncodesItsOpcode.or (ra rb : Reg) : EncodesItsOpcode.Statement (.or ra rb) :=
  encodesItsOpcode_of_length fun _ => rfl

theorem EncodesItsOpcode.xor (ra rb : Reg) : EncodesItsOpcode.Statement (.xor ra rb) :=
  encodesItsOpcode_of_length fun _ => rfl

theorem EncodesItsOpcode.shr (ra rb : Reg) : EncodesItsOpcode.Statement (.shr ra rb) :=
  encodesItsOpcode_of_length fun _ => rfl

theorem EncodesItsOpcode.shl (ra rb : Reg) : EncodesItsOpcode.Statement (.shl ra rb) :=
  encodesItsOpcode_of_length fun _ => rfl

theorem EncodesItsOpcode.test (ra rb : Reg) : EncodesItsOpcode.Statement (.test ra rb) :=
  encodesItsOpcode_of_length fun _ => rfl

theorem EncodesItsOpcode.cmp (ra rb : Reg) : EncodesItsOpcode.Statement (.cmp ra rb) :=
  encodesItsOpcode_of_length fun _ => rfl

theorem EncodesItsOpcode.equ (ra rb : Reg) : EncodesItsOpcode.Statement (.equ ra rb) :=
  encodesItsOpcode_of_length fun _ => rfl

theorem EncodesItsOpcode.mov (ra rb : Reg) : EncodesItsOpcode.Statement (.mov ra rb) :=
  encodesItsOpcode_of_length fun _ => rfl

theorem EncodesItsOpcode.load (ra rb : Reg) : EncodesItsOpcode.Statement (.load ra rb) :=
  encodesItsOpcode_of_length fun _ => rfl

theorem EncodesItsOpcode.stor (ra rb : Reg) : EncodesItsOpcode.Statement (.stor ra rb) :=
  encodesItsOpcode_of_length fun _ => rfl

theorem EncodesItsOpcode.loadb (ra rb : Reg) : EncodesItsOpcode.Statement (.loadb ra rb) :=
  encodesItsOpcode_of_length fun _ => rfl

theorem EncodesItsOpcode.storb (ra rb : Reg) : EncodesItsOpcode.Statement (.storb ra rb) :=
  encodesItsOpcode_of_length fun _ => rfl

theorem EncodesItsOpcode.loada (ra rb : Reg) : EncodesItsOpcode.Statement (.loada ra rb) :=
  encodesItsOpcode_of_length fun _ => rfl

theorem EncodesItsOpcode.stora (ra rb : Reg) : EncodesItsOpcode.Statement (.stora ra rb) :=
  encodesItsOpcode_of_length fun _ => rfl

theorem EncodesItsOpcode.tnset (ra rb : Reg) : EncodesItsOpcode.Statement (.tnset ra rb) :=
  encodesItsOpcode_of_length fun _ => rfl

theorem EncodesItsOpcode.jmp (addr : Word) : EncodesItsOpcode.Statement (.jmp addr) :=
  encodesItsOpcode_of_length fun _ => rfl

theorem EncodesItsOpcode.call (addr : Word) : EncodesItsOpcode.Statement (.call addr) :=
  encodesItsOpcode_of_length fun _ => rfl

theorem EncodesItsOpcode.loadi (ra : Reg) (imm : Word) : EncodesItsOpcode.Statement (.loadi ra imm) :=
  encodesItsOpcode_of_length fun _ => rfl

end Sys2Proof.Laws
end

