-- ==== Sys2Proof/Laws/Step.lean ====
section
/-! SUPPORT. Everything a turn can do, said once: the private effect at the end of a handler, one access, one round of the loop, and
whose turn it is. Invariant proofs cite these lemmas instead of unfolding the step. -/

namespace Sys2Proof.Machine

/-! ## The end of a handler -/

/-- What `commit` can do: its own context only, and neither memory, LOCK, output nor the cycle in progress. -/
structure CommitEffect (s t : State) : Prop where
  kept : Kept s t
  lock : t.lock = s.lock
  outq : t.outq = s.outq
  mem : t.mem = s.mem
  run : t.cpu.run = s.cpu.run ∨ t.cpu.run = .stopped .arith
  flight : t.cpu.flight = s.cpu.flight

theorem CommitEffect.refl (s : State) : CommitEffect s s := ⟨Kept.refl s, rfl, rfl, rfl, .inl rfl, rfl⟩

theorem State.raise_of_not_accepts {s : State} (h : ¬ s.cpu.accepts = true) {kind : Nat} : s.raise kind = none := by
  rw [State.raise_eq_none_iff]
  by_cases hx : flagX s.cpu.st = true
  · exact .inl hx
  · refine .inr (.inl ?_)
    simpa [Context.accepts, hx] using h

theorem commit_effect {s t : State} {f : Flight} {i : Instr} (h : s.commit f i = .next t) : CommitEffect s t := by
  have own : ∀ u : State, Kept s u → u.lock = s.lock → u.outq = s.outq → u.mem = s.mem → u.cpu.run = s.cpu.run →
      u.cpu.flight = s.cpu.flight → CommitEffect s u := fun u k l o m r fl => ⟨k, l, o, m, .inl r, fl⟩
  cases i
  case trap =>
    simp only [State.commit] at h
    split at h
    · cases h; exact own _ ⟨rfl, rfl, rfl, rfl, rfl, rfl, rfl, rfl⟩ rfl rfl rfl rfl rfl
    · rename_i ha
      simp only [exec, execTrap, State.raise_of_not_accepts ha] at h
      cases h; exact .refl _
  case div ra rb =>
    simp only [State.commit] at h
    split at h
    · cases h; exact own _ ⟨rfl, rfl, rfl, rfl, rfl, rfl, rfl, rfl⟩ rfl rfl rfl rfl rfl
    · rename_i ha
      simp only [exec, execDiv] at h
      split at h
      · rename_i hz
        simp only [State.raise_of_not_accepts (fun hc => ha ⟨hz, hc⟩)] at h
        cases h; exact ⟨⟨rfl, rfl, rfl, rfl, rfl, rfl, rfl, rfl⟩, rfl, rfl, rfl, .inr rfl, rfl⟩
      · cases h; exact own _ ⟨rfl, rfl, rfl, rfl, rfl, rfl, rfl, rfl⟩ rfl rfl rfl rfl rfl
  case br off =>
    cases h
    by_cases hc : flagC s.cpu.st = true
    · rw [if_pos hc]; exact own _ ⟨rfl, rfl, rfl, rfl, rfl, rfl, rfl, rfl⟩ rfl rfl rfl rfl rfl
    · rw [if_neg hc]; exact .refl _
  all_goals
    cases h
    exact own _ ⟨rfl, rfl, rfl, rfl, rfl, rfl, rfl, rfl⟩ rfl rfl rfl rfl rfl

/-- What a turn keeps: everything of the other contexts, the schedule, the parameters, its own id and count. -/
structure TurnKept (s t : State) : Prop where
  others : t.others = s.others
  budget : t.budget = s.budget
  period : t.period = s.period
  opmap : t.opmap = s.opmap
  sched : t.sched = s.sched
  id : t.cpu.id = s.cpu.id
  cnt : t.cpu.cnt = s.cpu.cnt

theorem TurnKept.refl (s : State) : TurnKept s s := ⟨rfl, rfl, rfl, rfl, rfl, rfl, rfl⟩

theorem TurnKept.trans {s t u : State} (h : TurnKept s t) (k : TurnKept t u) : TurnKept s u :=
  ⟨k.others.trans h.others, k.budget.trans h.budget, k.period.trans h.period, k.opmap.trans h.opmap, k.sched.trans h.sched, k.id.trans h.id,
    k.cnt.trans h.cnt⟩

theorem Kept.turn {s t : State} (h : Kept s t) : TurnKept s t := ⟨h.others, h.budget, h.period, h.opmap, h.sched, h.id, h.cnt⟩

/-- The cases of the loop's end of a cycle. -/
theorem endCycle_cases (s : State) (i : Instr) :
    (i.isBad = true ∧ s.endCycle i = s.stop .halt) ∨
    (s.endCycle i = s ∧ (s.cpu.run ≠ .running ∨ s.cpu.flight.isSome = true)) ∨
    (s.endCycle i = s.setCyc (s.cpu.cyc + 1) ∧ i.isBad = false ∧ s.cpu.run = .running ∧ s.cpu.flight = none) := by
  unfold State.endCycle
  split
  · exact .inl ⟨‹_›, rfl⟩
  · rename_i hb
    split
    · exact .inr (.inl ⟨rfl, .inl ‹_›⟩)
    · rename_i hr
      split
      · exact .inr (.inl ⟨rfl, .inr ‹_›⟩)
      · rename_i hf
        exact .inr (.inr ⟨rfl, by simpa using hb, by simpa using hr, by simpa using hf⟩)

theorem onNext_eq_next {o : Host.Outcome State Fault Refusal} {g : State → State} {t : State}
    (h : onNext o g = .next t) : ∃ u, o = .next u ∧ t = g u := by
  cases o with
  | next u => exact ⟨u, rfl, by simpa [onNext] using h.symm⟩
  | fault r => cases r
  | refused r => simp [onNext] at h

/-- The end of a handler: the cycle is over, memory, LOCK and output are as they were, and `cyc` advances by one or the context has
stopped. -/
structure HandlerEnd (s t : State) : Prop where
  kept : TurnKept s t
  lock : t.lock = s.lock
  outq : t.outq = s.outq
  mem : t.mem = s.mem
  flight : t.cpu.flight = none
  cyc : (t.cpu.cyc = s.cpu.cyc + 1 ∧ t.cpu.run = .running) ∨ (t.cpu.cyc = s.cpu.cyc ∧ t.cpu.run ≠ .running)

theorem finishHandler_end {s t : State} {f : Flight} {i : Instr} (h : s.finishHandler f i = .next t) :
    HandlerEnd s t := by
  obtain ⟨u, hu, rfl⟩ := onNext_eq_next h
  have e := commit_effect hu
  have hk : TurnKept s u := (⟨rfl, rfl, rfl, rfl, rfl, rfl, rfl⟩ : TurnKept s (s.setFlight none)).trans e.kept.turn
  have hfl : u.cpu.flight = none := e.flight
  rcases endCycle_cases u i with ⟨-, he⟩ | ⟨he, hr⟩ | ⟨he, -, hr, -⟩
  · rw [he]
    exact ⟨hk.trans ⟨rfl, rfl, rfl, rfl, rfl, rfl, rfl⟩, e.lock, e.outq, e.mem, hfl, .inr ⟨e.kept.cyc, by simp [State.stop]⟩⟩
  · rw [he]
    refine ⟨hk, e.lock, e.outq, e.mem, hfl, .inr ⟨e.kept.cyc, ?_⟩⟩
    simpa [hfl] using hr
  · rw [he]
    exact ⟨hk.trans ⟨rfl, rfl, rfl, rfl, rfl, rfl, rfl⟩, e.lock, e.outq, e.mem, hfl, .inl ⟨by simp [e.kept.cyc], hr⟩⟩

/-! ## Stages -/

/-- After the last access of a stage, either the cycle is over, or its next stage begins: then nothing shared has changed, and the
accesses to come are those of a fetch or of the instruction's plan. -/
inductive StageEnd (s t : State) : Prop where
  | finished (h : HandlerEnd s t)
  | goesOn (kept : TurnKept s t) (lock : t.lock = s.lock) (outq : t.outq = s.outq) (mem : t.mem = s.mem)
      (cyc : t.cpu.cyc = s.cpu.cyc) (run : t.cpu.run = s.cpu.run) (f : Flight) (flight : t.cpu.flight = some f)
      (todo : (∃ a slot, f.todo = [readWordAccesses slot a]) ∨ ∃ c i, f.todo = plan c i ∧ f.todo ≠ [])

theorem beginHandler_end {s t : State} {i : Instr} (h : s.beginHandler i = .next t) : StageEnd s t := by
  unfold State.beginHandler at h
  simp only at h
  split at h
  · have e := finishHandler_end h
    exact .finished ⟨(⟨rfl, rfl, rfl, rfl, rfl, rfl, rfl⟩ : TurnKept s (s.setPc (s.cpu.pc + 2))).trans e.kept, e.lock, e.outq, e.mem,
      e.flight, e.cyc⟩
  · rename_i hp
    cases h
    exact .goesOn ⟨rfl, rfl, rfl, rfl, rfl, rfl, rfl⟩ rfl rfl rfl rfl rfl _ rfl (.inr ⟨_, i, rfl, by simpa using hp⟩)

theorem finishStage_end {s t : State} {f : Flight} (h : s.finishStage f = .next t) : StageEnd s t := by
  unfold State.finishStage at h
  split at h
  · cases h
    exact .goesOn ⟨rfl, rfl, rfl, rfl, rfl, rfl, rfl⟩ rfl rfl rfl rfl rfl _ rfl (.inl ⟨_, _, rfl⟩)
  · split at h
    · cases h
      exact .goesOn ⟨rfl, rfl, rfl, rfl, rfl, rfl, rfl⟩ rfl rfl rfl rfl rfl _ rfl (.inl ⟨_, _, rfl⟩)
    · exact beginHandler_end h
  · exact beginHandler_end h
  · exact .finished (finishHandler_end h)

/-! ## One access -/

/-- What `perform` can do, by kind of access. -/
theorem perform_cases {s t : State} {f g : Flight} {x : Access} (h : s.perform f x = some (t, g)) :
    g.stage = f.stage ∧ g.todo = f.todo ∧
      ((∃ slot a, x = .read slot a ∧ t = s) ∨ (∃ a b, x = .write a b ∧ t = s.writeByte a b) ∨
        (x = .acquire ∧ s.lock = none ∧ t = s.setLock (some s.cpu.id)) ∨ (x = .release ∧ t = s.setLock none) ∨
        (∃ b, x = .emit b ∧ t = s.emit b)) := by
  cases x with
  | acquire =>
    simp only [State.perform] at h
    split at h
    · cases h; exact ⟨rfl, rfl, .inr (.inr (.inl ⟨rfl, by simp_all, rfl⟩))⟩
    · cases h
  | read slot a => cases h; exact ⟨rfl, rfl, .inl ⟨slot, a, rfl, rfl⟩⟩
  | write a b => cases h; exact ⟨rfl, rfl, .inr (.inl ⟨a, b, rfl, rfl⟩)⟩
  | release => cases h; exact ⟨rfl, rfl, .inr (.inr (.inr (.inl ⟨rfl, rfl⟩)))⟩
  | emit b => cases h; exact ⟨rfl, rfl, .inr (.inr (.inr (.inr ⟨b, rfl, rfl⟩)))⟩

/-- The cases of one access of a cycle in progress: nothing was left and the stage ends; the context waits for LOCK; the access is
made and the stage ends; or it is made and more are to come. -/
theorem accessFlight_cases {s t : State} {f : Flight} {pick : Nat} (h : s.accessFlight f pick = .next t) :
    (nextAccess f.todo pick = none ∧ s.finishStage f = .next t) ∨
    (∃ rest, nextAccess f.todo pick = some (.acquire, rest) ∧ s.lock ≠ none ∧ t = s) ∨
    (∃ x rest u g, nextAccess f.todo pick = some (x, rest) ∧ s.perform f x = some (u, g) ∧
      ((rest = [] ∧ u.finishStage { g with todo := rest } = .next t) ∨
        (rest ≠ [] ∧ t = u.setFlight (some { g with todo := rest })))) := by
  unfold State.accessFlight at h
  split at h
  · exact .inl ⟨‹_›, h⟩
  · rename_i x rest hn
    split at h
    · rename_i hp
      cases h
      refine .inr (.inl ⟨rest, ?_, ?_, rfl⟩)
      all_goals cases x <;> simp [State.perform] at hp
      · exact hn
      · exact hp
    · rename_i u g hp
      refine .inr (.inr ⟨x, rest, u, g, hn, hp, ?_⟩)
      split at h
      · rename_i hr; exact .inl ⟨by simpa using hr, h⟩
      · rename_i hr; cases h; exact .inr ⟨by simpa using hr, rfl⟩

/-! ## Turns -/

/-- The cases of an access turn. -/
theorem accessTurn_cases {s t : State} {pick : Nat} (h : s.accessTurn pick = .next t) :
    (s.cpu.run ≠ .running ∧ t = s) ∨
    (s.cpu.run = .running ∧ ∃ f, s.cpu.flight = some f ∧ s.accessFlight f pick = .next t) ∨
    (s.cpu.run = .running ∧ s.cpu.flight = none ∧
      ((s.boundary = .exhausted ∧ t = s.stop .exhausted) ∨ (s.boundary = .tick ∧ t = s.stop .timerFail) ∨
        (s.boundary = .tick ∧ s.accessFlight s.tickFlight pick = .next t) ∨
        (s.boundary = .go ∧ s.accessFlight s.fetchFlight pick = .next t))) := by
  unfold State.accessTurn at h
  split at h
  · cases h; exact .inl ⟨‹_›, rfl⟩
  · rename_i hr
    have hr : s.cpu.run = .running := by simpa using hr
    split at h
    · exact .inr (.inl ⟨hr, _, ‹_›, h⟩)
    · refine .inr (.inr ⟨hr, ‹_›, ?_⟩)
      split at h
      · cases h; exact .inl ⟨‹_›, rfl⟩
      · split at h
        · exact .inr (.inr (.inl ⟨‹_›, h⟩))
        · cases h; exact .inr (.inl ⟨‹_›, rfl⟩)
      · exact .inr (.inr (.inr ⟨‹_›, h⟩))

/-- The cases of a round of the loop. -/
theorem loopRound_cases {s t : State} (h : s.loopRound = .next t) :
    (s.cpu.run ≠ .running ∧ t = s) ∨
    (s.cpu.run = .running ∧
      ((s.boundary = .exhausted ∧ t = s.stop .exhausted) ∨ (s.boundary = .tick ∧ t = s.stop .timerFail) ∨
        (s.boundary = .tick ∧ ∃ u, s.raise ExcKind.interrupt.ordinal = some u ∧ u.runCycle = .next t) ∨
        (s.boundary = .go ∧ s.runCycle = .next t))) := by
  unfold State.loopRound at h
  split at h
  · cases h; exact .inl ⟨‹_›, rfl⟩
  · rename_i hr
    refine .inr ⟨by simpa using hr, ?_⟩
    split at h
    · cases h; exact .inl ⟨‹_›, rfl⟩
    · split at h
      · exact .inr (.inr (.inl ⟨‹_›, _, ‹_›, h⟩))
      · cases h; exact .inr (.inl ⟨‹_›, rfl⟩)
    · exact .inr (.inr (.inr ⟨‹_›, h⟩))

/-- A cycle is the instruction's effect and then the loop's end of a cycle. -/
theorem runCycle_cases {s t : State} (h : s.runCycle = .next t) :
    ∃ u, exec s.fetch (s.setPc (s.cpu.pc + 2)) = .next u ∧ t = u.endCycle s.fetch :=
  onNext_eq_next h

/-! ## Whose turn it is -/

theorem swapIn_perm {c d : Context} {k : Word} {l ds : List Context} (h : swapIn c k l = some (d, ds)) :
    (d :: ds).Perm (c :: l) ∧ d.id = k := by
  induction l generalizing d ds with
  | nil => cases h
  | cons e l ih =>
    simp only [swapIn] at h
    split at h
    · cases h; exact ⟨List.Perm.swap _ _ _, ‹_›⟩
    · cases hs : swapIn c k l with
      | none => simp [hs] at h
      | some r =>
        obtain ⟨d', ds'⟩ := r
        simp only [hs, Option.map_some, Option.some.injEq, Prod.mk.injEq] at h
        obtain ⟨rfl, rfl⟩ := h
        obtain ⟨hp, hid⟩ := ih hs
        exact ⟨((List.Perm.swap _ _ _).trans (hp.cons e)).trans (List.Perm.swap _ _ _), hid⟩

/-- Switching permutes the contexts, makes the named one active, and changes nothing shared. -/
theorem switchTo_effect {s t : State} {k : Word} (h : s.switchTo k = some t) :
    t.contexts.Perm s.contexts ∧ t.cpu.id = k ∧ t.mem = s.mem ∧ t.lock = s.lock ∧ t.outq = s.outq ∧
      t.budget = s.budget ∧ t.period = s.period ∧ t.opmap = s.opmap ∧ t.sched = s.sched := by
  unfold State.switchTo at h
  split at h
  · cases h; exact ⟨.refl _, ‹_›, rfl, rfl, rfl, rfl, rfl, rfl, rfl⟩
  · cases hs : swapIn s.cpu k s.others with
    | none => simp [hs] at h
    | some r =>
      simp only [hs, Option.map_some, Option.some.injEq] at h
      subst h
      obtain ⟨hp, hid⟩ := swapIn_perm hs
      exact ⟨hp, hid, rfl, rfl, rfl, rfl, rfl, rfl, rfl⟩

/-- The cases of a step: the turn is void; or some state `u` with the same contexts and the same shared state takes a cycle turn or an
access turn. -/
theorem step_cases {s t : State} (h : step s = .next t) :
    ∃ u : State, u.contexts.Perm s.contexts ∧ u.mem = s.mem ∧ u.lock = s.lock ∧ u.outq = s.outq ∧ u.budget = s.budget ∧
      u.period = s.period ∧ u.opmap = s.opmap ∧
      (t = u ∨ (u.cpu.flight = none ∧ u.loopRound = .next t) ∨ ∃ pick, u.accessTurn pick = .next t) := by
  have cyc : ∀ u : State, u.cycleTurn = .next t →
      (u.cpu.flight = none ∧ u.loopRound = .next t) ∨ ∃ pick, u.accessTurn pick = .next t := by
    intro u hu
    unfold State.cycleTurn at hu
    split at hu
    · exact .inr ⟨0, hu⟩
    · rename_i hf; exact .inl ⟨by simpa using hf, hu⟩
  unfold step State.takeTurn at h
  split at h
  · exact ⟨s, .refl _, rfl, rfl, rfl, rfl, rfl, rfl, .inr (cyc s h)⟩
  · split at h
    · rename_i u hu
      obtain ⟨hp, -, hm, hl, ho, hb, hpe, hop, -⟩ := switchTo_effect hu
      exact ⟨u, hp, hm, hl, ho, hb, hpe, hop, .inr (cyc u h)⟩
    · cases h
      refine ⟨_, ?_, ?_, ?_, ?_, ?_, ?_, ?_, .inl rfl⟩
      · exact .refl _
      all_goals rfl
  · split at h
    · rename_i pick rest _ u hu
      obtain ⟨hp, -, hm, hl, ho, hb, hpe, hop, -⟩ := switchTo_effect hu
      exact ⟨u, hp, hm, hl, ho, hb, hpe, hop, .inr (.inr ⟨_, h⟩)⟩
    · cases h
      refine ⟨_, ?_, ?_, ?_, ?_, ?_, ?_, ?_, .inl rfl⟩
      · exact .refl _
      all_goals rfl

end Sys2Proof.Machine
end

