-- ==== Sys2Proof/Tests/Slice0.lean ====
section
/-! SUPPORT. The model's own tests: well-formedness, one word per constructor written out from the encoding of 30_encoding.md
R84 and R90, one step per instruction with the values of 95_test_vectors.md (the id is in the docstring), and for every
obligation with hypotheses a witness that meets them together. -/

namespace Sys2Proof.Tests

open Sys2Proof Sys2Proof.Machine

/-! ## Well-formedness -/

/-- R92: `bad` with a mapped opcode (0x81 is `add`) is ill formed. -/
theorem test_wellFormed_refuses_mapped_bad : (Instr.bad 0x81).wellFormed = false ∧ (Instr.bad 0xE1).wellFormed = false := by
  decide

/-- R92: `bad` with an unmapped opcode of each class is well formed. -/
theorem test_wellFormed_accepts_unmapped_bad :
    (Instr.bad 0x00).wellFormed = true ∧ (Instr.bad 0x63).wellFormed = true ∧ (Instr.bad 0x95).wellFormed = true ∧
      (Instr.bad 0xFF).wellFormed = true := by
  decide

/-! ## Decoding: words written out from the encoding columns (R84, R90), ignored bits set where there are any -/

/-- Format Z: `00000ooo xxxxxxxx`. -/
theorem test_decode_no_operand :
    decodeTableWord 16 0b0000000111111111 = some (.ret) ∧
    decodeTableWord 16 0b0000001000000000 = some (.cld) ∧
    decodeTableWord 16 0b0000001100000001 = some (.std) ∧
    decodeTableWord 16 0b0000010010000000 = some (.cli) ∧
    decodeTableWord 16 0b0000010100000000 = some (.sti) ∧
    decodeTableWord 16 0b0000011001010101 = some (.iret) ∧
    decodeTableWord 16 0b0000011100000000 = some (.trap) := by
  decide

/-- Format R1: `0100oooo aaaaxxxx`. -/
theorem test_decode_one_register :
    decodeTableWord 16 0b0100000100111111 = some (.neg 3) ∧
    decodeTableWord 16 0b0100001000100000 = some (.not 2) ∧
    decodeTableWord 16 0b0100001111110000 = some (.push 15) ∧
    decodeTableWord 16 0b0100010001000001 = some (.pop 4) ∧
    decodeTableWord 16 0b0100010110000000 = some (.jmpr 8) ∧
    decodeTableWord 16 0b0100011001100000 = some (.callr 6) := by
  decide

/-- Format R1, the other half. -/
theorem test_decode_one_register_more :
    decodeTableWord 16 0b0100011100000000 = some (.out 0) ∧
    decodeTableWord 16 0b0100100000010000 = some (.inc 1) ∧
    decodeTableWord 16 0b0100100110010000 = some (.dec 9) ∧
    decodeTableWord 16 0b0100101011101010 = some (.lit 14) ∧
    decodeTableWord 16 0b0100101101010000 = some (.cpuid 5) ∧
    decodeTableWord 16 0b0100110001111000 = some (.cpunum 7) := by
  decide

/-- Format I8: `011000oo iiiiiiii`. -/
theorem test_decode_one_immediate :
    decodeTableWord 16 0b0110000111111000 = some (.br 0xF8) ∧
    decodeTableWord 16 0b0110001001111111 = some (.jr 0x7F) := by
  decide

/-- Format R2: `100ooooo aaaabbbb`. -/
theorem test_decode_arithmetic :
    decodeTableWord 16 0b1000000100010010 = some (.add 1 2) ∧
    decodeTableWord 16 0b1000001001011010 = some (.sub 5 10) ∧
    decodeTableWord 16 0b1000001100111100 = some (.mul 3 12) ∧
    decodeTableWord 16 0b1000010001111000 = some (.div 7 8) ∧
    decodeTableWord 16 0b1000010111110000 = some (.and 15 0) ∧
    decodeTableWord 16 0b1000011000001111 = some (.or 0 15) := by
  decide

/-- Format R2, shifts and comparisons among them. -/
theorem test_decode_logic_and_comparison :
    decodeTableWord 16 0b1000011101101001 = some (.xor 6 9) ∧
    decodeTableWord 16 0b1000100000100001 = some (.shr 2 1) ∧
    decodeTableWord 16 0b1000100110111101 = some (.shl 11 13) ∧
    decodeTableWord 16 0b1000101000010010 = some (.test 1 2) ∧
    decodeTableWord 16 0b1000101101000011 = some (.cmp 4 3) ∧
    decodeTableWord 16 0b1000110011100111 = some (.equ 14 7) := by
  decide

/-- Format R2, move, loads and stores. -/
theorem test_decode_memory :
    decodeTableWord 16 0b1000110100010010 = some (.mov 1 2) ∧
    decodeTableWord 16 0b1000111000100011 = some (.load 2 3) ∧
    decodeTableWord 16 0b1000111101000010 = some (.stor 4 2) ∧
    decodeTableWord 16 0b1001000001000110 = some (.loadb 4 6) ∧
    decodeTableWord 16 0b1001000110001001 = some (.storb 8 9) := by
  decide

/-- Format R2, the atomics. -/
theorem test_decode_atomic :
    decodeTableWord 16 0b1001001000110100 = some (.loada 3 4) ∧
    decodeTableWord 16 0b1001001100010000 = some (.stora 1 0) ∧
    decodeTableWord 16 0b1001010000010010 = some (.tnset 1 2) := by
  decide

/-- Formats X and XR; the second word is bits 31..16 of the number. -/
theorem test_decode_extended :
    decodeTableWord 32 0b00000001000000001100000111111111 = some (.jmp 0x0100) ∧
    decodeTableWord 32 0b00010010001101001100001000000000 = some (.call 0x1234) ∧
    decodeTableWord 32 0b10101011110011011110000111110011 = some (.loadi 15 0xABCD) := by
  decide

/-- R92: unmapped opcodes of three classes. -/
theorem test_decode_unmapped :
    decodeTableWord 16 0b0000000000000000 = some (.bad 0x00) ∧
    decodeTableWord 16 0b1111111100010010 = some (.bad 0xFF) ∧
    decodeTableWord 16 0b0100000001110111 = some (.bad 0x40) := by
  decide

/-- R81: what is too short is rejected by name: one byte; a defined extended opcode without its trailing word. -/
theorem test_decode_truncated :
    decode [0x81] = .error .truncatedInstructionWord ∧ decode [0xC1, 0x00, 0x12] = .error .truncatedTrailingWord := by
  decide

/-- R80, R83: bytes after the instruction are left. -/
theorem test_decode_leaves_the_rest : decode [0xE1, 0x10, 0x00, 0x03, 0x81] = .ok (.loadi 1 3, [0x81]) := by
  decide

/-- R84, R88: the encoder writes the words of the table, ignored bits 0. -/
theorem test_encode :
    encode (.sub 5 10) = [0x825A] ∧ encode (.neg 3) = [0x4130] ∧ encode (.loadi 1 3) = [0xE110, 0x0003] ∧
      encode (.jmp 0x0100) = [0xC100, 0x0100] ∧ encode (.br 0xF8) = [0x61F8] ∧ encode .trap = [0x0700] := by
  decide

/-! ## One step per instruction -/

/-- The reset state with `pc` at an address and bytes stored from there. -/
def ready (start : Word) (code : List Byte) : State := (State.reset.setPc start).writeBytes start code

/-- The state has a next state, of which `p` holds. -/
def after (s : State) (p : State → Bool) : Bool :=
  match step s with
  | .next t => p t
  | .fault _ => false
  | .refused _ => false

/-- V-F1. -/
theorem test_odd_fetch :
    after ((ready 0x0041 [0x48, 0x10]).setReg 1 1)
      (fun t => t.reg 1 == 2 && t.cpu.pc == 0x0043) = true := by
  decide

/-- V-F2. -/
theorem test_fetch_wraps :
    after ((ready 0xFFFF [0x48, 0x10]).setReg 1 1)
      (fun t => t.reg 1 == 2 && t.cpu.pc == 0x0001) = true := by
  decide

/-- V-F3: no trailing word is taken. -/
theorem test_bad_halts :
    after (ready 0x0010 [0xFF, 0x12, 0x34, 0x56])
      (fun t => t.cpu.run == .stopped .halt && t.cpu.pc == 0x0012 && t.cpu.cyc == 0) = true := by
  decide

/-- V-F6, S2. -/
theorem test_bad_at_reset :
    after (State.reset)
      (fun t => t.cpu.run == .stopped .halt && t.cpu.pc == 2 && t.cpu.cyc == 0) = true := by
  decide

/-- V-Z1. -/
theorem test_ret :
    after (((ready 0x40 [0x01, 0x00]).setReg 15 0x0FFE).writeWord 0x0FFE 0x0008)
      (fun t => t.cpu.pc == 0x0008 && t.reg 15 == 0x1000 && t.cpu.cyc == 1) = true := by
  decide

/-- V-Z2. -/
theorem test_ret_at_top :
    after (((ready 0x40 [0x01, 0x00]).setReg 15 0xFFFF).writeWord 0xFFFF 0x1234)
      (fun t => t.cpu.pc == 0x1234 && t.reg 15 == 0x0001) = true := by
  decide

/-- V-Z3. -/
theorem test_cld :
    after ((ready 0 [0x02, 0x00]).setSt 0x0007)
      (fun t => t.cpu.st == 0x0005 && t.cpu.pc == 2) = true := by
  decide

/-- V-Z4. -/
theorem test_std :
    after (ready 0 [0x03, 0x00])
      (fun t => t.cpu.st == 0x0002 && t.cpu.pc == 2) = true := by
  decide

/-- V-Z5. -/
theorem test_cli :
    after ((ready 0 [0x04, 0x00]).setSt 0x0005)
      (fun t => t.cpu.st == 0x0001 && t.cpu.pc == 2) = true := by
  decide

/-- V-Z6. -/
theorem test_sti :
    after ((ready 0 [0x05, 0x00]).setSt 0x0001)
      (fun t => t.cpu.st == 0x0005 && t.cpu.pc == 2) = true := by
  decide

/-- V-Z7. -/
theorem test_iret :
    after (((((ready 0x200 [0x06, 0x00]).setReg 15 0x0FFC).setSt 4).writeWord 0x0FFC 0x000A).writeWord 0x0FFE 0x0001)
      (fun t => t.cpu.pc == 0x000A && t.cpu.st == 0x0001 && t.reg 15 == 0x1000) = true := by
  decide

/-- V-Z8. -/
theorem test_iret_unchecked :
    after ((((ready 0x200 [0x06, 0x00]).setReg 15 0x0FFC).writeWord 0x0FFC 0x1235).writeWord 0x0FFE 0xFFFF)
      (fun t => t.cpu.pc == 0x1235 && t.cpu.st == 0xFFFF && t.reg 15 == 0x1000) = true := by
  decide

/-- V-Z11. -/
theorem test_trap_delivered :
    after (((((ready 0x10 [0x07, 0x00]).setReg 15 0x1000).setSt 1).setItr 0x0100).writeWord 0x0102 0x0200)
      (fun t => t.readWord 0x0FFE == 0x0001 && t.readWord 0x0FFC == 0x0012 && t.reg 15 == 0x0FFC && t.cpu.st == 0x0005 && t.cpu.pc == 0x0200) = true := by
  decide

/-- V-Z9: nothing but `pc` (and `cyc`) changes. -/
theorem test_trap_refused :
    after ((((ready 0x10 [0x07, 0x00]).setReg 15 0x1000).setSt 5).setItr 0x0100)
      (fun t => t == (((((ready 0x12 []).setReg 15 0x1000).setSt 5).setItr 0x0100).setCyc 1).writeBytes 0x10 [0x07, 0x00]) = true := by
  decide

/-- V-REG3, V-F4: low nibble ignored. -/
theorem test_neg :
    after (((ready 0 [0x41, 0x3F]).setReg 3 5).setReg 15 7)
      (fun t => t.reg 3 == 0xFFFB && t.reg 15 == 7 && t.cpu.pc == 2) = true := by
  decide

/-- V-REG4. -/
theorem test_neg_min :
    after ((ready 0 [0x41, 0x30]).setReg 3 0x8000)
      (fun t => t.reg 3 == 0x8000) = true := by
  decide

/-- V-REG8. -/
theorem test_not :
    after ((ready 0 [0x42, 0x20]).setReg 2 0x1234)
      (fun t => t.reg 2 == 0) = true := by
  decide

/-- V-REG6. -/
theorem test_not_zero :
    after (ready 0 [0x42, 0x20])
      (fun t => t.reg 2 == 1) = true := by
  decide

/-- V-ST3: across the top of memory. -/
theorem test_push :
    after (((ready 0x10 [0x43, 0x10]).setReg 1 0xBEEF).setReg 15 1)
      (fun t => t.reg 15 == 0xFFFF && t.readByte 0xFFFF == 0xBE && t.readByte 0 == 0xEF) = true := by
  decide

/-- V-ST5. -/
theorem test_push_sp :
    after ((ready 0 [0x43, 0xF0]).setReg 15 0x1000)
      (fun t => t.reg 15 == 0x0FFE && t.readWord 0x0FFE == 0x1000) = true := by
  decide

/-- V-ST4. -/
theorem test_pop :
    after (((ready 0 [0x44, 0x40]).setReg 15 0x0FFE).writeWord 0x0FFE 0xBEEF)
      (fun t => t.reg 4 == 0xBEEF && t.reg 15 == 0x1000) = true := by
  decide

/-- V-ST6. -/
theorem test_pop_sp :
    after (((ready 0 [0x44, 0xF0]).setReg 15 0x0FFE).writeWord 0x0FFE 0x2000)
      (fun t => t.reg 15 == 0x2000) = true := by
  decide

/-- V-REG11. -/
theorem test_jmpr :
    after ((ready 0 [0x45, 0x20]).setReg 2 0x0041)
      (fun t => t.cpu.pc == 0x0041) = true := by
  decide

/-- V-REG12. -/
theorem test_callr :
    after (((ready 0x10 [0x46, 0x20]).setReg 2 0x0040).setReg 15 0x1000)
      (fun t => t.readWord 0x0FFE == 0x0012 && t.reg 15 == 0x0FFE && t.cpu.pc == 0x0040) = true := by
  decide

/-- V-REG13. -/
theorem test_callr_sp :
    after ((ready 0x10 [0x46, 0xF0]).setReg 15 0x1000)
      (fun t => t.readWord 0x0FFE == 0x0012 && t.reg 15 == 0x0FFE && t.cpu.pc == 0x1000) = true := by
  decide

/-- V-REG14. -/
theorem test_out :
    after ((ready 0 [0x47, 0x00]).setReg 0 0x1241)
      (fun t => t.outq == [0x41] && t.reg 0 == 0x1241) = true := by
  decide

/-- V-REG15. -/
theorem test_inc :
    after ((ready 0 [0x48, 0x10]).setReg 1 0xFFFF)
      (fun t => t.reg 1 == 0) = true := by
  decide

/-- V-REG16. -/
theorem test_dec :
    after (ready 0 [0x49, 0x10])
      (fun t => t.reg 1 == 0xFFFF) = true := by
  decide

/-- V-REG17. -/
theorem test_lit :
    after ((ready 0 [0x4A, 0x10]).setReg 1 0x0100)
      (fun t => t.cpu.itr == 0x0100) = true := by
  decide

/-- Two contexts; the second, with id 1, is active and about to run what is placed at 0. -/
def secondOfTwo (code : List Byte) : State :=
  { ready 0 code with cpu := Context.reset 1 2, others := [Context.reset 0 2] }

/-- V-REG18. -/
theorem test_cpuid :
    after ((secondOfTwo [0x4B, 0x00]).setReg 0 9)
      (fun t => t.reg 0 == 1) = true := by
  decide

/-- V-REG19. -/
theorem test_cpunum :
    after (secondOfTwo [0x4C, 0x10])
      (fun t => t.reg 1 == 2) = true := by
  decide

/-- V-B3. -/
theorem test_br_taken :
    after ((ready 0x12 [0x61, 0xF8]).setSt 1)
      (fun t => t.cpu.pc == 0x000C && t.cpu.st == 1) = true := by
  decide

/-- V-B2. -/
theorem test_br_not_taken :
    after (ready 0x20 [0x61, 0x04])
      (fun t => t.cpu.pc == 0x0022) = true := by
  decide

/-- V-B9: wraps below 0. -/
theorem test_jr :
    after (ready 0x04 [0x62, 0xF0])
      (fun t => t.cpu.pc == 0xFFF6) = true := by
  decide

/-- V-A2. -/
theorem test_add :
    after (((ready 0 [0x81, 0x12]).setReg 1 1).setReg 2 0xFFFF)
      (fun t => t.reg 2 == 0 && t.reg 1 == 1 && t.cpu.st == 0 && t.cpu.pc == 2) = true := by
  decide

/-- V-A11. -/
theorem test_add_same :
    after ((ready 0 [0x81, 0x11]).setReg 1 0x4001)
      (fun t => t.reg 1 == 0x8002) = true := by
  decide

/-- V-A5: reg2 - reg1. -/
theorem test_sub :
    after (((ready 0 [0x82, 0x12]).setReg 1 5).setReg 2 3)
      (fun t => t.reg 2 == 0xFFFE) = true := by
  decide

/-- V-A7. -/
theorem test_mul :
    after (((ready 0 [0x83, 0x12]).setReg 1 0x012C).setReg 2 0x012C)
      (fun t => t.reg 2 == 0x5F90) = true := by
  decide

/-- V-D1: reg2 / reg1. -/
theorem test_div :
    after (((ready 0 [0x84, 0x12]).setReg 1 7).setReg 2 0x64)
      (fun t => t.reg 2 == 0x0E) = true := by
  decide

/-- V-D8. -/
theorem test_div_by_zero :
    after ((((((ready 0x14 [0x84, 0x12]).setReg 2 0x41).setReg 15 0x1000).setItr 0x1A).setSt 1).writeWord 0x1E 0x28)
      (fun t => t.readWord 0x0FFE == 1 && t.readWord 0x0FFC == 0x16 && t.reg 15 == 0x0FFC && t.cpu.st == 5 && t.cpu.pc == 0x28 && t.reg 2 == 0x41) = true := by
  decide

/-- V-A10. -/
theorem test_div_by_zero_stops :
    after (((((ready 0x14 [0x84, 0x12]).setReg 2 0x41).setReg 15 0x1000).setItr 0x1A).setSt 4)
      (fun t => t.cpu.run == .stopped .arith && t.cpu.pc == 0x16 && t.reg 2 == 0x41 && t.reg 15 == 0x1000 && t.cpu.cyc == 0) = true := by
  decide

/-- V-L1. -/
theorem test_and :
    after (((ready 0 [0x85, 0x12]).setReg 1 0x0FF0).setReg 2 0x3C3C)
      (fun t => t.reg 2 == 0x0C30) = true := by
  decide

/-- V-L2. -/
theorem test_or :
    after (((ready 0 [0x86, 0x12]).setReg 1 0x0FF0).setReg 2 0x3C3C)
      (fun t => t.reg 2 == 0x3FFC) = true := by
  decide

/-- V-L3. -/
theorem test_xor :
    after (((ready 0 [0x87, 0x12]).setReg 1 0x0FF0).setReg 2 0x3C3C)
      (fun t => t.reg 2 == 0x33CC) = true := by
  decide

/-- V-S2: logical. -/
theorem test_shr :
    after (((ready 0 [0x88, 0x12]).setReg 1 1).setReg 2 0x8010)
      (fun t => t.reg 2 == 0x4008) = true := by
  decide

/-- V-S5. -/
theorem test_shr_large :
    after (((ready 0 [0x88, 0x12]).setReg 1 16).setReg 2 0x8010)
      (fun t => t.reg 2 == 0) = true := by
  decide

/-- V-S9. -/
theorem test_shl :
    after (((ready 0 [0x89, 0x12]).setReg 1 4).setReg 2 0x8011)
      (fun t => t.reg 2 == 0x0110) = true := by
  decide

/-- V-S11. -/
theorem test_shl_large :
    after (((ready 0 [0x89, 0x12]).setReg 1 16).setReg 2 0x8011)
      (fun t => t.reg 2 == 0) = true := by
  decide

/-- V-C3: D and X are kept. -/
theorem test_test :
    after (((ready 0 [0x8A, 0x12]).setReg 2 0xFFFF).setSt 7)
      (fun t => t.cpu.st == 6) = true := by
  decide

/-- V-C1. -/
theorem test_test_sets :
    after (((ready 0 [0x8A, 0x12]).setReg 1 1).setReg 2 3)
      (fun t => t.cpu.st == 1) = true := by
  decide

/-- V-C7: unsigned. -/
theorem test_cmp :
    after ((((ready 0 [0x8B, 0x12]).setReg 1 0xFFFF).setReg 2 1).setSt 1)
      (fun t => t.cpu.st == 0) = true := by
  decide

/-- V-C4. -/
theorem test_cmp_sets :
    after (((ready 0 [0x8B, 0x12]).setReg 1 3).setReg 2 5)
      (fun t => t.cpu.st == 1) = true := by
  decide

/-- V-C8b. -/
theorem test_equ :
    after ((((ready 0 [0x8C, 0x12]).setReg 1 7).setReg 2 8).setSt 1)
      (fun t => t.cpu.st == 0) = true := by
  decide

/-- V-C8. -/
theorem test_equ_sets :
    after (((ready 0 [0x8C, 0x12]).setReg 1 7).setReg 2 7)
      (fun t => t.cpu.st == 1) = true := by
  decide

/-- V-M1. -/
theorem test_mov :
    after (((ready 0 [0x8D, 0x12]).setReg 1 0xABCD).setReg 2 1)
      (fun t => t.reg 2 == 0xABCD && t.reg 1 == 0xABCD) = true := by
  decide

/-- V-LS2: across the top of memory. -/
theorem test_load :
    after (((ready 0x10 [0x8E, 0x12]).setReg 1 0xFFFF).writeWord 0xFFFF 0xABCD)
      (fun t => t.reg 2 == 0xABCD) = true := by
  decide

/-- V-LS4: address in reg1, data in reg2. -/
theorem test_stor :
    after (((ready 0 [0x8F, 0x12]).setReg 1 0x0200).setReg 2 0xBEEF)
      (fun t => t.readByte 0x0200 == 0xBE && t.readByte 0x0201 == 0xEF) = true := by
  decide

/-- V-LS6: zero-extended. -/
theorem test_loadb :
    after ((((ready 0 [0x90, 0x12]).setReg 1 0x0201).setReg 2 0xFFFF).writeByte 0x0201 0xEF)
      (fun t => t.reg 2 == 0x00EF) = true := by
  decide

/-- V-LS7: one byte only. -/
theorem test_storb :
    after ((((ready 0 [0x91, 0x12]).setReg 1 0x0200).setReg 2 0x1234).writeWord 0x0200 0xAABB)
      (fun t => t.readByte 0x0200 == 0x34 && t.readByte 0x0201 == 0xBB) = true := by
  decide

/-- V-T1. -/
theorem test_loada :
    after (((ready 0 [0x92, 0x12]).setReg 1 0x0300).writeWord 0x0300 1)
      (fun t => t.reg 2 == 1 && t.lock == none) = true := by
  decide

/-- V-T2. -/
theorem test_stora :
    after (((ready 0 [0x93, 0x12]).setReg 1 0x0300).writeWord 0x0300 1)
      (fun t => t.readWord 0x0300 == 0 && t.lock == none) = true := by
  decide

/-- V-T5. -/
theorem test_tnset :
    after ((((ready 0 [0x94, 0x12]).setReg 1 0x0300).setReg 2 0x7777).writeWord 0x0300 0xABCD)
      (fun t => t.reg 2 == 0xABCD && t.readByte 0x0300 == 0 && t.readByte 0x0301 == 1) = true := by
  decide

/-- V-T6. -/
theorem test_tnset_same :
    after (((ready 0 [0x94, 0x11]).setReg 1 0x0300).writeWord 0x0300 0)
      (fun t => t.reg 1 == 0 && t.readWord 0x0300 == 1) = true := by
  decide

/-- V-F5: the operand byte is ignored. -/
theorem test_jmp :
    after (ready 8 [0xC1, 0xFF, 0x01, 0x00])
      (fun t => t.cpu.pc == 0x0100) = true := by
  decide

/-- V-X2. -/
theorem test_call :
    after ((ready 4 [0xC2, 0x00, 0x00, 0x20]).setReg 15 0x1000)
      (fun t => t.readWord 0x0FFE == 8 && t.reg 15 == 0x0FFE && t.cpu.pc == 0x0020) = true := by
  decide

/-- V-X6: the trailing word at address 0. -/
theorem test_loadi :
    after (ready 0xFFFE [0xE1, 0x20, 0xAB, 0xCD])
      (fun t => t.reg 2 == 0xABCD && t.cpu.pc == 2) = true := by
  decide

/-! ## Timer, budget, turns -/

/-- P6 at its boundary `cyc` = 4: the tick saves `st` and `pc`, then the handler's `inc r7` is cycle 5. -/
theorem test_tick_enters :
    after ({ (((((ready 0x000E [0xE1, 0x30, 0x00, 0x02]).writeBytes 0x20 [0x48, 0x70]).writeWord 0x1A 0x20).setReg 15 0x1000).setItr 0x1A).setCyc 4 with period := 4 })
      (fun t => t.readWord 0x0FFC == 0x000E && t.readWord 0x0FFE == 0 && t.cpu.st == 4 && t.cpu.pc == 0x22 && t.reg 7 == 1 && t.cpu.cyc == 5) = true := by
  decide

/-- V-TM1 at `cyc` = 3. -/
theorem test_tick_without_table :
    after ({ ((ready 0x0004 [0x48, 0x20]).setReg 2 1).setCyc 3 with period := 3 })
      (fun t => t.cpu.run == .stopped .timerFail && t.cpu.cyc == 3 && t.cpu.pc == 4 && t.reg 2 == 1 && t.reg 15 == 0) = true := by
  decide

/-- V-TM2 at `cyc` = 2: X is 1. -/
theorem test_tick_dropped :
    after ({ (((ready 0x0006 [0x48, 0x20]).setReg 2 1).setSt 4).setCyc 2 with period := 2 })
      (fun t => t.cpu.run == .running && t.cpu.cyc == 3 && t.reg 2 == 2) = true := by
  decide

/-- V-TM4 at `cyc` = 4: EXHAUSTED, not HALT. -/
theorem test_budget :
    after ({ (ready 0x000C [0x00, 0x00]).setCyc 4 with budget := 4 })
      (fun t => t.cpu.run == .stopped .exhausted && t.cpu.pc == 0x000C && t.cpu.cyc == 4) = true := by
  decide

/-- R60: one access turn of `stor` reads one byte of its word, and memory is as it was. -/
theorem test_access_turn :
    after ({ ready 0 [0x8F, 0x12] with sched := [.access 0 1] })
      (fun t => t.cpu.flight == some { stage := .fetch, todo := [[.read 0 0]], seen := [(1, 0x12)] } && t.cpu.pc == 0 && t.sched == []) = true := by
  decide

/-- R226: a turn of context 0 makes it the active one. -/
theorem test_turn_of_another_context :
    after ({ secondOfTwo [0x48, 0x10] with sched := [.cycle 0] })
      (fun t => t.cpu.id == 0 && t.reg 1 == 1 && t.others == [Context.reset 1 2]) = true := by
  decide

/-- R222: a stopped context does nothing. -/
theorem test_stopped_stays :
    after ((ready 0 [0x48, 0x10]).stop .arith)
      (fun t => t == (ready 0 [0x48, 0x10]).stop .arith) = true := by
  decide

/-- R45, R241, the default launch is the reset state; R262, an illegal count has none. -/
theorem test_launch :
    launch .standard [] = some State.reset ∧ launch { RunConfig.standard with cpuCount := 0 } [] = none := by
  decide

/-- R6, D3: OPMAP is a parameter. A legal table in which `inc` and `dec` have each other's opcodes. -/
def swapped : OpMap :=
  opmap.map fun e => if e.opcode = 0x48 then ⟨0x48, .dec⟩ else if e.opcode = 0x49 then ⟨0x49, .inc⟩ else e

/-- A machine launched with that table runs 48 10 as `dec r1`, and encodes `inc r1` as 49 10. -/
theorem test_another_table :
    after { (ready 0 [0x48, 0x10]).setReg 1 7 with opmap := swapped } (fun t => t.reg 1 == 6 && t.opmap == swapped) = true ∧
      encodeWith swapped (.inc 1) = [0x4910] ∧ decodeWith swapped [0x48, 0x10] = .ok (.dec 1, []) := by
  decide

theorem test_legal_table : swapped.legal = true ∧ opmap.legal = true := by decide

/-- D3: a table is refused at launch if 0x00 is mapped, an instruction is missing, an opcode is used twice, or an opcode has the
class bits of another format. -/
theorem test_illegal_tables :
    OpMap.legal (⟨0x00, .ret⟩ :: opmap.tail) = false ∧ OpMap.legal opmap.tail = false ∧
      OpMap.legal (⟨0x02, .ret⟩ :: opmap.tail) = false ∧ OpMap.legal (⟨0x4D, .ret⟩ :: opmap.tail) = false ∧
      launch { opmap := opmap.tail } [] = none := by
  decide

/-- The placed word is run by the first step after reset: `loadi r3, 0x1234`, and `inc r1` (short, high bits of the number ignored). -/
theorem test_withFetchWord :
    after (State.reset.withFetchWord 32 0x1234E130) (fun t => t.reg 3 == 0x1234 && t.cpu.pc == 4) = true ∧
      after (State.reset.withFetchWord 16 0xFFFF4810) (fun t => t.reg 1 == 1 && t.cpu.pc == 2) = true := by
  decide
/-! ## Witnesses: for every obligation with hypotheses, a state and operands that meet them together -/

/-- A state ready for a cycle, its instruction `inc r1`. -/
def running : State := ready 0x0010 [0x48, 0x10]

/-- In normal execution with a table at 0x0100, whose three vectors are 0x0200, 0x0300, 0x0400; x1 = 5, x2 = 0x64. -/
def withTable : State :=
  (((((((ready 0x0010 [0x48, 0x10]).setItr 0x0100).setReg 15 0x1000).setReg 1 5).setReg 2 0x64).writeWord 0x0100
    0x0200).writeWord 0x0102 0x0300).writeWord 0x0104 0x0400

theorem running_atCycle : running.AtCycle :=
  ⟨rfl, rfl, rfl, .inl rfl, .inl rfl⟩

theorem witness_DecodeInvertsEncode :
    (Instr.bad 0xFF).wellFormed = true ∧ (Instr.loadi 15 0xFFFF).wellFormed = true ∧ Instr.ret.wellFormed = true := by
  decide

theorem witness_DecodeInvertsEncode_another_table :
    swapped.legal = true ∧ (Instr.bad 0xFF).wellFormedIn swapped = true ∧ (Instr.inc 15).wellFormedIn swapped = true := by
  decide

theorem witness_EveryWordDecodes_unmapped :
    opmap.legal = true ∧ opmap.maps 0x00 = false ∧ opmap.maps 0xC0 = false ∧ opmap.maps 0xFF = false := by
  decide

theorem witness_EveryWordDecodes_two_bytes :
    (opmap.maps 0x01 = true ∧ classOf 0x01 ≠ .extended) ∧ (opmap.maps 0x94 = true ∧ classOf 0x94 ≠ .extended) := by
  decide

theorem witness_EveryWordDecodes_four_bytes :
    (opmap.maps 0xC1 = true ∧ classOf 0xC1 = .extended) ∧ (opmap.maps 0xE1 = true ∧ classOf 0xE1 = .extended) ∧
      ([0x12, 0x34] : List Byte) = 0x12 :: 0x34 :: [] ∧ ([0x12] : List Byte).length < 2 := by
  decide

theorem witness_WordAccessIsBigEndian : (0x0000 : Word) ≠ 0xFFFE ∧ (0x0000 : Word) ≠ 0xFFFE + 1 := by decide

theorem witness_StepKeepsMemoryCanonical : withTable.MemoryCanonical ∧ ∃ t, step withTable = .next t := by
  refine ⟨by decide, ?_⟩
  exact ⟨_, rfl⟩

theorem witness_DivideByNonzero : withTable.reg 1 ≠ 0 := by decide

theorem witness_DivideByZero_raises :
    withTable.reg 0 = 0 ∧ flagX withTable.cpu.st = false ∧ withTable.cpu.itr ≠ 0 ∧ (2 : Reg) ≠ Reg.sp := by
  decide

theorem witness_DivideByZero_stops_in_exception :
    (withTable.setSt 4).reg 0 = 0 ∧ flagX (withTable.setSt 4).cpu.st = true := by
  decide

theorem witness_DivideByZero_stops_without_table : running.reg 0 = 0 ∧ running.cpu.itr = 0 := by decide

theorem witness_ComparisonsAssign : (1 : Nat) ≠ 0 ∧ (15 : Nat) ≠ 0 := by decide

theorem witness_Jumps : flagC (running.setSt 1).cpu.st = true ∧ flagC running.cpu.st = false := by decide

theorem witness_Pop : (4 : Reg) ≠ Reg.sp := by decide

theorem witness_lock_free : withTable.lock = none := rfl

theorem witness_Stores : (0x1000 : Word) = withTable.reg (storeAddrReg 15 2) := by decide

theorem witness_AtomicsWait :
    (withTable.setLock (some 1)).lock = some 1 ∧
      (Instr.tnset 1 2 = .loada 1 2 ∨ Instr.tnset 1 2 = .stora 1 2 ∨ Instr.tnset 1 2 = .tnset 1 2) := by
  decide

theorem witness_Trap_raises : flagX withTable.cpu.st = false ∧ withTable.cpu.itr ≠ 0 := by decide

theorem witness_Trap_refused : flagX (withTable.setSt 4).cpu.st = true ∧ running.cpu.itr = 0 := by decide

theorem witness_Raise_refused :
    withTable.raise 3 = none ∧ running.raise 0 = none ∧ (withTable.setSt 4).raise 0 = none := by
  decide

theorem witness_Raise_each_kind :
    (withTable.raise 0).isSome = true ∧ (withTable.raise 1).isSome = true ∧ (withTable.raise 2).isSome = true := by
  decide

/-- For `RaiseIsRefusedOrEntersTheHandler` and `IretUndoesAnEntry`: a bit other than X, and an entry. -/
theorem witness_IretUndoesAnEntry : ∃ t, withTable.raise 1 = some t := by
  cases h : withTable.raise 1 with
  | some t => exact ⟨t, rfl⟩
  | none => exact absurd witness_Raise_each_kind.2.1 (by rw [h]; decide)

theorem witness_NestingGuard :
    flagX (withTable.setSt 4).cpu.st = true ∧ (withTable.setSt 4).reg 0 = 0 ∧ (withTable.setSt 4).cpu.run = .running ∧
      (withTable.setSt 4).budget = 0 := by
  decide

theorem witness_NestingGuard_last_budgeted_cycle :
    let s := { (withTable.setSt 4).setCyc 4 with budget := 5 }
    flagX s.cpu.st = true ∧ s.cpu.run = .running ∧ s.cpu.cyc < s.budget := by
  decide

/-- For `ConditionFlagHasFourWritersAndOneReader`, `DebugFlagHasNoEffect`, `ControlRegistersHaveTheNamedWriters`: each named
writer answers a next state, and so does an instruction that is none of them. -/
theorem witness_status_writers :
    (∃ t, exec (.test 1 2) withTable = .next t) ∧ (∃ t, exec (.cmp 1 2) withTable = .next t) ∧
      (∃ t, exec (.equ 1 2) withTable = .next t) ∧ (∃ t, exec .iret withTable = .next t) ∧
      ∃ t, exec (.add 1 2) withTable = .next t :=
  ⟨⟨_, rfl⟩, ⟨_, rfl⟩, ⟨_, rfl⟩, ⟨_, rfl⟩, ⟨_, rfl⟩⟩

theorem witness_status_not_a_writer :
    (∀ ra rb, Instr.add 1 2 ≠ .test ra rb ∧ Instr.add 1 2 ≠ .cmp ra rb ∧ Instr.add 1 2 ≠ .equ ra rb) ∧
      Instr.add 1 2 ≠ .iret ∧ (∀ off, Instr.add 1 2 ≠ .br off) ∧ Instr.add 1 2 ≠ .trap ∧
      (∀ ra rb, Instr.add 1 2 ≠ .div ra rb) ∧ Instr.add 1 2 ≠ .cld ∧ Instr.add 1 2 ≠ .std ∧ Instr.add 1 2 ≠ .cli ∧
      Instr.add 1 2 ≠ .sti ∧ ∀ ra, Instr.add 1 2 ≠ .lit ra := by
  simp

theorem witness_ControlRegisters_bits : (3 : Nat) ≤ 3 ∧ (3 : Nat) ≤ 15 := by decide

theorem witness_StepRunsTheDecodedInstruction :
    running.AtCycle ∧
      decodeWith running.opmap [running.readByte running.cpu.pc, running.readByte (running.cpu.pc + 1), running.readByte (running.cpu.pc + 2),
        running.readByte (running.cpu.pc + 3)] = .ok (.inc 1, [0, 0]) ∧
      ∃ t, exec (.inc 1) (running.setPc (running.cpu.pc + 2)) = .next t ∧ (Instr.inc 1).isBad = false ∧
        t.cpu.run = .running ∧ t.cpu.flight = none :=
  ⟨running_atCycle, by decide, _, rfl, rfl, rfl, rfl⟩

theorem witness_only_unmapped_halts :
    running.AtCycle ∧ running.opmap.maps (running.readByte running.cpu.pc) = true ∧ ∃ t, step running = .next t :=
  ⟨running_atCycle, by decide, _, rfl⟩

theorem witness_UnmappedOpcodeHalts :
    State.reset.AtCycle ∧ State.reset.opmap.maps (State.reset.readByte State.reset.cpu.pc) = false :=
  ⟨⟨rfl, rfl, rfl, .inl rfl, .inl rfl⟩, by decide⟩

/-- At the boundary of the budget: spent with `cyc` = BUDGET, not spent with one cycle left, and unlimited. -/
theorem witness_BudgetStops :
    let s := { running.setCyc 5 with budget := 5 }
    let l := { running.setCyc 4 with budget := 5 }
    (s.sched = [] ∧ s.cpu.run = .running ∧ s.cpu.flight = none ∧ s.budget ≠ 0 ∧ s.budget ≤ s.cpu.cyc) ∧
      (l.sched = [] ∧ l.cpu.run = .running ∧ l.cpu.flight = none ∧ l.cpu.cyc < l.budget) ∧ running.budget = 0 := by
  decide

theorem witness_BudgetStops_next : ∃ t, step { running.setCyc 4 with budget := 5 } = .next t := ⟨_, rfl⟩

theorem witness_StepKeepsWithinBudget :
    let s := { running.setCyc 4 with budget := 5 }
    s.WithinBudget ∧ s.budget ≠ 0 ∧ ∃ t, step s = .next t := by
  refine ⟨fun _ c hc => ?_, by decide, _, rfl⟩
  obtain rfl := List.mem_singleton.1 (show c ∈ [(running.setCyc 4).cpu] from hc)
  exact ⟨by decide, by decide⟩

theorem witness_TickWithoutATable :
    let s := { running.setCyc 3 with period := 3 }
    s.sched = [] ∧ s.cpu.run = .running ∧ s.cpu.flight = none ∧ s.budget = 0 ∧ s.period ≠ 0 ∧ s.cpu.cyc ≠ 0 ∧
      s.cpu.cyc % s.period = 0 ∧ flagX s.cpu.st = false ∧ s.cpu.itr = 0 := by
  decide

theorem witness_TickEnters :
    let s := { withTable.setCyc 6 with period := 3, budget := 7 }
    s.sched = [] ∧ s.cpu.run = .running ∧ s.cpu.flight = none ∧ s.cpu.cyc < s.budget ∧ s.period ≠ 0 ∧ s.cpu.cyc ≠ 0 ∧
      s.cpu.cyc % s.period = 0 ∧ flagX s.cpu.st = false ∧ s.cpu.itr ≠ 0 := by
  decide

/-- Each way in which no tick is taken: PERIOD 0, before the first cycle, off a multiple, in-exception. -/
theorem witness_AtCycle :
    running.AtCycle ∧ State.AtCycle { running with period := 3 } ∧ State.AtCycle { running.setCyc 4 with period := 3 } ∧
      State.AtCycle { (running.setSt 4).setCyc 3 with period := 3 } :=
  ⟨running_atCycle, ⟨rfl, rfl, rfl, .inl rfl, .inr (.inl rfl)⟩, ⟨rfl, rfl, rfl, .inl rfl, .inr (.inr (.inl (by decide)))⟩,
    ⟨rfl, rfl, rfl, .inl rfl, .inr (.inr (.inr (by decide)))⟩⟩

/-- Two contexts; the active one has stopped, and the other has a turn. -/
def oneStopped : State := { (secondOfTwo [0x48, 0x10]).stop .arith with sched := [.cycle 0] }

theorem witness_StoppedContexts :
    (∃ t, step oneStopped = .next t) ∧ oneStopped.cpu ∈ oneStopped.contexts ∧ oneStopped.cpu.run = .stopped .arith :=
  ⟨⟨_, rfl⟩, by simp [State.contexts], rfl⟩

theorem witness_step_next : ∃ t, step oneStopped = .next t ∧ oneStopped.contexts.length = 2 := ⟨_, rfl, rfl⟩

/-- Context 0 is about to release LOCK, context 1 waits for it. -/
def holding : State :=
  { ready 0 [0x92, 0x12] with
    cpu := { Context.reset 0 2 with pc := 2, flight := some { stage := .handler (.loada 1 2), todo := [[.release]], seen := [] } }
    others := [{ Context.reset 1 2 with
      pc := 2
      flight := some { stage := .handler (.loada 1 2), todo := lockedPlan [readWordAccesses 0 0], seen := [] } }]
    lock := some 0 }

theorem witness_StepKeepsLockDiscipline : holding.LockDiscipline ∧ ∃ t, step holding = .next t := by
  refine ⟨⟨by decide, ?_, ?_, ?_, ?_⟩, _, rfl⟩
  · intro c hc
    simp only [State.contexts, holding, List.mem_cons, List.not_mem_nil, or_false] at hc
    rcases hc with rfl | rfl <;> decide
  · intro k hk
    exact ⟨holding.cpu, by simp [State.contexts], by simpa [holding, Context.reset] using hk⟩
  · intro c hc f hf
    simp only [State.contexts, holding, List.mem_cons, List.not_mem_nil, or_false] at hc
    rcases hc with rfl | rfl
    · cases hf; exact ⟨[], by simp, .inr (.inl rfl)⟩
    · cases hf; exact ⟨[readWordAccesses 0 0], by simp [LockFree, readWordAccesses], .inr (.inr rfl)⟩
  · intro c hc _
    simp only [State.contexts, holding, List.mem_cons, List.not_mem_nil, or_false] at hc
    rcases hc with rfl | rfl <;> rfl

theorem witness_UninterruptedAccesses :
    withTable.MemoryCanonical ∧ withTable.lock = none ∧ withTable.cpu.run = .running ∧ withTable.cpu.flight = none ∧
      14 ≤ [0, 1, 0, 1, 0, 1, 0, 1, 0, 1, 0, 1, 0, 1].length := by
  decide

/-- Two contexts with the address of one word, 0x0300, which holds 0, in x1 (id 1) and x4 (id 0). -/
def twoAtTheLock : State :=
  ({ secondOfTwo [0x94, 0x12] with
      others := [{ Context.reset 0 2 with regs := (Vector.replicate 16 0).set 4 0x0300 }] }).setReg 1 0x0300

theorem witness_SecondTnset :
    twoAtTheLock.lock = none ∧ twoAtTheLock.readWord (twoAtTheLock.reg 1) = 0 ∧
      ∃ t u v, exec (.tnset 1 2) twoAtTheLock = .next t ∧ t.switchTo 0 = some u ∧ u.cpu.id ≠ t.cpu.id ∧
        u.reg 4 = twoAtTheLock.reg 1 ∧ exec (.tnset 4 5) u = .next v :=
  ⟨rfl, by decide, _, _, _, rfl, rfl, by decide, rfl, rfl⟩

theorem witness_PushThenPop : (0 : Reg) ≠ Reg.sp ∧ (14 : Reg) ≠ Reg.sp := by decide

theorem witness_CallThenRet :
    (Instr.call 0x20 = .call 0x20 ∨ Instr.call 0x20 = .callr 3) ∧ (Instr.callr 3 = .call 0x20 ∨ Instr.callr 3 = .callr 3) := by
  decide

theorem witness_Launch :
    (∃ s, launch { opmap := swapped, cpuCount := 2, period := 4 } [0x48, 0x10] = some s) ∧
      launch { RunConfig.standard with cpuCount := 65536 } [] = none :=
  ⟨⟨_, if_pos (by decide)⟩, by decide⟩

theorem witness_PlacedWord :
    decodeTableWith State.reset.opmap 16 0x4810 = some (.inc 1) ∧
      decodeTableWith State.reset.opmap 32 0x1234E130 = some (.loadi 3 0x1234) := by
  decide

theorem witness_DecodedOperands :
    opmap.lookup 0x41 = some .neg ∧ opmap.lookup 0x94 = some .tnset ∧ opmap.lookup 0xE1 = some .loadi ∧
      swapped.lookup 0x48 = some .dec := by
  decide

/-- Context 1 is about to store 0x1234 at 0x0200 (x1, x2); context 0 has that address in x4. -/
def storing : State :=
  ({ (secondOfTwo [0x8F, 0x12]).setReg 1 0x0200 with
      others := [{ Context.reset 0 2 with regs := (Vector.replicate 16 0).set 4 0x0200 }] }).setReg 2 0x1234

/-- Both choices of the byte written first. -/
theorem witness_LoadBetweenTheBytes :
    storing.cpu.run = .running ∧ (0 : Word) ≠ storing.cpu.id ∧ ∀ pick ∈ [0, 1],
      ∃ t u, (storing.enterHandler (.stor 1 2)).accessTurn pick = .next t ∧ t.switchTo 0 = some u ∧
        u.reg 4 = storing.reg (storeAddrReg 1 2) := by
  refine ⟨rfl, by decide, fun pick hp => ?_⟩
  simp only [List.mem_cons, List.not_mem_nil, or_false] at hp
  rcases hp with rfl | rfl
  · exact ⟨_, _, rfl, rfl, rfl⟩
  · exact ⟨_, _, rfl, rfl, rfl⟩

theorem witness_OpcodeTable :
    (∃ t, step running = .next t) ∧ opmap.legal = true ∧ ∃ t, exec (.tnset 1 2) withTable = .next t :=
  ⟨⟨_, rfl⟩, by decide, _, rfl⟩

end Sys2Proof.Tests
end

/-! Proofs about the machine's state (10_state.md): the status and control registers over all instructions, the output, the
stack's round trip, and the state at reset and launch. -/

namespace Sys2Proof.Machine

/-! ## The bits of the state register (10_state.md R28 to R31) -/

/-- Clearing one bit of a word and no other. -/
theorem getLsbD_and_not_twoPow (w : Word) {j k : Nat} (hk : k ≠ j) :
    (w &&& ~~~BitVec.twoPow 16 j).getLsbD k = w.getLsbD k := by
  by_cases h : k < 16
  · have hbit : (BitVec.twoPow 16 j).getLsbD k = false := by simp [BitVec.getLsbD_twoPow, hk.symm]
    simp only [BitVec.getLsbD_and, BitVec.getLsbD_not, hbit, h, decide_true, Bool.not_false, Bool.and_true]
  · rw [BitVec.getLsbD_of_ge _ _ (Nat.le_of_not_lt h), BitVec.getLsbD_of_ge _ _ (Nat.le_of_not_lt h)]

/-- Setting one bit of a word and no other. -/
theorem getLsbD_or_twoPow (w : Word) {j k : Nat} (hk : k ≠ j) : (w ||| BitVec.twoPow 16 j).getLsbD k = w.getLsbD k := by
  simp [BitVec.getLsbD_twoPow, hk.symm]

/-- Inverting one bit of a word and no other. -/
theorem getLsbD_xor_twoPow (w : Word) {j k : Nat} (hk : k ≠ j) : (w ^^^ BitVec.twoPow 16 j).getLsbD k = w.getLsbD k := by
  simp [BitVec.getLsbD_twoPow, hk.symm]

theorem getLsbD_clearD (st : Word) {k : Nat} (hk : k ≠ 1) : (clearD st).getLsbD k = st.getLsbD k :=
  getLsbD_and_not_twoPow st hk

theorem getLsbD_setD (st : Word) {k : Nat} (hk : k ≠ 1) : (setD st).getLsbD k = st.getLsbD k := by
  rw [setD, show 0x0002#16 = BitVec.twoPow 16 1 by decide, getLsbD_or_twoPow st hk]

theorem getLsbD_clearX (st : Word) {k : Nat} (hk : k ≠ 2) : (clearX st).getLsbD k = st.getLsbD k :=
  getLsbD_and_not_twoPow st hk

theorem getLsbD_setX (st : Word) {k : Nat} (hk : k ≠ 2) : (setX st).getLsbD k = st.getLsbD k := by
  rw [setX, show 0x0004#16 = BitVec.twoPow 16 2 by decide, getLsbD_or_twoPow st hk]

/-! ## What every instruction does to `st` and `itr` -/

/-- The state register after an instruction (R29 to R31, R115, R205, R219). -/
def statusAfter (i : Instr) (s : State) : Word :=
  match i with
  | .cld => clearD s.cpu.st
  | .std => setD s.cpu.st
  | .cli => clearX s.cpu.st
  | .sti => setX s.cpu.st
  | .iret => s.readWord (s.reg Reg.sp + 2)
  | .trap => if s.cpu.accepts then setX s.cpu.st else s.cpu.st
  | .div ra _ => if s.reg ra = 0 ∧ s.cpu.accepts then setX s.cpu.st else s.cpu.st
  | .test ra rb => assignC s.cpu.st (condTest (s.reg ra) (s.reg rb))
  | .cmp ra rb => assignC s.cpu.st (condCmp (s.reg ra) (s.reg rb))
  | .equ ra rb => assignC s.cpu.st (condEqu (s.reg ra) (s.reg rb))
  | _ => s.cpu.st

/-- The interrupt-table register after an instruction (R129). -/
def tableAfter (i : Instr) (s : State) : Word :=
  match i with
  | .lit ra => s.reg ra
  | _ => s.cpu.itr

/-- The two outcomes of an atomic. -/
theorem State.withLock_cases (s : State) (i : Instr) (body : State → State) :
    s.withLock i body = body s ∨ s.withLock i body = s.enterHandler i := by
  cases h : s.lock with
  | none => exact .inl (State.withLock_free h i body)
  | some k => exact .inr (State.withLock_held h i body)

/-- An accepted exception sets X and keeps the rest of `st`, and `itr` (R205). -/
theorem raise_control {s t : State} {kind : Nat} (h : s.raise kind = some t) :
    s.cpu.accepts = true ∧ t.cpu.st = setX s.cpu.st ∧ t.cpu.itr = s.cpu.itr := by
  obtain ⟨⟨hx, hitr, -⟩, rfl⟩ := State.raise_eq_some h
  exact ⟨by simpa [Context.accepts, hx] using hitr, rfl, rfl⟩

/-- A refused exception of one of the three kinds was not to be accepted (R204). -/
theorem not_accepts_of_raise {s : State} {kind : Nat} (h : s.raise kind = none) (hk : kind ≤ 2) :
    ¬ s.cpu.accepts = true := by
  intro ha
  obtain ⟨t, ht⟩ := State.raise_isSome ha hk
  simp [h] at ht

/-- `iret` loads the second word of the stack into `st` (R115, R213). -/
theorem State.returnFromException_st (s : State) :
    s.returnFromException.cpu.st = s.readWord (s.reg Reg.sp + 2) := by
  simp only [State.returnFromException, State.setSt_st, State.top, State.dropTop_reg, if_true]
  rfl

/-- Every instruction leaves `st` and `itr` as `statusAfter` and `tableAfter` say. -/
theorem exec_control {i : Instr} {s t : State} (h : exec i s = .next t) :
    t.cpu.st = statusAfter i s ∧ t.cpu.itr = tableAfter i s := by
  have atomic : ∀ (j : Instr) (body : State → State), (body s).cpu.st = s.cpu.st → (body s).cpu.itr = s.cpu.itr →
      (s.withLock j body).cpu.st = s.cpu.st ∧ (s.withLock j body).cpu.itr = s.cpu.itr := by
    intro j body hst hitr
    rcases s.withLock_cases j body with he | he <;> rw [he]
    · exact ⟨hst, hitr⟩
    · exact ⟨rfl, rfl⟩
  cases i
  case trap =>
    simp only [exec, execTrap] at h
    split at h <;> cases h
    case h_1 hr => obtain ⟨ha, hst, hitr⟩ := raise_control hr; exact ⟨by simp [statusAfter, ha, hst], hitr⟩
    case h_2 hr => exact ⟨by simp [statusAfter, not_accepts_of_raise hr (by decide)], rfl⟩
  case div ra rb =>
    simp only [exec, execDiv] at h
    split at h
    case isTrue hz =>
      split at h <;> cases h
      case h_1 hr => obtain ⟨ha, hst, hitr⟩ := raise_control hr; exact ⟨by simp [statusAfter, hz, ha, hst], hitr⟩
      case h_2 hr => exact ⟨by simp [statusAfter, State.stop, not_accepts_of_raise hr (by decide)], rfl⟩
    case isFalse hz => cases h; exact ⟨(if_neg fun ⟨h0, _⟩ => hz h0).symm, rfl⟩
  case br off => cases h; by_cases hc : flagC s.cpu.st = true <;> simp [hc, statusAfter, tableAfter]
  case loada ra rb => cases h; exact atomic _ _ rfl rfl
  case stora ra rb => cases h; exact atomic _ _ rfl rfl
  case tnset ra rb => cases h; exact atomic _ _ rfl rfl
  case iret => cases h; exact ⟨s.returnFromException_st, rfl⟩
  all_goals cases h; exact ⟨rfl, rfl⟩

/-! ## What depends on `st` -/

/-- An atomic waits or runs whatever `st` is, if its body does not depend on `st` and its accesses do not. -/
theorem State.withLock_setSt {s : State} {i : Instr} {body : State → State} {v : Word}
    (hbody : body (s.setSt v) = (body s).setSt v) (hplan : plan (s.setSt v).cpu i = plan s.cpu i) :
    (s.setSt v).withLock i body = (s.withLock i body).setSt v := by
  cases hl : s.lock with
  | none => rw [State.withLock_free hl, State.withLock_free (s := s.setSt v) hl, hbody]
  | some k =>
    rw [State.withLock_held hl, State.withLock_held (s := s.setSt v) hl, State.enterHandler, hplan]
    rfl

/-- Only `br` (by C) and the entries of `trap` and `div` (which save `st`) depend on `st` in anything but `st` (R29, R30). -/
theorem exec_setSt {i : Instr} {s t : State} {v : Word} (hbr : ∀ off, i = .br off → flagC v = flagC s.cpu.st)
    (htrap : i ≠ .trap) (hdiv : ∀ ra rb, i ≠ .div ra rb) (h : exec i s = .next t) :
    exec i (s.setSt v) = .next (t.setSt (statusAfter i (s.setSt v))) := by
  cases i
  case trap => exact absurd rfl htrap
  case div ra rb => exact absurd rfl (hdiv ra rb)
  case br off =>
    cases h
    have hv := hbr off rfl
    simp only [exec, execBr, State.setSt_st, hv]
    split <;> rfl
  case loada ra rb => cases h; refine congrArg Host.Outcome.next (State.withLock_setSt ?_ ?_) <;> rfl
  case stora ra rb => cases h; refine congrArg Host.Outcome.next (State.withLock_setSt ?_ ?_) <;> rfl
  case tnset ra rb => cases h; refine congrArg Host.Outcome.next (State.withLock_setSt ?_ ?_) <;> rfl
  case iret => cases h; exact congrArg Host.Outcome.next (congrArg s.returnFromException.setSt s.returnFromException_st)
  all_goals cases h; rfl

/-! ## The flags over all instructions -/

/-- Exception entry keeps C. -/
theorem flagC_of_raise {s t : State} {kind : Nat} (h : s.raise kind = some t) : flagC t.cpu.st = flagC s.cpu.st := by
  obtain ⟨-, hst, -⟩ := raise_control h
  rw [hst]
  exact getLsbD_setX _ (by decide)

/-- A bit of `st` is kept by every instruction but its named writers (R28 to R31, decision D13). -/
theorem getLsbD_statusAfter {i : Instr} (s : State) {k : Nat} (hiret : i ≠ .iret)
    (hC : k = 0 → ∀ ra rb, i ≠ .test ra rb ∧ i ≠ .cmp ra rb ∧ i ≠ .equ ra rb)
    (hD : k = 1 → i ≠ .cld ∧ i ≠ .std)
    (hX : k = 2 → i ≠ .cli ∧ i ≠ .sti ∧ i ≠ .trap ∧ ∀ ra rb, i ≠ .div ra rb) :
    (statusAfter i s).getLsbD k = s.cpu.st.getLsbD k := by
  cases i
  case iret => exact absurd rfl hiret
  case cld => exact getLsbD_clearD _ fun hk => (hD hk).1 rfl
  case std => exact getLsbD_setD _ fun hk => (hD hk).2 rfl
  case cli => exact getLsbD_clearX _ fun hk => (hX hk).1 rfl
  case sti => exact getLsbD_setX _ fun hk => (hX hk).2.1 rfl
  case trap =>
    simp only [statusAfter]
    split <;> [exact getLsbD_setX _ fun hk => (hX hk).2.2.1 rfl; rfl]
  case div ra rb =>
    simp only [statusAfter]
    split <;> [exact getLsbD_setX _ fun hk => (hX hk).2.2.2 ra rb rfl; rfl]
  case test ra rb => exact getLsbD_assignC _ _ fun hk => (hC hk ra rb).1 rfl
  case cmp ra rb => exact getLsbD_assignC _ _ fun hk => (hC hk ra rb).2.1 rfl
  case equ ra rb => exact getLsbD_assignC _ _ fun hk => (hC hk ra rb).2.2 rfl
  all_goals rfl

/-- Settles O33: the writers of C come from what `st` is after each instruction, its reader from what depends on `st`. -/
theorem conditionFlagHasFourWritersAndOneReader : Obligations.ConditionFlagHasFourWritersAndOneReader := by
  refine ⟨fun i s t h => ?_, fun s t kind h => flagC_of_raise h, fun i s t c hbr htrap hdiv h => ?_⟩
  · obtain ⟨hst, -⟩ := exec_control h
    rw [hst]
    refine ⟨?_, ?_, ?_, ?_, fun hC hiret => getLsbD_statusAfter s hiret (fun _ => hC) (by simp) (by simp)⟩
    · rintro ra rb rfl; simp [statusAfter, condTest]
    · rintro ra rb rfl; simp [statusAfter, condCmp]
    · rintro ra rb rfl; simp [statusAfter, condEqu]
    · rintro rfl; rfl
  · exact ⟨_, exec_setSt (fun off e => absurd e (hbr off)) htrap hdiv h, rfl⟩

/-- Inverting D, as the statement writes it, leaves every other bit. -/
theorem getLsbD_invertD (st : Word) {k : Nat} (hk : k ≠ 1) : (st ^^^ 0x0002).getLsbD k = st.getLsbD k := by
  rw [show (0x0002 : Word) = BitVec.twoPow 16 1 by decide, getLsbD_xor_twoPow st hk]

/-- No instruction but `trap` and `div` moves information between bits of `st`: each bit it leaves depends on that bit alone. -/
theorem getLsbD_statusAfter_congr {i : Instr} {s : State} {v : Word} {k : Nat} (htrap : i ≠ .trap)
    (hdiv : ∀ ra rb, i ≠ .div ra rb) (hv : v.getLsbD k = s.cpu.st.getLsbD k) :
    (statusAfter i (s.setSt v)).getLsbD k = (statusAfter i s).getLsbD k := by
  have assign : ∀ c, (assignC v c).getLsbD k = (assignC s.cpu.st c).getLsbD k := by
    simp only [assignC, BitVec.getLsbD_or, BitVec.getLsbD_and, hv, implies_true]
  cases i
  case trap => exact absurd rfl htrap
  case div ra rb => exact absurd rfl (hdiv ra rb)
  case cld => simp only [statusAfter, State.setSt_st, clearD, BitVec.getLsbD_and, hv]
  case std => simp only [statusAfter, State.setSt_st, setD, BitVec.getLsbD_or, hv]
  case cli => simp only [statusAfter, State.setSt_st, clearX, BitVec.getLsbD_and, hv]
  case sti => simp only [statusAfter, State.setSt_st, setX, BitVec.getLsbD_or, hv]
  case iret => rfl
  case test ra rb => exact assign _
  case cmp ra rb => exact assign _
  case equ ra rb => exact assign _
  all_goals exact hv

/-- Settles O34: D is not among the inputs of `exec_setSt`, and no bit of `st` goes to another. -/
theorem debugFlagHasNoEffect : Obligations.DebugFlagHasNoEffect := by
  intro i s t htrap hdiv h
  obtain ⟨hst, -⟩ := exec_control h
  have hC : flagC (s.cpu.st ^^^ 0x0002) = flagC s.cpu.st := getLsbD_invertD _ (by decide)
  refine ⟨_, exec_setSt (fun _ _ => hC) htrap hdiv h, rfl, fun k hk => ?_⟩
  rw [State.setSt_st, hst]
  exact getLsbD_statusAfter_congr htrap hdiv (getLsbD_invertD _ hk)

/-- Only `lit` writes `itr` (R32). -/
theorem tableAfter_of_ne_lit {i : Instr} (s : State) (hlit : ∀ ra, i ≠ .lit ra) : tableAfter i s = s.cpu.itr := by
  cases i
  case lit ra => exact absurd rfl (hlit ra)
  all_goals rfl

/-- Settles O35: each clause is `getLsbD_statusAfter` at one bit, or what `exec_control` says of `itr`. -/
theorem controlRegistersHaveTheNamedWriters : Obligations.ControlRegistersHaveTheNamedWriters := by
  intro i s t h
  obtain ⟨hst, hitr⟩ := exec_control h
  have kept := (exec_effect h).kept
  rw [hst, hitr]
  refine ⟨fun hiret k hk => ?_, fun hiret hcli hsti htrap hdiv => ?_, fun hiret hcld hstd => ?_, tableAfter_of_ne_lit s, kept.id,
    kept.cnt⟩
  · exact getLsbD_statusAfter s hiret (by omega) (by omega) (by omega)
  · exact getLsbD_statusAfter s hiret (by simp) (by simp) fun _ => ⟨hcli, hsti, htrap, hdiv⟩
  · exact getLsbD_statusAfter s hiret (by simp) (fun _ => ⟨hcld, hstd⟩) (by simp)

/-! ## Output -/

/-- The output is as before, or as before and one byte more (R44). -/
def EmitsAtMostOne (s t : State) : Prop := t.outq = s.outq ∨ ∃ b, t.outq = s.outq ++ [b]

/-- What happens before and after the emission leaves the output alone. -/
theorem EmitsAtMostOne.of_outq_eq {s s' t t' : State} (h : EmitsAtMostOne s t) (hs : s.outq = s'.outq)
    (ht : t'.outq = t.outq) : EmitsAtMostOne s' t' := by
  unfold EmitsAtMostOne at h ⊢
  rwa [ht, ← hs]

theorem EmitsAtMostOne.refl (s : State) : EmitsAtMostOne s s := .inl rfl

/-- The end of a stage emits nothing. -/
theorem finishStage_outq {s t : State} {f : Flight} (h : s.finishStage f = .next t) : t.outq = s.outq := by
  cases finishStage_end h with
  | finished he => exact he.outq
  | goesOn _ _ ho => exact ho

/-- R44: one access of a cycle emits at most one byte. -/
theorem accessFlight_outq {s t : State} {f : Flight} {pick : Nat} (h : s.accessFlight f pick = .next t) :
    EmitsAtMostOne s t := by
  rcases accessFlight_cases h with ⟨-, hs⟩ | ⟨_, -, -, rfl⟩ | ⟨x, rest, u, g, -, hp, hend⟩
  · exact .inl (finishStage_outq hs)
  · exact .inl rfl
  · have htu : t.outq = u.outq := by
      rcases hend with ⟨-, hs⟩ | ⟨-, rfl⟩
      · exact finishStage_outq hs
      · rfl
    refine EmitsAtMostOne.of_outq_eq (s := s) (t := u) ?_ rfl htu
    obtain ⟨-, -, hx⟩ := perform_cases hp
    rcases hx with ⟨_, _, -, rfl⟩ | ⟨_, _, -, rfl⟩ | ⟨-, -, rfl⟩ | ⟨-, rfl⟩ | ⟨b, -, rfl⟩
    · exact .inl rfl
    · exact .inl rfl
    · exact .inl rfl
    · exact .inl rfl
    · exact .inr ⟨b, rfl⟩

/-- An access turn emits at most one byte. -/
theorem accessTurn_outq {s t : State} {pick : Nat} (h : s.accessTurn pick = .next t) : EmitsAtMostOne s t := by
  rcases accessTurn_cases h with ⟨-, rfl⟩ | ⟨-, f, -, hf⟩ | ⟨-, -, ⟨-, rfl⟩ | ⟨-, rfl⟩ | ⟨-, hf⟩ | ⟨-, hf⟩⟩
  · exact .inl rfl
  · exact accessFlight_outq hf
  · exact .inl rfl
  · exact .inl rfl
  · exact accessFlight_outq hf
  · exact accessFlight_outq hf

theorem endCycle_outq (s : State) (i : Instr) : (s.endCycle i).outq = s.outq := by
  rcases endCycle_cases s i with ⟨-, he⟩ | ⟨he, -⟩ | ⟨he, -⟩ <;> rw [he] <;> rfl

/-- A cycle emits what its instruction emits. -/
theorem runCycle_outq {s t : State} (h : s.runCycle = .next t) : EmitsAtMostOne s t := by
  obtain ⟨u, hu, rfl⟩ := runCycle_cases h
  have hexec : EmitsAtMostOne (s.setPc (s.cpu.pc + 2)) u := (exec_effect hu).outq
  exact hexec.of_outq_eq rfl (endCycle_outq u _)

theorem raise_outq {s t : State} {kind : Nat} (h : s.raise kind = some t) : t.outq = s.outq := by
  obtain ⟨-, rfl⟩ := State.raise_eq_some h
  rfl

/-- A round of the loop emits at most one byte: the entry of a tick emits none. -/
theorem loopRound_outq {s t : State} (h : s.loopRound = .next t) : EmitsAtMostOne s t := by
  rcases loopRound_cases h with ⟨-, rfl⟩ | ⟨-, ⟨-, rfl⟩ | ⟨-, rfl⟩ | ⟨-, u, hr, hu⟩ | ⟨-, hc⟩⟩
  · exact .inl rfl
  · exact .inl rfl
  · exact .inl rfl
  · exact (runCycle_outq hu).of_outq_eq (raise_outq hr) rfl
  · exact runCycle_outq hc

/-- Settles O46, by the cases of a turn: only an `emit` access and the instruction `out` reach the output. -/
theorem outputOnlyGrows : Obligations.OutputOnlyGrows := by
  intro s t h
  obtain ⟨u, -, -, -, ho, -, -, -, hturn⟩ := step_cases h
  have hemit : EmitsAtMostOne u t := by
    rcases hturn with rfl | ⟨-, hl⟩ | ⟨pick, ha⟩
    · exact .refl _
    · exact loopRound_outq hl
    · exact accessTurn_outq ha
  exact hemit.of_outq_eq ho rfl

/-! ## Round trip of the stack -/

/-- Settles O51: pop reads the word pushed, and r' other than 15 leaves the stack pointer where the pop put it. -/
theorem pushThenPopMovesTheValue : Obligations.PushThenPopMovesTheValue := by
  intro s ra rb hrb
  have hsp : ((s.push (s.reg ra)).dropTop.setReg rb (s.push (s.reg ra)).top).reg Reg.sp = s.reg Reg.sp := by
    simp [hrb]
  refine ⟨_, _, rfl, rfl, by simp, hsp, rfl, ?_⟩
  refine ⟨⟨fun r hr => ?_, fun a ha => ?_, rfl, rfl, rfl, rfl, rfl, rfl, rfl, rfl, rfl, rfl⟩, rfl, rfl, rfl, rfl⟩
  · have hr : rb ≠ r := fun e => hr (by simp [e])
    by_cases h : Reg.sp = r
    · exact h ▸ hsp
    · simp [hr, h]
  · have ha : a ≠ s.pushAddr + 1 ∧ a ≠ s.pushAddr := ⟨fun e => ha (by simp [e]), fun e => ha (by simp [e])⟩
    exact (s.readByte_push (s.reg ra) a).trans (by rw [if_neg ha.1, if_neg ha.2])

end Sys2Proof.Machine

namespace Sys2Proof

/-- The parts of a legal configuration (R6, decisions D3 and D20). -/
theorem RunConfig.legal_iff (c : RunConfig) :
    c.legal = true ↔ (1 ≤ c.cpuCount ∧ c.cpuCount ≤ 65535) ∧ c.opmap.legal = true := by
  simp [RunConfig.legal]

end Sys2Proof

namespace Sys2Proof.Machine

/-! ## Reset and launch -/

/-- A machine whose contexts are all between cycles, with distinct ids and LOCK free, keeps the lock discipline. -/
theorem lockDiscipline_of_between {s : State} (hids : (s.contexts.map (·.id)).Nodup) (hlock : s.lock = none)
    (hflight : ∀ c ∈ s.contexts, c.flight = none) : s.LockDiscipline where
  ids := hids
  held c hc := by simp [Context.insideLock, hflight c hc, hlock]
  owner k hk := by simp [hlock] at hk
  shape c hc f hf := by simp [hflight c hc] at hf
  running c hc hf := by simp [hflight c hc] at hf

/-- The contexts of a launch (R45). -/
def launchContexts (n : Nat) : List Context :=
  (List.range n).map fun k => Context.reset (BitVec.ofNat 16 k) (BitVec.ofNat 16 n)

/-- Up to 65535 contexts have distinct ids (decision D20). -/
theorem nodup_launchContexts_id {n : Nat} (hn : n ≤ 65535) : ((launchContexts n).map (·.id)).Nodup := by
  rw [launchContexts, List.map_map]
  refine List.nodup_range.map_on fun j hj k hk hjk => ?_
  have hj := List.mem_range.1 hj
  have hk := List.mem_range.1 hk
  have := congrArg BitVec.toNat hjk
  simp only [Function.comp, Context.reset, BitVec.toNat_ofNat] at this
  omega

/-- Loading keeps the canonical form if the image ends inside the address space. -/
theorem Memory.wf_load {m : Memory} (h : m.wf) {a : Nat} {image : List Byte} (ha : a + image.length ≤ Config.memSize) :
    (m.load a image).wf := by
  induction image generalizing m a with
  | nil => exact h
  | cons b bs ih =>
    rw [List.length_cons] at ha
    exact ih (Memory.wf_write h (by omega) b) (by omega)

/-- After loading, the addresses from `a` on read as the image, the others as before. -/
theorem Memory.read_load (m : Memory) (a x : Nat) (image : List Byte) :
    (m.load a image).read x = if a ≤ x then image.getD (x - a) (m.read x) else m.read x := by
  induction image generalizing m a with
  | nil => simp [Memory.load]
  | cons b bs ih =>
    rw [Memory.load, ih, Memory.read_write]
    rcases Nat.lt_trichotomy x a with hlt | rfl | hgt
    · rw [if_neg (by omega), if_neg (by omega), if_neg (by omega)]
    · simp
    · rw [if_pos (by omega), if_neg (by omega), if_pos (by omega), show x - a = (x - (a + 1)) + 1 by omega,
        List.getD_cons_succ]

/-- When there is no launch (R6, R58, R262). -/
theorem launch_eq_none_iff (c : RunConfig) (image : List Byte) :
    launch c image = none ↔ ¬ (c.legal = true ∧ image.length ≤ Config.memSize) := by
  unfold launch
  split <;> simp_all

/-- Everything a launch is. -/
theorem launch_eq_some {c : RunConfig} {image : List Byte} {s : State} (h : launch c image = some s) :
    c.legal = true ∧ image.length ≤ Config.memSize ∧
    s = { cpu := Context.reset 0 (BitVec.ofNat 16 c.cpuCount)
          others := (List.range' 1 (c.cpuCount - 1)).map fun k =>
            Context.reset (BitVec.ofNat 16 k) (BitVec.ofNat 16 c.cpuCount)
          mem := Memory.load [] 0 image, lock := none, outq := [], budget := c.budget, period := c.period
          opmap := c.opmap, sched := [] } := by
  unfold launch at h
  split at h
  case isTrue hc => exact ⟨hc.1, hc.2, (Option.some.inj h).symm⟩
  case isFalse => cases h

/-- The contexts of a launch are the reset contexts with ids from 0. -/
theorem launch_contexts {c : RunConfig} {image : List Byte} {s : State} (h : launch c image = some s) :
    s.contexts = launchContexts c.cpuCount := by
  obtain ⟨hl, -, rfl⟩ := launch_eq_some h
  have hn : c.cpuCount = (c.cpuCount - 1) + 1 := by have := c.legal_iff.1 hl; omega
  rw [launchContexts, List.range_eq_range', hn, List.range'_succ]
  rfl

/-- A launch meets the lock discipline. -/
theorem launch_lockDiscipline {c : RunConfig} {image : List Byte} {s : State} (h : launch c image = some s) :
    s.LockDiscipline := by
  have hc := launch_contexts h
  obtain ⟨hl, -, hs⟩ := launch_eq_some h
  have hn := c.legal_iff.1 hl
  refine lockDiscipline_of_between (hc ▸ nodup_launchContexts_id hn.1.2) (hs ▸ rfl) fun d hd => ?_
  rw [hc] at hd
  obtain ⟨k, -, rfl⟩ := List.mem_map.1 hd
  rfl

/-- Settles O53, from what a launch is and the laws of loading an image. -/
theorem launchZeroesContextsAndLoadsTheImage : Obligations.LaunchZeroesContextsAndLoadsTheImage := by
  intro c image
  refine ⟨?_, fun s h => ⟨launch_contexts h, ?_⟩⟩
  · rw [launch_eq_none_iff, RunConfig.legal_iff]
    simp only [and_assoc]
  · have hdisc := launch_lockDiscipline h
    obtain ⟨-, hlen, rfl⟩ := launch_eq_some h
    refine ⟨fun a => ?_, Memory.wf_load Memory.wf_nil (by omega), rfl, rfl, rfl, rfl, rfl, hdisc⟩
    exact Memory.read_load [] 0 a.toNat image

/-- The default launch of the empty image is the reset state (R241). -/
theorem launch_standard : launch RunConfig.standard [] = some State.reset := if_pos (by decide)

/-- Settles O54: reset is a launch, so it has a launch's lock discipline; the rest is read off `State.reset`. -/
theorem resetIsTheZeroStateAndMeetsTheInvariants : Obligations.ResetIsTheZeroStateAndMeetsTheInvariants := by
  refine ⟨fun r => ?_, rfl, rfl, rfl, rfl, rfl, rfl, rfl, fun _ => rfl, rfl, rfl, fun kind => ?_, rfl, launch_standard,
    Memory.wf_nil, launch_lockDiscipline launch_standard, fun h => absurd rfl h, ?_⟩
  · exact Vector.getElem_replicate ..
  · exact (State.raise_eq_none_iff _ _).2 (.inr (.inl rfl))
  · exact ⟨rfl, rfl, rfl, .inl rfl, .inl rfl⟩

end Sys2Proof.Machine

/-! Proofs about memory and its sharing (20_memory.md): the canonical form and the contexts over all turns, LOCK discipline,
byte accesses and whole cycles, word accesses, and the atomics. -/

namespace Sys2Proof.Machine

/-! ## What every turn keeps -/

/-- A turn keeps the other contexts, the parameters, the active context's id and count, and memory's canonical form. -/
structure TurnEffect (s t : State) : Prop where
  kept : TurnKept s t
  mem : s.mem.wf → t.mem.wf

theorem TurnEffect.refl (s : State) : TurnEffect s s := ⟨.refl s, id⟩

theorem TurnEffect.trans {s t u : State} (h : TurnEffect s t) (k : TurnEffect t u) : TurnEffect s u :=
  ⟨h.kept.trans k.kept, k.mem ∘ h.mem⟩

/-- Updates of the context's own state that change neither id nor count are such an effect. -/
theorem TurnEffect.of_mem_eq {s t : State} (kept : TurnKept s t) (mem : t.mem = s.mem) : TurnEffect s t :=
  ⟨kept, fun h => mem ▸ h⟩

theorem turnEffect_setFlight (s : State) (f : Option Flight) : TurnEffect s (s.setFlight f) :=
  .of_mem_eq ⟨rfl, rfl, rfl, rfl, rfl, rfl, rfl⟩ rfl

theorem turnEffect_stop (s : State) (r : StopReason) : TurnEffect s (s.stop r) :=
  .of_mem_eq ⟨rfl, rfl, rfl, rfl, rfl, rfl, rfl⟩ rfl

theorem perform_turnEffect {s t : State} {f g : Flight} {x : Access} (h : s.perform f x = some (t, g)) :
    TurnEffect s t := by
  obtain ⟨-, -, hx⟩ := perform_cases h
  rcases hx with ⟨_, _, -, rfl⟩ | ⟨a, b, -, rfl⟩ | ⟨-, -, rfl⟩ | ⟨-, rfl⟩ | ⟨_, -, rfl⟩
  · exact .refl _
  · exact ⟨⟨rfl, rfl, rfl, rfl, rfl, rfl, rfl⟩, fun hw => State.wf_writeByte hw a b⟩
  all_goals exact .of_mem_eq ⟨rfl, rfl, rfl, rfl, rfl, rfl, rfl⟩ rfl

theorem finishStage_turnEffect {s t : State} {f : Flight} (h : s.finishStage f = .next t) : TurnEffect s t := by
  cases finishStage_end h with
  | finished he => exact .of_mem_eq he.kept he.mem
  | goesOn kept _ _ mem => exact .of_mem_eq kept mem

theorem accessFlight_turnEffect {s t : State} {f : Flight} {pick : Nat} (h : s.accessFlight f pick = .next t) :
    TurnEffect s t := by
  rcases accessFlight_cases h with ⟨-, hs⟩ | ⟨_, -, -, rfl⟩ | ⟨x, rest, u, g, -, hp, ⟨-, hs⟩ | ⟨-, rfl⟩⟩
  · exact finishStage_turnEffect hs
  · exact .refl _
  · exact (perform_turnEffect hp).trans (finishStage_turnEffect hs)
  · exact (perform_turnEffect hp).trans (turnEffect_setFlight u _)

theorem accessTurn_turnEffect {s t : State} {pick : Nat} (h : s.accessTurn pick = .next t) : TurnEffect s t := by
  rcases accessTurn_cases h with ⟨-, rfl⟩ | ⟨-, f, -, hf⟩ |
      ⟨-, -, ⟨-, rfl⟩ | ⟨-, rfl⟩ | ⟨-, hf⟩ | ⟨-, hf⟩⟩
  · exact .refl _
  · exact accessFlight_turnEffect hf
  · exact turnEffect_stop s _
  · exact turnEffect_stop s _
  · exact accessFlight_turnEffect hf
  · exact accessFlight_turnEffect hf

theorem endCycle_turnEffect (s : State) (i : Instr) : TurnEffect s (s.endCycle i) := by
  rcases endCycle_cases s i with ⟨-, he⟩ | ⟨he, -⟩ | ⟨he, -⟩ <;> rw [he]
  · exact turnEffect_stop s _
  · exact .refl s
  · exact .of_mem_eq ⟨rfl, rfl, rfl, rfl, rfl, rfl, rfl⟩ rfl

theorem runCycle_turnEffect {s t : State} (h : s.runCycle = .next t) : TurnEffect s t := by
  obtain ⟨u, hu, rfl⟩ := runCycle_cases h
  have advance : TurnEffect s (s.setPc (s.cpu.pc + 2)) := .of_mem_eq ⟨rfl, rfl, rfl, rfl, rfl, rfl, rfl⟩ rfl
  have handler : TurnEffect (s.setPc (s.cpu.pc + 2)) u := ⟨(exec_effect hu).kept.turn, (exec_effect hu).mem⟩
  exact (advance.trans handler).trans (endCycle_turnEffect u _)

theorem raise_turnEffect {s t : State} {kind : Nat} (h : s.raise kind = some t) : TurnEffect s t := by
  obtain ⟨-, rfl⟩ := State.raise_eq_some h
  exact ⟨⟨rfl, rfl, rfl, rfl, rfl, rfl, rfl⟩, fun hw => State.wf_push (State.wf_push hw _) _⟩

theorem loopRound_turnEffect {s t : State} (h : s.loopRound = .next t) : TurnEffect s t := by
  rcases loopRound_cases h with ⟨-, rfl⟩ | ⟨-, ⟨-, rfl⟩ | ⟨-, rfl⟩ | ⟨-, u, hr, hu⟩ | ⟨-, hc⟩⟩
  · exact .refl _
  · exact turnEffect_stop s _
  · exact turnEffect_stop s _
  · exact (raise_turnEffect hr).trans (runCycle_turnEffect hu)
  · exact runCycle_turnEffect hc

/-- The effect of a step, as the effect of one turn on a state with the same contexts, memory and parameters. -/
theorem step_turnEffect {s t : State} (h : step s = .next t) :
    ∃ u : State, u.contexts.Perm s.contexts ∧ u.mem = s.mem ∧ u.budget = s.budget ∧ u.period = s.period ∧
      TurnEffect u t := by
  obtain ⟨u, hp, hm, -, -, hb, hpe, -, hturn⟩ := step_cases h
  refine ⟨u, hp, hm, hb, hpe, ?_⟩
  rcases hturn with rfl | ⟨-, hl⟩ | ⟨pick, ha⟩
  · exact .refl _
  · exact loopRound_turnEffect hl
  · exact accessTurn_turnEffect ha

/-- Settles O7: every turn keeps the canonical form, and a switch of contexts leaves memory alone. -/
theorem stepKeepsMemoryCanonical : Obligations.StepKeepsMemoryCanonical := by
  intro s t hs h
  obtain ⟨u, -, hm, -, -, he⟩ := step_turnEffect h
  exact he.mem (hm ▸ hs)

/-- Settles O45: a switch permutes the contexts, and a turn changes the active one only, not its id nor its count. -/
theorem stepLeavesOtherContextsAlone : Obligations.StepLeavesOtherContextsAlone := by
  intro s t h
  obtain ⟨u, hperm, -, hb, hpe, ⟨kept, -⟩⟩ := step_turnEffect h
  refine ⟨fun c hc => ?_, ?_, kept.budget.trans hb, kept.period.trans hpe⟩
  · rcases List.mem_cons.1 (hperm.mem_iff.2 hc) with rfl | hc
    · exact .inr kept.id.symm
    · exact .inl (List.mem_cons_of_mem _ (kept.others ▸ hc))
  · have hsame : (t.contexts.map fun c => (c.id, c.cnt)) = u.contexts.map fun c => (c.id, c.cnt) := by
      simp [State.contexts, kept.others, kept.id, kept.cnt]
    rw [hsame]
    exact hperm.map _

/-! ## LOCK and the accesses still to make (20_memory.md R62) -/

/-- The accesses to come hold a release of LOCK and no acquire. -/
def heldFor (todo : List (List Access)) : Bool :=
  todo.any (·.contains .release) && !todo.any (·.contains .acquire)

theorem Context.insideLock_of_flight {c : Context} {f : Flight} (h : c.flight = some f) :
    c.insideLock = heldFor f.todo := by
  simp [Context.insideLock, h, heldFor]

theorem Context.insideLock_of_between {c : Context} (h : c.flight = none) : c.insideLock = false := by
  simp [Context.insideLock, h]

section
variable {body : List (List Access)} (hbody : ∀ g ∈ body, LockFree g)
include hbody

theorem heldFor_of_lockFree : heldFor body = false := by
  have hno : body.any (·.contains .release) = false := by simpa using fun g hg => (hbody g hg).2.2
  rw [heldFor, hno, Bool.false_and]

theorem heldFor_append_release : heldFor (body ++ [[.release]]) = true := by
  simpa [heldFor] using fun g hg => (hbody g hg).2.1

end

theorem heldFor_acquire_cons (gs : List (List Access)) : heldFor ([.acquire] :: gs) = false := by
  simp [heldFor]

theorem lockShape_of_lockFree {body : List (List Access)} (h : ∀ g ∈ body, LockFree g) : LockShape body :=
  ⟨body, h, .inl rfl⟩

theorem lockShape_lockedPlan {body : List (List Access)} (h : ∀ g ∈ body, LockFree g) : LockShape (lockedPlan body) :=
  ⟨body, h, .inr (.inr (by simp [lockedPlan]))⟩

theorem heldFor_lockedPlan (body : List (List Access)) : heldFor (lockedPlan body) = false :=
  heldFor_acquire_cons _

@[simp] theorem lockFree_readWordAccesses (slot : Nat) (a : Word) : LockFree (readWordAccesses slot a) := by
  simp [LockFree, readWordAccesses]

@[simp] theorem lockFree_writeWordAccesses (a v : Word) : LockFree (writeWordAccesses a v) := by
  simp [LockFree, writeWordAccesses]

theorem lockFree_entryPlan (c : Context) (kind : Nat) : ∀ g ∈ entryPlan c kind, LockFree g := by
  simp [entryPlan]

/-- The accesses of an instruction avoid LOCK, or are a locked section around accesses that avoid it. -/
theorem plan_cases (c : Context) (i : Instr) :
    (∀ g ∈ plan c i, LockFree g) ∨ ∃ body, (∀ g ∈ body, LockFree g) ∧ plan c i = lockedPlan body := by
  cases i
  case loada ra rb => exact .inr ⟨_, by simp, rfl⟩
  case stora ra rb => exact .inr ⟨_, by simp, rfl⟩
  case tnset ra rb => exact .inr ⟨_, by simp [LockFree, readWordAccesses], rfl⟩
  case trap => left; simp only [plan]; split <;> [exact lockFree_entryPlan _ _; simp]
  case div ra rb => left; simp only [plan]; split <;> [exact lockFree_entryPlan _ _; simp]
  all_goals left; simp [plan, LockFree, readWordAccesses, writeWordAccesses]

/-- A handler is entered with LOCK still to be acquired, if it needs it. -/
theorem plan_lockShape (c : Context) (i : Instr) : LockShape (plan c i) ∧ heldFor (plan c i) = false := by
  rcases plan_cases c i with h | ⟨body, h, he⟩
  · exact ⟨lockShape_of_lockFree h, heldFor_of_lockFree h⟩
  · exact he ▸ ⟨lockShape_lockedPlan h, heldFor_lockedPlan body⟩

/-- The access that goes next is a member of the first group, and what is left is the rest of that group, if anything, and the
other groups. -/
theorem nextAccess_cons {g : List Access} (hg : g ≠ []) (gs : List (List Access)) (pick : Nat) :
    ∃ x rest, nextAccess (g :: gs) pick = some (x, if rest.isEmpty then gs else rest :: gs) ∧
      x ∈ g ∧ ∀ y ∈ rest, y ∈ g := by
  obtain ⟨y, ys, rfl⟩ := List.exists_cons_of_ne_nil hg
  refine ⟨_, _, rfl, ?_, fun z hz => List.mem_of_mem_eraseIdx hz⟩
  have hlt : pick % (y :: ys).length < (y :: ys).length := Nat.mod_lt _ (by simp)
  rw [List.getD_eq_getElem _ _ hlt]
  exact List.getElem_mem hlt

/-- What the next access does to a locked section: it is inside or outside and stays so; or it acquires LOCK and is inside
after it; or it releases LOCK, and nothing is left. -/
inductive LockMove (todo : List (List Access)) (x : Access) (rest : List (List Access)) : Prop where
  | stays (acquire : x ≠ .acquire) (release : x ≠ .release) (held : heldFor rest = heldFor todo) (shape : LockShape rest)
  | enters (acquire : x = .acquire) (held : heldFor rest = true) (shape : LockShape rest)
  | leaves (release : x = .release) (held : heldFor todo = true) (none_left : rest = [])

/-- The first group of a body that avoids LOCK, followed by `tail`, leaves again a body that avoids it, followed by `tail`. -/
theorem nextAccess_lockFree {body tail : List (List Access)} (hbody : ∀ g ∈ body, LockFree g) (hne : body ≠ [])
    {pick : Nat} {x : Access} {rest : List (List Access)} (h : nextAccess (body ++ tail) pick = some (x, rest)) :
    x ≠ .acquire ∧ x ≠ .release ∧ ∃ left, (∀ g ∈ left, LockFree g) ∧ rest = left ++ tail := by
  obtain ⟨g, gs, rfl⟩ := List.exists_cons_of_ne_nil hne
  obtain ⟨hgne, hacq, hrel⟩ := hbody g (by simp)
  have hgs : ∀ g ∈ gs, LockFree g := fun g hg => hbody g (by simp [hg])
  obtain ⟨y, ys, hn, hy, hys⟩ := nextAccess_cons hgne (gs ++ tail) pick
  rw [List.cons_append, hn] at h
  obtain ⟨rfl, rfl⟩ := Prod.mk.inj (Option.some.inj h)
  refine ⟨fun e => hacq (e ▸ hy), fun e => hrel (e ▸ hy), ?_⟩
  split
  · exact ⟨gs, hgs, rfl⟩
  · rename_i hne
    refine ⟨ys :: gs, fun g hg => ?_, rfl⟩
    rcases List.mem_cons.1 hg with rfl | hg
    · exact ⟨by simpa using hne, fun e => hacq (hys _ e), fun e => hrel (hys _ e)⟩
    · exact hgs g hg

/-- Every access of a cycle that keeps to the shape is one of the three moves. -/
theorem nextAccess_lockMove {todo : List (List Access)} (hshape : LockShape todo) {pick : Nat} {x : Access}
    {rest : List (List Access)} (h : nextAccess todo pick = some (x, rest)) : LockMove todo x rest := by
  obtain ⟨body, hbody, rfl | rfl | rfl⟩ := hshape
  · have hne : todo ≠ [] := by rintro rfl; simp [nextAccess] at h
    obtain ⟨ha, hr, left, hleft, rfl⟩ := nextAccess_lockFree (tail := []) hbody hne (by simpa using h)
    simp only [List.append_nil]
    exact .stays ha hr (by rw [heldFor_of_lockFree hbody, heldFor_of_lockFree hleft]) (lockShape_of_lockFree hleft)
  · by_cases hne : body = []
    · subst hne
      simp only [List.nil_append, nextAccess, List.length_singleton, Nat.mod_one] at h
      cases h
      exact .leaves rfl (heldFor_append_release hbody) rfl
    · obtain ⟨ha, hr, left, hleft, rfl⟩ := nextAccess_lockFree hbody hne h
      exact .stays ha hr (by rw [heldFor_append_release hbody, heldFor_append_release hleft]) ⟨left, hleft, .inr (.inl rfl)⟩
  · simp only [nextAccess, List.length_singleton, Nat.mod_one] at h
    cases h
    exact .enters rfl (heldFor_append_release hbody) ⟨body, hbody, .inr (.inl rfl)⟩

/-- A cycle that keeps to the shape has no empty group of accesses. -/
theorem LockShape.ne_nil {todo : List (List Access)} (h : LockShape todo) : ∀ g ∈ todo, g ≠ [] := by
  obtain ⟨body, hbody, rfl | rfl | rfl⟩ := h <;> intro g hg
  · exact (hbody g hg).1
  · rcases List.mem_append.1 hg with hg | hg
    · exact (hbody g hg).1
    · simp_all
  · rcases List.mem_cons.1 hg with rfl | hg
    · simp
    · rcases List.mem_append.1 hg with hg | hg
      · exact (hbody g hg).1
      · simp_all

/-- With no access to go next, a cycle that keeps to the shape has none left. -/
theorem eq_nil_of_nextAccess_none {todo : List (List Access)} (hshape : LockShape todo) {pick : Nat}
    (h : nextAccess todo pick = none) : todo = [] := by
  cases todo with
  | nil => rfl
  | cons g gs =>
    obtain ⟨x, rest, hn, -⟩ := nextAccess_cons (hshape.ne_nil g (by simp)) gs pick
    simp [hn] at h

/-! ## LOCK discipline as a property of the active context -/

/-- The active context's part of the LOCK discipline. -/
structure State.OwnLock (s : State) : Prop where
  held : s.cpu.insideLock = true ↔ s.lock = some s.cpu.id
  shape : ∀ f, s.cpu.flight = some f → LockShape f.todo
  running : s.cpu.flight.isSome = true → s.cpu.run = .running

/-- Between cycles a context does not hold LOCK, and that is its whole part of the discipline. -/
theorem ownLock_of_between {s : State} (hf : s.cpu.flight = none) (hl : s.lock ≠ some s.cpu.id) : s.OwnLock where
  held := by simp [Context.insideLock_of_between hf, hl]
  shape f h := by simp [hf] at h
  running h := by simp [hf] at h

/-- In the middle of a cycle it is what the accesses to come say. -/
theorem ownLock_of_flight {s : State} {f : Flight} (hf : s.cpu.flight = some f)
    (held : heldFor f.todo = true ↔ s.lock = some s.cpu.id) (shape : LockShape f.todo) (run : s.cpu.run = .running) :
    s.OwnLock where
  held := by rwa [Context.insideLock_of_flight hf]
  shape g h := by obtain rfl := Option.some.inj (hf.symm.trans h); exact shape
  running _ := run

theorem State.OwnLock.lock_ne_of_between {s : State} (h : s.OwnLock) (hf : s.cpu.flight = none) :
    s.lock ≠ some s.cpu.id := fun hl => by
  have hin := h.held.2 hl
  simp [Context.insideLock_of_between hf] at hin

/-- A turn of the active context as far as LOCK goes: its own part of the discipline holds afterwards, and LOCK is held by
another context afterwards exactly if that context held it before. -/
structure LockTurn (s t : State) : Prop where
  own : t.OwnLock
  elsewhere : ∀ k, k ≠ s.cpu.id → (t.lock = some k ↔ s.lock = some k)

/-- What happened before may have moved LOCK between free and the active context. -/
theorem LockTurn.after {s u t : State} (h : LockTurn u t) (hid : u.cpu.id = s.cpu.id)
    (hl : ∀ k, k ≠ s.cpu.id → (u.lock = some k ↔ s.lock = some k)) : LockTurn s t :=
  ⟨h.own, fun k hk => (h.elsewhere k (hid ▸ hk)).trans (hl k hk)⟩

theorem LockTurn.of_lock_eq {s t : State} (own : t.OwnLock) (lock : t.lock = s.lock) : LockTurn s t :=
  ⟨own, fun _ _ => by rw [lock]⟩

/-- The discipline carries over to the state after such a turn. -/
theorem State.LockDiscipline.turn {s t : State} (h : s.LockDiscipline) (kept : TurnKept s t) (turn : LockTurn s t) :
    t.LockDiscipline := by
  have hids := List.nodup_cons.1 h.ids
  have hne : ∀ c ∈ s.others, c.id ≠ s.cpu.id := fun c hc e => hids.1 (List.mem_map.2 ⟨c, hc, e⟩)
  have split : ∀ {P : Context → Prop}, P t.cpu → (∀ c ∈ s.others, P c) → ∀ c ∈ t.contexts, P c := by
    intro P hcpu hothers c hc
    rcases List.mem_cons.1 hc with rfl | hc
    · exact hcpu
    · exact hothers c (kept.others ▸ hc)
  constructor
  case ids =>
    have hsame : t.contexts.map (·.id) = s.contexts.map (·.id) := by simp [State.contexts, kept.others, kept.id]
    rw [hsame]
    exact h.ids
  case held =>
    exact split turn.own.held fun c hc =>
      (h.held c (List.mem_cons_of_mem _ hc)).trans (turn.elsewhere c.id (hne c hc)).symm
  case owner =>
    intro k hk
    by_cases hkid : k = s.cpu.id
    · exact ⟨t.cpu, List.mem_cons_self, kept.id.trans hkid.symm⟩
    · obtain ⟨c, hc, rfl⟩ := h.owner k ((turn.elsewhere k hkid).1 hk)
      have hc : c ∈ s.others := (List.mem_cons.1 hc).resolve_left fun e => hkid (e ▸ rfl)
      exact ⟨c, List.mem_cons_of_mem _ (kept.others ▸ hc), rfl⟩
  case shape => exact split turn.own.shape fun c hc => h.shape c (List.mem_cons_of_mem _ hc)
  case running => exact split turn.own.running fun c hc => h.running c (List.mem_cons_of_mem _ hc)

theorem State.LockDiscipline.own {s : State} (h : s.LockDiscipline) : s.OwnLock :=
  ⟨h.held _ List.mem_cons_self, h.shape _ List.mem_cons_self, h.running _ List.mem_cons_self⟩

/-- The discipline does not depend on which context is the active one. -/
theorem State.LockDiscipline.perm {s u : State} (h : s.LockDiscipline) (hp : u.contexts.Perm s.contexts)
    (hl : u.lock = s.lock) : u.LockDiscipline where
  ids := (hp.map _).nodup_iff.2 h.ids
  held c hc := hl ▸ h.held c (hp.mem_iff.1 hc)
  owner k hk := by
    obtain ⟨c, hc, hid⟩ := h.owner k (hl ▸ hk)
    exact ⟨c, hp.mem_iff.2 hc, hid⟩
  shape c hc := h.shape c (hp.mem_iff.1 hc)
  running c hc := h.running c (hp.mem_iff.1 hc)

/-! ## LOCK in every turn -/

/-- The stage that follows one that ended outside the lock does not start inside it. -/
theorem finishStage_lockTurn {s t : State} {f : Flight} (hrun : s.cpu.run = .running) (hl : s.lock ≠ some s.cpu.id)
    (h : s.finishStage f = .next t) : LockTurn s t := by
  cases finishStage_end h with
  | finished he => exact .of_lock_eq (ownLock_of_between he.flight (by rw [he.lock, he.kept.id]; exact hl)) he.lock
  | goesOn kept lock _ _ _ run g flight todo =>
    have hnext : LockShape g.todo ∧ heldFor g.todo = false := by
      rcases todo with ⟨a, slot, hg⟩ | ⟨c, i, hg, -⟩ <;> rw [hg]
      · have hfree : ∀ g ∈ [readWordAccesses slot a], LockFree g := by simp
        exact ⟨lockShape_of_lockFree hfree, heldFor_of_lockFree hfree⟩
      · exact plan_lockShape c i
    exact .of_lock_eq (ownLock_of_flight flight (by simp [hnext.2, lock, kept.id, hl]) hnext.1 (run.trans hrun)) lock

/-- What an access does to the active context and to LOCK. -/
theorem perform_lock {s t : State} {f g : Flight} {x : Access} (h : s.perform f x = some (t, g)) :
    t.cpu = s.cpu ∧ (x ≠ .acquire → x ≠ .release → t.lock = s.lock) ∧
      (x = .acquire → s.lock = none ∧ t.lock = some s.cpu.id) ∧ (x = .release → t.lock = none) := by
  obtain ⟨-, -, hx⟩ := perform_cases h
  rcases hx with ⟨_, _, rfl, rfl⟩ | ⟨_, _, rfl, rfl⟩ | ⟨rfl, hs, rfl⟩ | ⟨rfl, rfl⟩ | ⟨_, rfl, rfl⟩
  · simp
  · simp
  · simp [hs]
  · simp
  · simp

theorem accessFlight_lockTurn {s t : State} {f : Flight} {pick : Nat} (hown : s.OwnLock) (hrun : s.cpu.run = .running)
    (hshape : LockShape f.todo) (hheld : heldFor f.todo = true ↔ s.lock = some s.cpu.id)
    (h : s.accessFlight f pick = .next t) : LockTurn s t := by
  rcases accessFlight_cases h with ⟨hn, hs⟩ | ⟨_, -, -, rfl⟩ | ⟨x, rest, u, g, hn, hp, hend⟩
  · rw [eq_nil_of_nextAccess_none hshape hn] at hheld
    exact finishStage_lockTurn hrun (fun hl => absurd (hheld.2 hl) (by decide)) hs
  · exact .of_lock_eq hown rfl
  · obtain ⟨hcpu, hkeep, hacq, hrel⟩ := perform_lock hp
    have hid : u.cpu.id = s.cpu.id := by rw [hcpu]
    have hurun : u.cpu.run = .running := by rw [hcpu]; exact hrun
    have goesOn : LockShape rest → (heldFor rest = true ↔ u.lock = some u.cpu.id) →
        LockTurn u (u.setFlight (some { g with todo := rest })) := fun shape held =>
      .of_lock_eq (ownLock_of_flight (f := { g with todo := rest }) rfl held shape hurun) rfl
    cases nextAccess_lockMove hshape hn with
    | stays ha hr held shape =>
      have hlock := hkeep ha hr
      refine LockTurn.after ?_ hid (fun k _ => by rw [hlock])
      have hheld : heldFor rest = true ↔ u.lock = some u.cpu.id := by rw [held, hlock, hid]; exact hheld
      rcases hend with ⟨rfl, hs⟩ | ⟨-, rfl⟩
      · exact finishStage_lockTurn hurun (fun hl => absurd (hheld.2 hl) (by decide)) hs
      · exact goesOn shape hheld
    | enters ha held shape =>
      obtain ⟨hfree, hlock⟩ := hacq ha
      rcases hend with ⟨rfl, -⟩ | ⟨-, rfl⟩
      · simp [heldFor] at held
      · exact (goesOn shape (by simp [held, hlock, hid])).after hid fun k hk => by simp [hlock, hfree, hk.symm]
    | leaves hr held hrest =>
      have hlock := hrel hr
      rcases hend with ⟨-, hs⟩ | ⟨hne, -⟩
      · exact (finishStage_lockTurn hurun (by simp [hlock]) hs).after hid fun k hk => by simp [hlock, hheld.1 held, hk.symm]
      · exact absurd hrest hne

theorem stop_lockTurn {s : State} (hown : s.OwnLock) (hf : s.cpu.flight = none) (r : StopReason) :
    LockTurn s (s.stop r) :=
  .of_lock_eq (ownLock_of_between hf (hown.lock_ne_of_between hf)) rfl

theorem accessTurn_lockTurn {s t : State} {pick : Nat} (hown : s.OwnLock) (h : s.accessTurn pick = .next t) :
    LockTurn s t := by
  have first : ∀ f : Flight, s.cpu.run = .running → s.cpu.flight = none → (∀ g ∈ f.todo, LockFree g) →
      s.accessFlight f pick = .next t → LockTurn s t := fun f hrun hf hfree ha =>
    accessFlight_lockTurn hown hrun (lockShape_of_lockFree hfree)
      (by simp [heldFor_of_lockFree hfree, hown.lock_ne_of_between hf]) ha
  rcases accessTurn_cases h with ⟨-, rfl⟩ | ⟨hrun, f, hf, ha⟩ |
      ⟨hrun, hf, ⟨-, rfl⟩ | ⟨-, rfl⟩ | ⟨-, ha⟩ | ⟨-, ha⟩⟩
  · exact .of_lock_eq hown rfl
  · exact accessFlight_lockTurn hown hrun (hown.shape f hf) (Context.insideLock_of_flight hf ▸ hown.held) ha
  · exact stop_lockTurn hown hf _
  · exact stop_lockTurn hown hf _
  · exact first _ hrun hf (lockFree_entryPlan _ _) ha
  · exact first _ hrun hf (by simp [State.fetchFlight]) ha

theorem endCycle_shared (s : State) (i : Instr) :
    (s.endCycle i).lock = s.lock ∧ (s.endCycle i).cpu.id = s.cpu.id ∧ (s.endCycle i).cpu.flight = s.cpu.flight := by
  rcases endCycle_cases s i with ⟨-, he⟩ | ⟨he, -⟩ | ⟨he, -⟩ <;> rw [he] <;> exact ⟨rfl, rfl, rfl⟩

/-- An unmapped opcode accesses nothing (R92). -/
theorem isBad_of_plan {c : Context} {i : Instr} (h : plan c i ≠ []) : i.isBad = false := by
  cases i
  case bad op => exact absurd rfl h
  all_goals rfl

/-- A context at the entry of a handler does not hold LOCK. -/
theorem enterHandler_ownLock {s : State} (hrun : s.cpu.run = .running) (hl : s.lock ≠ some s.cpu.id) (i : Instr) :
    (s.enterHandler i).OwnLock := by
  obtain ⟨shape, held⟩ := plan_lockShape s.cpu i
  exact ownLock_of_flight rfl (by simpa [held, State.enterHandler] using hl) shape hrun

/-- A whole cycle leaves LOCK as it is; its context is between cycles afterwards or waits for LOCK. -/
theorem runCycle_lockTurn {s t : State} (hrun : s.cpu.run = .running) (hf : s.cpu.flight = none)
    (hl : s.lock ≠ some s.cpu.id) (h : s.runCycle = .next t) : LockTurn s t := by
  obtain ⟨u, hu, rfl⟩ := runCycle_cases h
  have e := exec_effect hu
  have hlock : u.lock = s.lock := e.lock
  have hid : u.cpu.id = s.cpu.id := e.kept.id
  obtain ⟨elock, eid, eflight⟩ := endCycle_shared u s.fetch
  rcases e.flight with hfl | ⟨-, hwait, body, hplan⟩
  · have hbetween : (u.endCycle s.fetch).cpu.flight = none := eflight.trans (hfl.trans hf)
    exact .of_lock_eq (ownLock_of_between hbetween (by rw [elock, eid, hlock, hid]; exact hl)) (elock.trans hlock)
  · have hgood : s.fetch.isBad = false := isBad_of_plan (by rw [hplan]; simp [lockedPlan])
    have hend : u.endCycle s.fetch = u := by simp [hwait, State.endCycle, hgood, State.enterHandler]
    rw [hend, hwait]
    exact .of_lock_eq (enterHandler_ownLock (s := s.setPc (s.cpu.pc + 2)) hrun hl s.fetch) rfl

theorem loopRound_lockTurn {s t : State} (hown : s.OwnLock) (hf : s.cpu.flight = none) (h : s.loopRound = .next t) :
    LockTurn s t := by
  rcases loopRound_cases h with ⟨-, rfl⟩ | ⟨hrun, ⟨-, rfl⟩ | ⟨-, rfl⟩ | ⟨-, u, hr, hu⟩ | ⟨-, hc⟩⟩
  · exact .of_lock_eq hown rfl
  · exact stop_lockTurn hown hf _
  · exact stop_lockTurn hown hf _
  · obtain ⟨-, hentered⟩ := State.raise_eq_some hr
    have hl : u.lock ≠ some u.cpu.id := by rw [hentered]; exact hown.lock_ne_of_between hf
    have entry : LockTurn u t := runCycle_lockTurn (by rw [hentered]; exact hrun) (by rw [hentered]; exact hf) hl hu
    exact entry.after (by rw [hentered]; rfl) fun k _ => by rw [hentered]; rfl
  · exact runCycle_lockTurn hrun hf (hown.lock_ne_of_between hf) hc

/-- Settles O47: a switch keeps the discipline, and a turn keeps it because it keeps the active context's own part. -/
theorem stepKeepsLockDiscipline : Obligations.StepKeepsLockDiscipline := by
  intro s t hs h
  obtain ⟨u, hp, -, hl, -, -, -, -, hturn⟩ := step_cases h
  have hu : u.LockDiscipline := hs.perm hp hl
  rcases hturn with rfl | ⟨hf, hr⟩ | ⟨pick, ha⟩
  · exact hu
  · exact hu.turn (loopRound_turnEffect hr).kept (loopRound_lockTurn hu.own hf hr)
  · exact hu.turn (accessTurn_turnEffect ha).kept (accessTurn_lockTurn hu.own ha)

/-! ## Bytes and words (20_memory.md R52 to R54) -/

theorem toNat_joinBytes (hi lo : Byte) : (joinBytes hi lo).toNat = hi.toNat * 256 + lo.toNat := by
  have hlo : lo.toNat < 2 ^ 8 := lo.isLt
  rw [joinBytes, BitVec.toNat_append, ← Nat.shiftLeft_add_eq_or_of_lt hlo, Nat.shiftLeft_eq]

theorem toNat_hiByte (w : Word) : (hiByte w).toNat = w.toNat / 256 := by
  have hw := w.isLt
  simp only [hiByte, BitVec.extractLsb'_toNat, Nat.shiftRight_eq_div_pow]
  omega

theorem toNat_loByte (w : Word) : (loByte w).toNat = w.toNat % 256 := by
  simp [loByte]

theorem State.hiByte_readWord (s : State) (a : Word) : hiByte (s.readWord a) = s.readByte a := hiByte_joinBytes _ _

theorem State.loByte_readWord (s : State) (a : Word) : loByte (s.readWord a) = s.readByte (a + 1) := loByte_joinBytes _ _

/-- The high byte of a word written. -/
@[simp] theorem State.readByte_writeWord_hi (s : State) (a v : Word) : (s.writeWord a v).readByte a = hiByte v := by
  rw [State.readByte_writeWord, if_neg (Word.succ_ne a).symm, if_pos rfl]

/-- The low byte of a word written. -/
@[simp] theorem State.readByte_writeWord_lo (s : State) (a v : Word) : (s.writeWord a v).readByte (a + 1) = loByte v := by
  rw [State.readByte_writeWord, if_pos rfl]

/-- Every other byte stays when a word is written. -/
theorem State.readByte_writeWord_other (s : State) (a v : Word) {x : Word} (h : x ≠ a) (h' : x ≠ a + 1) :
    (s.writeWord a v).readByte x = s.readByte x := by
  rw [State.readByte_writeWord, if_neg h', if_neg h]

/-- Settles O5: a word is its two bytes joined, and a fetch reads the word at `pc`. -/
theorem wordAccessIsBigEndian : Obligations.WordAccessIsBigEndian := fun s a v =>
  ⟨toNat_joinBytes _ _, by rw [State.readByte_writeWord_hi, toNat_hiByte], by rw [State.readByte_writeWord_lo, toNat_loByte],
    fun _ h h' => State.readByte_writeWord_other s a v h h', State.hiByte_readWord s _, State.loByte_readWord s _⟩

/-- Settles O6: each read is taken apart into bytes, and `a + 2` is none of the two bytes written. -/
theorem mixedWidthAccessSeesBytes : Obligations.MixedWidthAccessSeesBytes := by
  intro s a v
  have h2 : a + 2 ≠ a ∧ a + 2 ≠ a + 1 := by constructor <;> bv_omega
  refine ⟨State.readByte_writeWord_hi s a v, State.readByte_writeWord_lo s a v, ?_, State.readByte_writeWord_hi s _ v,
    State.readByte_writeWord_lo s 0xFFFF v⟩
  rw [State.readWord, State.readByte_writeWord_lo, show a + 1 + 1 = a + 2 by bv_omega,
    State.readByte_writeWord_other s a v h2.1 h2.2]

/-! ## Waiting for LOCK (20_memory.md R62, R64) -/

/-- A turn of a context that waits for LOCK changes nothing. -/
theorem accessTurn_of_waiting {s : State} {k : Word} (hl : s.lock = some k) {f : Flight} (hf : s.cpu.flight = some f)
    {gs : List (List Access)} (htodo : f.todo = [.acquire] :: gs) (pick : Nat) : s.accessTurn pick = .next s := by
  unfold State.accessTurn
  split
  · rfl
  · have hnext : nextAccess f.todo pick = some (.acquire, gs) := by rw [htodo]; simp [nextAccess, Nat.mod_one]
    have hwait : s.perform f .acquire = none := by simp [State.perform, hl]
    simp only [hf, State.accessFlight, hnext, hwait]

/-- Settles O28: with LOCK held each of the three enters its handler, whose accesses are a locked section. -/
theorem atomicsWaitWhileLockIsHeld : Obligations.AtomicsWaitWhileLockIsHeld := by
  intro s ra rb k i hl hi
  have waits : ∀ body, exec i s = .next (s.enterHandler i) → plan s.cpu i = lockedPlan body →
      ∃ f : Flight, exec i s = .next (s.setFlight (some f)) ∧ f.stage = .handler i ∧ f.todo.head? = some [.acquire] ∧
        f.todo.getLast? = some [.release] ∧ f.seen = [] ∧
        ∀ pick, (s.setFlight (some f)).accessTurn pick = .next (s.setFlight (some f)) := by
    intro body hexec hplan
    exact ⟨_, hexec, rfl, congrArg List.head? hplan, (congrArg List.getLast? hplan).trans List.getLast?_concat, rfl,
      accessTurn_of_waiting hl rfl hplan⟩
  rcases hi with rfl | rfl | rfl
  all_goals exact waits _ (congrArg Host.Outcome.next (State.withLock_held hl _ _)) rfl

/-- Settles O49: the four runs, evaluated. -/
theorem ordinaryWordAccessesTear : Obligations.OrdinaryWordAccessesTear :=
  ⟨⟨_, rfl, by decide, by decide⟩, ⟨_, rfl, by decide, by decide⟩,
    ⟨_, rfl, by decide, by decide⟩, ⟨_, rfl, by decide, by decide⟩⟩

/-! ## The atomics with LOCK free (45_atomic.md R182) -/

/-- What `tnset` does with LOCK free: it reads the word into x[B] and leaves 0x0001 in memory. -/
theorem exec_tnset_of_lock_free {s t : State} {ra rb : Reg} (hl : s.lock = none) (h : exec (.tnset ra rb) s = .next t) :
    t = (s.writeWord (s.reg ra) 0x0001).setReg rb (s.readWord (s.reg ra)) := by
  simp only [exec, execTnset, State.withLock_free hl, Host.Outcome.next.injEq] at h
  exact h.symm

theorem State.readByte_of_mem_eq {s t : State} (h : t.mem = s.mem) (a : Word) : t.readByte a = s.readByte a := by
  rw [State.readByte, h, State.readByte]

theorem State.readWord_of_mem_eq {s t : State} (h : t.mem = s.mem) (a : Word) : t.readWord a = s.readWord a := by
  rw [State.readWord, State.readByte_of_mem_eq h, State.readByte_of_mem_eq h, State.readWord]

/-- Settles O50: the second `tnset` reads the word that the first one wrote, the switch between them leaving memory alone. -/
theorem secondTnsetFindsTheWordTaken : Obligations.SecondTnsetFindsTheWordTaken := by
  intro s t u v ra rb qa qb k hl hfree hfirst hswitch haddr hsecond
  obtain rfl := exec_tnset_of_lock_free hl hfirst
  obtain ⟨-, -, hmem, hlock, -⟩ := switchTo_effect hswitch
  obtain rfl := exec_tnset_of_lock_free (hlock.trans hl) hsecond
  have htaken : u.readWord (s.reg ra) = 0x0001 := by
    rw [State.readWord_of_mem_eq hmem, State.setReg_readWord, State.readWord_writeWord]
  refine ⟨?_, ?_, ?_⟩
  · rw [State.reg_setReg_same, hfree]
  · rw [State.reg_setReg_same, haddr, htaken]
  · rw [haddr, State.setReg_readWord, State.readWord_writeWord]

/-! ## One access of a cycle in progress (20_memory.md R60) -/

/-- A group of one access. -/
theorem nextAccess_single (x : Access) (gs : List (List Access)) (pick : Nat) :
    nextAccess ([x] :: gs) pick = some (x, gs) := by
  simp [nextAccess, Nat.mod_one]

/-- A group of two: an even choice takes the first, an odd one the second (decision D14). -/
theorem nextAccess_pair (x y : Access) (gs : List (List Access)) (pick : Nat) :
    nextAccess ([x, y] :: gs) pick = if pick % 2 = 0 then some (x, [y] :: gs) else some (y, [x] :: gs) := by
  rcases Nat.mod_two_eq_zero_or_one pick with h | h <;> simp [nextAccess, h]

/-- After an access of `f`: the stage ends if nothing is left to do, else the cycle stays in progress. -/
def State.goOn (s : State) (f : Flight) : Host.Outcome State Fault Refusal :=
  if f.todo.isEmpty then s.finishStage f else .next (s.setFlight (some f))

theorem State.goOn_of_ne_nil {s : State} {f : Flight} (h : f.todo ≠ []) : s.goOn f = .next (s.setFlight (some f)) := by
  simp [State.goOn, h]

theorem State.goOn_of_nil {s : State} {f : Flight} (h : f.todo = []) : s.goOn f = s.finishStage f := by
  simp [State.goOn, h]

theorem accessFlight_of_nextAccess {s t : State} {f g : Flight} {x : Access} {rest : List (List Access)} {pick : Nat}
    (hn : nextAccess f.todo pick = some (x, rest)) (hp : s.perform f x = some (t, g)) :
    s.accessFlight f pick = t.goOn { g with todo := rest } := by
  simp only [State.accessFlight, hn, hp, State.goOn]

/-! ### The record of the cycle in progress is not looked at -/

theorem plan_setFlight (s : State) (fl : Option Flight) (i : Instr) : plan (s.setFlight fl).cpu i = plan s.cpu i := by
  cases i <;> rfl

theorem beginHandler_setFlight (s : State) (fl : Option Flight) (i : Instr) :
    (s.setFlight fl).beginHandler i = s.beginHandler i := by
  have hplan := plan_setFlight (s.setPc (s.cpu.pc + 2)) fl i
  have hentry : ((s.setPc (s.cpu.pc + 2)).setFlight fl).enterHandler i = (s.setPc (s.cpu.pc + 2)).enterHandler i := by
    simp only [State.enterHandler, hplan]; rfl
  change (if (plan ((s.setPc (s.cpu.pc + 2)).setFlight fl).cpu i).isEmpty then _ else
    Host.Outcome.next (((s.setPc (s.cpu.pc + 2)).setFlight fl).enterHandler i)) = _
  rw [hplan, hentry]
  rfl

theorem finishStage_setFlight (s : State) (fl : Option Flight) (f : Flight) :
    (s.setFlight fl).finishStage f = s.finishStage f := by
  unfold State.finishStage
  split
  · rfl
  · simp only [State.setFlight_opmap, beginHandler_setFlight]; rfl
  · simp only [State.setFlight_opmap, beginHandler_setFlight]
  · rfl

theorem goOn_setFlight (s : State) (fl : Option Flight) (f : Flight) : (s.setFlight fl).goOn f = s.goOn f := by
  simp only [State.goOn, finishStage_setFlight]
  rfl

theorem perform_setFlight {s t : State} {f g : Flight} {x : Access} (fl : Option Flight)
    (h : s.perform f x = some (t, g)) : (s.setFlight fl).perform f x = some (t.setFlight fl, g) := by
  cases x with
  | acquire =>
    simp only [State.perform] at h
    split at h <;> cases h
    rename_i hl
    exact if_pos hl
  | read slot a => cases h; rfl
  | write a b => cases h; rfl
  | release => cases h; rfl
  | emit b => cases h; rfl

/-- A turn of a context whose cycle in progress is `f`. -/
theorem accessTurn_setFlight {s t : State} {f g : Flight} {x : Access} {rest : List (List Access)} {pick : Nat}
    (hrun : s.cpu.run = .running) (hn : nextAccess f.todo pick = some (x, rest)) (hp : s.perform f x = some (t, g)) :
    (s.setFlight (some f)).accessTurn pick = t.goOn { g with todo := rest } := by
  have hturn : (s.setFlight (some f)).accessTurn pick = (s.setFlight (some f)).accessFlight f pick := by
    simp [State.accessTurn, hrun]
  rw [hturn, accessFlight_of_nextAccess hn (perform_setFlight _ hp), goOn_setFlight]

/-! ## A load between the two byte writes of a store (R60, R63) -/

/-- A `stor` with one of its two byte writes still to make. -/
def storFlight (ra rb : Reg) (a : Word) (b : Byte) : Flight :=
  { stage := .handler (.stor ra rb), todo := [[.write a b]], seen := [] }

/-- The last byte write of a `stor` completes its cycle. -/
theorem accessTurn_stor_last {s : State} {ra rb : Reg} {a : Word} {b : Byte} (hrun : s.cpu.run = .running) (pick : Nat) :
    (s.setFlight (some (storFlight ra rb a b))).accessTurn pick =
      .next (((s.writeByte a b).setFlight none).setCyc (s.cpu.cyc + 1)) := by
  rw [accessTurn_setFlight hrun (nextAccess_single _ _ _) rfl, State.goOn_of_nil rfl]
  simp [storFlight, State.finishStage, State.finishHandler, State.commit, onNext, State.endCycle, hrun, Instr.isBad, Instr.head]

/-- The first byte write of a `stor`, high byte for an even choice, low byte for an odd one. -/
theorem accessTurn_stor_first {s t : State} {ra rb : Reg} {pick : Nat} (hrun : s.cpu.run = .running)
    (h : (s.enterHandler (.stor ra rb)).accessTurn pick = .next t) :
    ∃ x y b c, t = (s.writeByte x b).setFlight (some (storFlight ra rb y c)) ∧
      ((pick % 2 = 0 ∧ x = s.reg (storeAddrReg ra rb) ∧ y = s.reg (storeAddrReg ra rb) + 1 ∧
          b = hiByte (s.reg (storeDataReg ra rb)) ∧ c = loByte (s.reg (storeDataReg ra rb))) ∨
        (pick % 2 ≠ 0 ∧ x = s.reg (storeAddrReg ra rb) + 1 ∧ y = s.reg (storeAddrReg ra rb) ∧
          b = loByte (s.reg (storeDataReg ra rb)) ∧ c = hiByte (s.reg (storeDataReg ra rb)))) := by
  have hpair := nextAccess_pair (.write (s.reg (storeAddrReg ra rb)) (hiByte (s.reg (storeDataReg ra rb))))
    (.write (s.reg (storeAddrReg ra rb) + 1) (loByte (s.reg (storeDataReg ra rb)))) [] pick
  by_cases hp : pick % 2 = 0
  · rw [if_pos hp] at hpair
    rw [State.enterHandler, accessTurn_setFlight hrun hpair rfl, State.goOn_of_ne_nil (by simp)] at h
    cases h
    exact ⟨_, _, _, _, rfl, .inl ⟨hp, rfl, rfl, rfl, rfl⟩⟩
  · rw [if_neg hp] at hpair
    rw [State.enterHandler, accessTurn_setFlight hrun hpair rfl, State.goOn_of_ne_nil (by simp)] at h
    cases h
    exact ⟨_, _, _, _, rfl, .inr ⟨hp, rfl, rfl, rfl, rfl⟩⟩

/-- Settles O57: after the first write one byte is new and the other old; the second write makes the other byte new. -/
theorem loadBetweenTheBytesOfAStorGetsOneOfEach : Obligations.LoadBetweenTheBytesOfAStorGetsOneOfEach := by
  intro s t u ra rb qa qb k pick hrun hfirst hswitch _ haddr
  obtain ⟨x, y, b, c, rfl, hbytes⟩ := accessTurn_stor_first hrun hfirst
  obtain ⟨-, -, hmem, -⟩ := switchTo_effect hswitch
  refine ⟨⟨_, rfl, ?_⟩, fun other => ⟨_, accessTurn_stor_last (s := s.writeByte x b) hrun other, ?_, rfl, rfl⟩⟩
  · rw [State.reg_setReg_same, haddr, State.readWord_of_mem_eq hmem, State.setFlight_readWord, State.readWord]
    rcases hbytes with ⟨hp, rfl, rfl, rfl, rfl⟩ | ⟨hp, rfl, rfl, rfl, rfl⟩
    · simp [hp]
    · simp [hp]
  · rw [State.setCyc_readWord, State.setFlight_readWord, State.readWord]
    rcases hbytes with ⟨-, rfl, rfl, rfl, rfl⟩ | ⟨-, rfl, rfl, rfl, rfl⟩
    · simp
    · simp

/-! ## Byte accesses without interruption (20_memory.md R60, R62) -/

/-- Accesses by the active context, going on from an outcome. -/
def andRun (r : Host.Outcome State Fault Refusal) (picks : List Nat) : Host.Outcome State Fault Refusal :=
  match r with
  | .next s => accessRun picks s
  | .fault e => .fault e
  | .refused e => .refused e

theorem accessRun_cons (p : Nat) (ps : List Nat) (s : State) : accessRun (p :: ps) s = andRun (s.accessTurn p) ps := by
  rfl

/-- Going on from `r`, any `n` further accesses answer `o`. -/
def After (n : Nat) (r o : Host.Outcome State Fault Refusal) : Prop :=
  ∀ picks : List Nat, picks.length = n → andRun r picks = o

theorem After.zero (o : Host.Outcome State Fault Refusal) : After 0 o o := by
  intro picks hp
  rw [List.length_eq_zero_iff.1 hp]
  cases o <;> rfl

/-- One access, whichever is chosen, and then `n` more. -/
theorem After.step {n : Nat} {s : State} {o : Host.Outcome State Fault Refusal}
    (h : ∀ p, After n (s.accessTurn p) o) : After (n + 1) (.next s) o := by
  intro picks hp
  cases picks with
  | nil => simp at hp
  | cons p ps => exact (accessRun_cons p ps s).trans (h p ps (by simpa using hp))

/-- The byte in a slot, the last read into it being first in the list. -/
theorem lookup_cons_getD (k slot : Nat) (b : Byte) (seen : List (Nat × Byte)) :
    (((k, b) :: seen).lookup slot).getD 0 = if slot = k then b else (seen.lookup slot).getD 0 := by
  by_cases h : slot = k
  · simp [h]
  · have hb : (slot == k) = false := by simpa using h
    simp [List.lookup_cons, hb, h]

section
variable {n : Nat} {s : State} {f : Flight} {o : Host.Outcome State Fault Refusal} {gs : List (List Access)}
  (hrun : s.cpu.run = .running)
include hrun

/-- A group of one access. -/
theorem After.single {t : State} {g : Flight} {x : Access} (htodo : f.todo = [x] :: gs) (hp : s.perform f x = some (t, g))
    (h : After n (t.goOn { g with todo := gs }) o) : After (n + 1) (s.goOn f) o := by
  rw [State.goOn_of_ne_nil (by simp [htodo])]
  refine .step fun p => ?_
  rw [accessTurn_setFlight hrun (by rw [htodo]; exact nextAccess_single x gs p) hp]
  exact h

/-- A group of two: both may go first. -/
theorem After.pair {t t' : State} {g g' : Flight} {x y : Access} (htodo : f.todo = [x, y] :: gs)
    (hx : s.perform f x = some (t, g)) (h : After n (t.goOn { g with todo := [y] :: gs }) o)
    (hy : s.perform f y = some (t', g')) (h' : After n (t'.goOn { g' with todo := [x] :: gs }) o) :
    After (n + 1) (s.goOn f) o := by
  rw [State.goOn_of_ne_nil (by simp [htodo])]
  refine .step fun p => ?_
  have hpair := nextAccess_pair x y gs p
  rw [← htodo] at hpair
  by_cases hp : p % 2 = 0
  · rw [if_pos hp] at hpair
    rwa [accessTurn_setFlight hrun hpair hx]
  · rw [if_neg hp] at hpair
    rwa [accessTurn_setFlight hrun hpair hy]

/-- A word read: whichever byte is read first, the cycle then holds the word in its slots, and the other slots as before. -/
theorem After.readWord {slot : Nat} {a : Word} (htodo : f.todo = readWordAccesses slot a :: gs)
    (h : ∀ g : Flight, g.stage = f.stage → g.todo = gs → g.wordAt slot = s.readWord a →
      (∀ k, k ≠ slot → k ≠ slot + 1 → g.byteAt k = f.byteAt k) → After n (s.goOn g) o) :
    After (n + 2) (s.goOn f) o := by
  refine .pair hrun htodo rfl (.single hrun rfl rfl (h _ rfl rfl ?_ ?_)) rfl (.single hrun rfl rfl (h _ rfl rfl ?_ ?_))
  · simp only [Flight.wordAt, Flight.byteAt, lookup_cons_getD, State.readWord]
    simp
  · intro k h0 h1
    simp only [Flight.byteAt, lookup_cons_getD, if_neg h0, if_neg h1]
  · simp only [Flight.wordAt, Flight.byteAt, lookup_cons_getD, State.readWord]
    simp
  · intro k h0 h1
    simp only [Flight.byteAt, lookup_cons_getD, if_neg h0, if_neg h1]

end

/-- Writes to two addresses may change places in a canonical memory. -/
theorem Memory.write_comm {m : Memory} (hm : m.wf) {a b : Nat} (ha : a < Config.memSize) (hb : b < Config.memSize)
    (hne : a ≠ b) (x y : Byte) : (m.write a x).write b y = (m.write b y).write a x := by
  refine Memory.ext_of_wf (Memory.wf_write (Memory.wf_write hm ha x) hb y) (Memory.wf_write (Memory.wf_write hm hb y) ha x)
    fun k => ?_
  simp only [Memory.read_write]
  by_cases hka : k = a
  · subst hka; simp [hne]
  · simp [hka]

/-- The two byte writes of a word, low byte first. -/
theorem State.writeWord_low_first {s : State} (hm : s.mem.wf) (a v : Word) :
    (s.writeByte (a + 1) (loByte v)).writeByte a (hiByte v) = s.writeWord a v := by
  have hne : (a + 1).toNat ≠ a.toNat := fun h => Word.succ_ne a (BitVec.eq_of_toNat_eq h)
  exact congrArg s.setMem (Memory.write_comm hm (a + 1).isLt a.isLt hne _ _)

/-- A word write: whichever byte is written first, the word is written. -/
theorem After.writeWord {n : Nat} {s : State} {f : Flight} {o : Host.Outcome State Fault Refusal}
    {gs : List (List Access)} (hrun : s.cpu.run = .running) (hm : s.mem.wf) {a v : Word}
    (htodo : f.todo = writeWordAccesses a v :: gs) (h : After n ((s.writeWord a v).goOn { f with todo := gs }) o) :
    After (n + 2) (s.goOn f) o := by
  refine .pair hrun htodo rfl (.single (by exact hrun) rfl rfl h) rfl (.single (by exact hrun) rfl rfl ?_)
  exact (State.writeWord_low_first hm a v).symm ▸ h

/-! ### Exception entry (60_exceptions.md R205) -/

/-- The two words that an exception entry stores. -/
def State.storeEntry (s : State) : State :=
  (s.writeWord (s.reg Reg.sp - 2) s.cpu.st).writeWord (s.reg Reg.sp - 4) s.cpu.pc

/-- `Raise` as its accesses make it: both stores, then the vector read, then the effect on the context's own state. -/
theorem State.raise_eq_enterAt {s : State} (ha : s.cpu.accepts = true) {kind : Nat} (hk : kind ≤ 2) :
    s.raise kind = some (s.storeEntry.enterAt (s.storeEntry.readWord (vectorAddr s.cpu.itr kind))) := by
  obtain ⟨t, ht⟩ := State.raise_isSome ha hk
  obtain ⟨-, rfl⟩ := State.raise_eq_some ht
  have hpush : (s.push s.cpu.st).push s.cpu.pc = s.storeEntry.setReg Reg.sp (s.reg Reg.sp - 4) := by
    have hsp : (s.push s.cpu.st).pushAddr = s.reg Reg.sp - 4 := by
      rw [State.pushAddr, State.push_reg, if_pos rfl]
      bv_omega
    have hmoved : (s.push s.cpu.st).setReg Reg.sp (s.reg Reg.sp - 4) =
        (s.writeWord (s.reg Reg.sp - 2) s.cpu.st).setReg Reg.sp (s.reg Reg.sp - 4) :=
      State.setReg_setReg (s.writeWord (s.reg Reg.sp - 2) s.cpu.st) Reg.sp s.pushAddr (s.reg Reg.sp - 4)
    rw [State.push, hsp, hmoved]
    rfl
  rw [ht, hpush]
  rfl

theorem After.entry {n : Nat} {s : State} {f : Flight} {o : Host.Outcome State Fault Refusal} {kind : Nat}
    (hrun : s.cpu.run = .running) (hm : s.mem.wf) (htodo : f.todo = entryPlan s.cpu kind)
    (h : ∀ g : Flight, g.stage = f.stage → g.todo = [] →
      g.wordAt 0 = s.storeEntry.readWord (vectorAddr s.cpu.itr kind) → After n (s.storeEntry.goOn g) o) :
    After (n + 6) (s.goOn f) o :=
  .writeWord hrun hm htodo <| .writeWord (by exact hrun) (State.wf_writeWord hm _ _) rfl <|
    .readWord (by exact hrun) rfl fun g hstage htodo hword _ => h g hstage htodo hword

/-! ### The handler -/

/-- No cycle in progress and LOCK free. -/
def State.idle (s : State) : State := (s.setLock none).setFlight none

/-- The end of a handler whose effect on its own context, after the accesses, is what `exec` gives. -/
theorem After.finish {s t : State} {g : Flight} {i : Instr} (hstage : g.stage = .handler i) (htodo : g.todo = [])
    (h : (t.setFlight none).commit g i = exec i s) : After 0 (t.goOn g) (onNext (exec i s) (·.endCycle i)) := by
  rw [State.goOn_of_nil htodo, State.finishStage, hstage, ← h]
  exact .zero _

/-- A handler at its entry. -/
def State.handlerFlight (s : State) (i : Instr) : Flight := { stage := .handler i, todo := plan s.cpu i, seen := [] }

theorem beginHandler_eq_goOn (s : State) (i : Instr) :
    s.beginHandler i = (s.setPc (s.cpu.pc + 2)).goOn ((s.setPc (s.cpu.pc + 2)).handlerFlight i) := by
  unfold State.beginHandler
  simp only
  split
  · rename_i h
    have hnil := List.isEmpty_iff.1 h
    rw [State.goOn_of_nil hnil, State.handlerFlight, hnil]
    rfl
  · rename_i h
    exact (State.goOn_of_ne_nil (by simpa using h)).symm

/-- A handler that raises an accepted exception. -/
theorem After.raised {s : State} (hrun : s.idle.cpu.run = .running) (hm : s.idle.mem.wf) {i : Instr} {kind : Nat}
    (hk : kind ≤ 2) (ha : s.idle.cpu.accepts = true) (hplan : plan s.idle.cpu i = entryPlan s.idle.cpu kind)
    (hcommit : ∀ g, s.idle.storeEntry.commit g i = .next (s.idle.storeEntry.enterAt (g.wordAt 0)))
    (hexec : ∀ t, s.idle.raise kind = some t → exec i s.idle = .next t) :
    After (plan s.idle.cpu i).flatten.length (s.idle.goOn (s.idle.handlerFlight i))
      (onNext (exec i s.idle) (·.endCycle i)) := by
  rw [show (plan s.idle.cpu i).flatten.length = 0 + 6 by rw [hplan]; rfl]
  refine .entry hrun hm hplan fun g hs ht hw => .finish hs ht ?_
  rw [hexec _ (State.raise_eq_enterAt ha hk), ← hw]
  exact hcommit g

/-- The accesses of a handler, taken without interruption, make what `exec` gives, for every instruction. -/
theorem After.handler {s : State} (hrun : s.idle.cpu.run = .running) (hm : s.idle.mem.wf) (i : Instr) :
    After (plan s.idle.cpu i).flatten.length (s.idle.goOn (s.idle.handlerFlight i))
      (onNext (exec i s.idle) (·.endCycle i)) := by
  cases i
  case ret =>
    show After 2 _ _
    exact .readWord hrun rfl fun g hs ht hw _ => .finish hs ht (by rw [State.commit, hw]; rfl)
  case pop ra =>
    show After 2 _ _
    exact .readWord hrun rfl fun g hs ht hw _ => .finish hs ht (by rw [State.commit, hw]; rfl)
  case load ra rb =>
    show After 2 _ _
    exact .readWord hrun rfl fun g hs ht hw _ => .finish hs ht (by rw [State.commit, hw]; rfl)
  case iret =>
    show After 4 _ _
    refine .readWord hrun rfl fun f hs ht hw _ => .readWord hrun ht fun g hs' ht' hw' hkeep => .finish (hs'.trans hs) ht' ?_
    have hfirst : g.wordAt 0 = f.wordAt 0 := by
      rw [Flight.wordAt, hkeep 0 (by decide) (by decide), hkeep 1 (by decide) (by decide), Flight.wordAt]
    have hsecond : s.idle.dropTop.top = s.idle.readWord (s.idle.reg Reg.sp + 2) := by
      rw [State.top, State.dropTop_reg, if_pos rfl]; rfl
    rw [State.commit, hw', hfirst, hw, State.cpu_reg, ← hsecond]
    rfl
  case push ra => exact .writeWord (n := 0) hrun hm rfl (.finish rfl rfl rfl)
  case callr ra => exact .writeWord (n := 0) hrun hm rfl (.finish rfl rfl rfl)
  case call addr => exact .writeWord (n := 0) hrun hm rfl (.finish rfl rfl rfl)
  case stor ra rb => exact .writeWord (n := 0) hrun hm rfl (.finish rfl rfl rfl)
  case out ra => exact .single (n := 0) hrun rfl rfl (.finish rfl rfl rfl)
  case storb ra rb => exact .single (n := 0) hrun rfl rfl (.finish rfl rfl rfl)
  case loadb ra rb => exact .single (n := 0) hrun rfl rfl (.finish rfl rfl rfl)
  case loada ra rb =>
    show After 4 _ _
    exact .single hrun rfl rfl <| .readWord (by exact hrun) rfl fun g hs ht hw _ =>
      .single (by exact hrun) ht rfl <| .finish hs rfl (congrArg (fun w => Host.Outcome.next (s.idle.setReg rb w)) hw)
  case stora ra rb =>
    show After 4 _ _
    exact .single hrun rfl rfl <| .writeWord (by exact hrun) hm rfl <| .single (by exact hrun) rfl rfl <| .finish rfl rfl rfl
  case tnset ra rb =>
    show After 6 _ _
    exact .single hrun rfl rfl <| .readWord (by exact hrun) rfl fun g hs ht hw _ =>
      .single (by exact hrun) ht rfl <| .single (by exact hrun) rfl rfl <| .single (by exact hrun) rfl rfl <|
        .finish hs rfl (congrArg (fun w => Host.Outcome.next (((s.idle.writeByte _ 0x00).writeByte _ 0x01).setReg rb w)) hw)
  case trap =>
    by_cases ha : s.idle.cpu.accepts = true
    · exact .raised hrun hm (by decide) ha (if_pos ha) (fun g => if_pos ha) fun t ht => by simp only [exec, execTrap, ht]
    · rw [State.handlerFlight, show plan s.idle.cpu .trap = [] from if_neg ha]
      exact .finish rfl rfl (if_neg ha)
  case div ra rb =>
    by_cases ha : s.idle.reg ra = 0 ∧ s.idle.cpu.accepts = true
    · exact .raised hrun hm (by decide) ha.2 (if_pos ha) (fun g => if_pos ha) fun t ht => by
        simp only [exec, execDiv, if_pos ha.1, ht]
    · rw [State.handlerFlight, show plan s.idle.cpu (.div ra rb) = [] from if_neg ha]
      exact .finish rfl rfl (if_neg ha)
  all_goals exact .finish rfl rfl rfl

/-! ### The stages before the handler -/

/-- How many accesses the fetch makes (30_encoding.md R81, R95). -/
def State.fetchCount (s : State) : Nat := if takesTrailingWord s.opmap (s.readWord s.cpu.pc) then 4 else 2

theorem After.fetch {n : Nat} {s : State} {o : Host.Outcome State Fault Refusal} (hrun : s.cpu.run = .running)
    (h : After n (s.beginHandler s.fetch) o) : After (n + s.fetchCount) (s.goOn s.fetchFlight) o := by
  by_cases hx : takesTrailingWord s.opmap (s.readWord s.cpu.pc) = true
  · rw [State.fetchCount, if_pos hx]
    refine .readWord (n := n + 2) hrun rfl fun f hs ht hw _ => ?_
    rw [State.goOn_of_nil ht, State.finishStage, hs]
    simp only [State.fetchFlight, hw, hx, if_true]
    rw [← State.goOn_of_ne_nil (by simp)]
    refine .readWord hrun rfl fun g hs' ht' hw' hkeep => ?_
    have hfirst : g.wordAt 0 = s.readWord s.cpu.pc := by
      rw [← hw, Flight.wordAt, hkeep 0 (by decide) (by decide), hkeep 1 (by decide) (by decide)]; rfl
    rw [State.goOn_of_nil ht', State.finishStage, hs']
    simpa only [hfirst, hw', State.fetch, hx, if_true] using h
  · rw [State.fetchCount, if_neg hx]
    refine .readWord hrun rfl fun f hs ht hw _ => ?_
    rw [State.goOn_of_nil ht, State.finishStage, hs]
    simpa only [State.fetchFlight, hw, State.fetch, hx, Bool.false_eq_true, if_false] using h

/-- The number of accesses of a cycle. -/
def State.cycleCount (s : State) : Nat := (plan (s.setPc (s.cpu.pc + 2)).cpu s.fetch).flatten.length + s.fetchCount

/-- One cycle, taken access by access (R60, R96). -/
theorem After.cycle {s : State} (hrun : s.cpu.run = .running) (hm : s.mem.wf) (hl : s.lock = none)
    (hf : s.cpu.flight = none) : After s.cycleCount (s.goOn s.fetchFlight) s.runCycle := by
  refine .fetch hrun ?_
  have hidle : (s.setPc (s.cpu.pc + 2)).idle = s.setPc (s.cpu.pc + 2) := by
    unfold State.idle State.setLock State.setFlight State.setPc
    rw [← hl, ← hf]
  rw [beginHandler_eq_goOn, State.runCycle, ← hidle]
  exact .handler (s := s.setPc (s.cpu.pc + 2)) hrun hm _

/-- No handler makes more than 6 accesses, and that of an extended instruction at most 2. -/
theorem plan_length_le (c : Context) (i : Instr) :
    (plan c i).flatten.length ≤ 6 ∧ (i.trailingWords ≠ [] → (plan c i).flatten.length ≤ 2) := by
  cases i
  case trap => simp only [plan]; split <;> simp [Instr.trailingWords, entryPlan, readWordAccesses, writeWordAccesses]
  case div ra rb => simp only [plan]; split <;> simp [Instr.trailingWords, entryPlan, readWordAccesses, writeWordAccesses]
  all_goals simp [plan, Instr.trailingWords, lockedPlan, readWordAccesses, writeWordAccesses]

/-- A word that takes a trailing word stands for an instruction with one (R81). -/
theorem trailingWords_instrOfWords {m : OpMap} {w : Word} (v : Word) (h : takesTrailingWord m w = true) :
    (instrOfWords m w v).trailingWords ≠ [] := by
  unfold takesTrailingWord at h
  unfold instrOfWords
  cases hl : m.lookup (decodeFields w).opcode with
  | none => simp [hl] at h
  | some op => cases op <;> simp_all [Operation.format, Format.hasTrailingWord, Operation.instr, Instr.trailingWords]

theorem State.cycleCount_bounds (s : State) : 0 < s.cycleCount ∧ s.cycleCount ≤ 8 := by
  obtain ⟨h6, h2⟩ := plan_length_le (s.setPc (s.cpu.pc + 2)).cpu s.fetch
  unfold State.cycleCount State.fetchCount
  split
  · rename_i hx
    have := h2 (trailingWords_instrOfWords _ hx)
    omega
  · omega

/-! ### The round -/

theorem accessFlight_setFlight {s : State} (hl : s.lock = none) (fl : Option Flight) (f : Flight) (pick : Nat) :
    (s.setFlight fl).accessFlight f pick = s.accessFlight f pick := by
  cases hn : nextAccess f.todo pick with
  | none => simp only [State.accessFlight, hn, finishStage_setFlight]
  | some r =>
    obtain ⟨x, rest⟩ := r
    obtain ⟨⟨t, g⟩, hp⟩ : ∃ r, s.perform f x = some r := by cases x <;> simp [State.perform, hl]
    rw [accessFlight_of_nextAccess hn hp, accessFlight_of_nextAccess hn (perform_setFlight fl hp), goOn_setFlight]

/-- The first access of a cycle, which begins with the accesses of `f`. -/
theorem After.start {n : Nat} {s : State} {o : Host.Outcome State Fault Refusal} (f : Flight) (hrun : s.cpu.run = .running)
    (hl : s.lock = none) (hn : 0 < n) (htodo : f.todo ≠ []) (hstart : ∀ p, s.accessTurn p = s.accessFlight f p)
    (h : After n (s.goOn f) o) : After n (.next s) o := by
  obtain ⟨m, rfl⟩ := Nat.exists_eq_succ_of_ne_zero hn.ne'
  refine .step fun p ps hps => ?_
  rw [State.goOn_of_ne_nil htodo] at h
  have hturn : (s.setFlight (some f)).accessTurn p = s.accessTurn p := by
    rw [hstart, ← accessFlight_setFlight hl (some f)]
    simp [State.accessTurn, hrun]
  rw [← hturn]
  exact h (p :: ps) (by simp [hps])

/-- A round that ends at once. -/
theorem After.one {s : State} {o : Host.Outcome State Fault Refusal} (h : ∀ p, s.accessTurn p = o) : After 1 (.next s) o :=
  .step fun p => h p ▸ .zero o

/-- The entry of a due tick, taken access by access (60_exceptions.md R215, R221). -/
theorem After.tick {n : Nat} {s t : State} {o : Host.Outcome State Fault Refusal} (hrun : s.cpu.run = .running)
    (hm : s.mem.wf) (hr : s.raise ExcKind.interrupt.ordinal = some t) (h : After n (t.goOn t.fetchFlight) o) :
    After (n + 6) (s.goOn s.tickFlight) o := by
  have ha : s.cpu.accepts = true := (raise_control hr).1
  obtain rfl := Option.some.inj (hr.symm.trans (State.raise_eq_enterAt ha (by decide)))
  refine .entry hrun hm rfl fun g hs ht hw => ?_
  rw [State.goOn_of_nil ht, State.finishStage, hs, hw]
  exact h

/-- The accesses of a round, at most 6 for a tick and 8 for the cycle, make the round. -/
theorem After.round {s : State} (hm : s.mem.wf) (hl : s.lock = none) (hrun : s.cpu.run = .running)
    (hf : s.cpu.flight = none) : ∃ n, 0 < n ∧ n ≤ 14 ∧ After n (.next s) s.loopRound := by
  cases hb : s.boundary with
  | exhausted =>
    exact ⟨1, by decide, by decide, .one fun p => by simp only [State.accessTurn, State.loopRound, hrun, hf, hb]⟩
  | go =>
    obtain ⟨hpos, hle⟩ := s.cycleCount_bounds
    have hround : s.loopRound = s.runCycle := by simp [State.loopRound, hrun, hb]
    refine ⟨s.cycleCount, hpos, by omega, .start s.fetchFlight hrun hl hpos (by simp [State.fetchFlight]) (fun p => ?_) ?_⟩
    · simp [State.accessTurn, hrun, hf, hb]
    · exact hround ▸ .cycle hrun hm hl hf
  | tick =>
    by_cases ha : s.cpu.accepts = true
    · obtain ⟨t, hr⟩ := State.raise_isSome (kind := ExcKind.interrupt.ordinal) ha (by decide)
      obtain ⟨-, ht⟩ := State.raise_eq_some hr
      have hround : s.loopRound = t.runCycle := by simp [State.loopRound, hrun, hb, hr]
      have cycle : After t.cycleCount (t.goOn t.fetchFlight) t.runCycle :=
        .cycle (by rw [ht]; exact hrun) ((raise_turnEffect hr).mem hm) (by rw [ht]; exact hl) (by rw [ht]; exact hf)
      obtain ⟨-, hle⟩ := t.cycleCount_bounds
      refine ⟨t.cycleCount + 6, by omega, by omega,
        .start s.tickFlight hrun hl (by omega) (by simp [State.tickFlight, entryPlan]) (fun p => ?_) ?_⟩
      · simp [State.accessTurn, hrun, hf, hb, ha]
      · exact hround ▸ .tick hrun hm hr cycle
    · have hr := State.raise_of_not_accepts (kind := ExcKind.interrupt.ordinal) ha
      exact ⟨1, by decide, by decide, .one fun p => by simp [State.accessTurn, State.loopRound, hrun, hf, hb, hr, ha]⟩

/-- Settles O48: a round's accesses make the round, whichever order the choices give to the bytes of each word. -/
theorem uninterruptedAccessesMakeTheCycle : Obligations.UninterruptedAccessesMakeTheCycle := by
  intro s picks hm hl hrun hf hlen
  obtain ⟨n, hpos, hn, h⟩ := After.round hm hl hrun hf
  exact ⟨n, hpos, hn, h (picks.take n) (by simp; omega)⟩

end Sys2Proof.Machine

/-! Proofs about the encoding (30_encoding.md): what the decoder answers for each kind of opcode, that it inverts the encoder, what
a cycle runs of the bytes at `pc`, and that the opcode table is constant and changes no meaning. -/

namespace Sys2Proof

open Machine

/-! ## Fields of an instruction word (R82, decisions D1, D2) -/

@[simp] theorem decodeFields_opcode (hi lo : Byte) : (decodeFields (joinBytes hi lo)).opcode = hi := hiByte_joinBytes hi lo

@[simp] theorem decodeFields_imm8 (hi lo : Byte) : (decodeFields (joinBytes hi lo)).imm8 = lo := loByte_joinBytes hi lo

/-- reg1 is bits 7:4 of the operand byte. -/
theorem decodeFields_reg1 (hi lo : Byte) : (decodeFields (joinBytes hi lo)).reg1 = Fin.ofNat 16 (lo.toNat / 16) := by
  apply Fin.ext
  simp only [decodeFields, regOfBits, Fin.val_ofNat, BitVec.val_toFin, BitVec.extractLsb'_toNat, toNat_joinBytes,
    Nat.shiftRight_eq_div_pow]
  omega

/-- reg2 is bits 3:0 of the operand byte. -/
theorem decodeFields_reg2 (hi lo : Byte) : (decodeFields (joinBytes hi lo)).reg2 = Fin.ofNat 16 (lo.toNat % 16) := by
  apply Fin.ext
  simp only [decodeFields, regOfBits, Fin.val_ofNat, BitVec.val_toFin, BitVec.extractLsb'_toNat, toNat_joinBytes,
    Nat.shiftRight_eq_div_pow]
  omega

theorem toNat_regFields (a b : Reg) : (regFields a b).toNat = a.val * 16 + b.val := by
  rw [regFields, BitVec.toNat_append, ← Nat.shiftLeft_add_eq_or_of_lt b.isLt]
  simp [bitsOfReg, Nat.shiftLeft_eq]

/-- The first register written into an operand byte is read from it. -/
@[simp] theorem decodeFields_regFields_reg1 (hi : Byte) (a b : Reg) :
    (decodeFields (joinBytes hi (regFields a b))).reg1 = a := by
  apply Fin.ext
  simp only [decodeFields_reg1, toNat_regFields, Fin.val_ofNat]
  omega

/-- The second register written into an operand byte is read from it. -/
@[simp] theorem decodeFields_regFields_reg2 (hi : Byte) (a b : Reg) :
    (decodeFields (joinBytes hi (regFields a b))).reg2 = b := by
  apply Fin.ext
  simp only [decodeFields_reg2, toNat_regFields, Fin.val_ofNat]
  omega

@[simp] theorem decodeFields_regField_reg1 (hi : Byte) (a : Reg) : (decodeFields (joinBytes hi (regField a))).reg1 = a :=
  decodeFields_regFields_reg1 hi a 0

theorem joinBytes_eq_ofNat (h l : Byte) : joinBytes h l = BitVec.ofNat 16 (h.toNat * 256 + l.toNat) := by
  rw [← toNat_joinBytes, BitVec.ofNat_toNat, BitVec.setWidth_eq]

/-! ## What a legal table holds (R90, R91, decision D3) -/

/-- 0x00 is unmapped. -/
theorem OpMap.maps_zero {m : OpMap} (hm : m.legal = true) : m.maps 0x00 = false := by
  obtain ⟨-, -, -, hzero, -⟩ := m.legal_iff.1 hm
  exact hzero

/-- A legal table's operations are all of the 44, each once. -/
theorem OpMap.length_of_legal {m : OpMap} (hm : m.legal = true) : m.length = 44 := by
  obtain ⟨-, hnodup, hall, -, -⟩ := m.legal_iff.1 hm
  have hperm : (m.map (·.operation)).Perm Operation.all := by
    refine (List.perm_ext_iff_of_nodup hnodup (by decide)).2 fun o => ⟨fun _ => o.mem_all, fun ho => ?_⟩
    exact List.mem_map.2 (hall o ho)
  rw [← List.length_map (·.operation), hperm.length_eq]
  rfl

/-- The mapped opcodes are those of the rows. -/
theorem OpMap.maps_iff_mem {m : OpMap} {b : Byte} : m.maps b = true ↔ b ∈ m.map (·.opcode) := by
  simp [OpMap.maps, OpMap.lookup]

/-- 44 of the 256 opcodes are mapped. -/
theorem OpMap.length_mapped {m : OpMap} (hm : m.legal = true) :
    ((List.range 256).filter fun n => m.maps (BitVec.ofNat 8 n)).length = 44 := by
  obtain ⟨hnodup, -⟩ := m.legal_iff.1 hm
  have hrows : ((m.map (·.opcode)).map BitVec.toNat).Nodup := hnodup.map fun _ _ => BitVec.eq_of_toNat_eq
  have hperm : ((List.range 256).filter fun n => m.maps (BitVec.ofNat 8 n)).Perm ((m.map (·.opcode)).map BitVec.toNat) := by
    refine (List.perm_ext_iff_of_nodup (List.nodup_range.filter _) hrows).2 fun n => ?_
    rw [List.mem_filter, List.mem_range, OpMap.maps_iff_mem, List.mem_map (f := BitVec.toNat)]
    constructor
    · rintro ⟨hn, hb⟩
      exact ⟨_, hb, Nat.mod_eq_of_lt hn⟩
    · rintro ⟨b, hb, rfl⟩
      exact ⟨b.isLt, by simpa using hb⟩
  simp [hperm.length_eq, OpMap.length_of_legal hm]

/-- The other 212 opcodes are unmapped (R92). -/
theorem OpMap.length_unmapped {m : OpMap} (hm : m.legal = true) :
    ((List.range 256).filter fun n => !m.maps (BitVec.ofNat 8 n)).length = 212 := by
  have hsum := List.length_eq_length_filter_add (l := List.range 256) fun n => m.maps (BitVec.ofNat 8 n)
  rw [OpMap.length_mapped hm, List.length_range] at hsum
  omega

theorem opmap_legal : opmap.legal = true := by decide

/-! ## What the decoder answers (R81, R87, R92) -/

section Decoder

variable {m : OpMap} {hi : Byte}

theorem OpMap.maps_eq_false_iff : m.maps hi = false ↔ m.lookup hi = none := by
  simp [OpMap.maps]

theorem OpMap.maps_eq_true_iff : m.maps hi = true ↔ ∃ o, m.lookup hi = some o := Option.isSome_iff_exists

theorem takesTrailingWord_of_lookup {o : Operation} (h : m.lookup hi = some o) (lo : Byte) :
    takesTrailingWord m (joinBytes hi lo) = o.format.hasTrailingWord := by
  simp [takesTrailingWord, h]

theorem instrOfWords_of_lookup {o : Operation} (h : m.lookup hi = some o) (lo : Byte) (v : Word) :
    instrOfWords m (joinBytes hi lo) v = o.instr (decodeFields (joinBytes hi lo)) v := by
  simp [instrOfWords, h]

/-- An unmapped opcode is `bad`, two bytes long. -/
theorem decodeWith_unmapped (h : m.lookup hi = none) (lo : Byte) (rest : List Byte) :
    decodeWith m (hi :: lo :: rest) = .ok (.bad hi, rest) := by
  simp [decodeWith, takesTrailingWord, instrOfWords, h]

/-- A defined opcode of a format without a trailing word is two bytes long. -/
theorem decodeWith_short {o : Operation} (h : m.lookup hi = some o) (ho : o.format.hasTrailingWord = false) (lo : Byte)
    (rest : List Byte) :
    decodeWith m (hi :: lo :: rest) = .ok (o.instr (decodeFields (joinBytes hi lo)) 0, rest) := by
  simp [decodeWith, takesTrailingWord_of_lookup h, instrOfWords_of_lookup h, ho]

/-- A defined opcode of an extended format is four bytes long. -/
theorem decodeWith_extended {o : Operation} (h : m.lookup hi = some o) (ho : o.format.hasTrailingWord = true)
    (lo h2 l2 : Byte) (rest : List Byte) :
    decodeWith m (hi :: lo :: h2 :: l2 :: rest) = .ok (o.instr (decodeFields (joinBytes hi lo)) (joinBytes h2 l2), rest) := by
  simp [decodeWith, takesTrailingWord_of_lookup h, instrOfWords_of_lookup h, ho]

/-- The decoder on a list of at least two words. -/
theorem decodeWith_two_words (m : OpMap) (hi lo h2 l2 : Byte) (rest : List Byte) :
    decodeWith m (hi :: lo :: h2 :: l2 :: rest) =
      if takesTrailingWord m (joinBytes hi lo) then
        .ok (instrOfWords m (joinBytes hi lo) (joinBytes h2 l2), rest)
      else .ok (instrOfWords m (joinBytes hi lo) 0, h2 :: l2 :: rest) := rfl

/-- With two bytes at hand for a trailing word, any defined opcode decodes, whatever its format. -/
theorem decodeWith_of_lookup {o : Operation} (h : m.lookup hi = some o) (lo h2 l2 : Byte) (rest : List Byte) :
    decodeWith m (hi :: lo :: h2 :: l2 :: rest) =
      if o.format.hasTrailingWord then .ok (o.instr (decodeFields (joinBytes hi lo)) (joinBytes h2 l2), rest)
      else .ok (o.instr (decodeFields (joinBytes hi lo)) 0, h2 :: l2 :: rest) := by
  simp only [decodeWith_two_words, takesTrailingWord_of_lookup h, instrOfWords_of_lookup h]

/-- With fewer than two bytes after its first word an extended instruction is rejected (notes/assumptions/28.md). -/
theorem decodeWith_truncated {o : Operation} (h : m.lookup hi = some o) (ho : o.format.hasTrailingWord = true) (lo : Byte)
    {rest : List Byte} (hrest : rest.length < 2) :
    decodeWith m (hi :: lo :: rest) = .error .truncatedTrailingWord := by
  match rest, hrest with
  | [], _ => simp [decodeWith, takesTrailingWord_of_lookup h, ho]
  | [_], _ => simp [decodeWith, takesTrailingWord_of_lookup h, ho]

/-- What a legal table's opcode decodes to is well formed and has that opcode. -/
theorem Operation.instr_wellFormedIn (hm : m.legal = true) {o : Operation} (h : m.lookup hi = some o) (f : Fields)
    (v : Word) : (o.instr f v).wellFormedIn m = true ∧ (o.instr f v).opcodeIn m = hi := by
  simp [Instr.wellFormedIn, Instr.opcodeIn, OpMap.opcodeOf_of_lookup hm h]

/-- A legal table's opcode takes a trailing word exactly in class 11 (R81). -/
theorem OpMap.hasTrailingWord_iff (hm : m.legal = true) {o : Operation} (h : m.lookup hi = some o) :
    o.format.hasTrailingWord = true ↔ classOf hi = .extended :=
  Format.hasTrailingWord_of_fits (OpMap.fits_of_lookup hm h)

end Decoder

/-! ## Decoding inverts encoding -/

/-- An instruction without a defined head is `bad`. -/
theorem Instr.eq_bad_of_head {i : Instr} {op : Byte} (h : i.head = .unmapped op) : i = .bad op := by
  cases i
  case bad => cases h; rfl
  all_goals cases h

/-- A defined instruction is made of the fields of its operand byte and its trailing word (R82 to R84). -/
theorem Instr.eq_instr_of_head {i : Instr} {o : Operation} (h : i.head = .defined o) (op : Byte) :
    o.instr (decodeFields (joinBytes op i.operandByte)) (i.trailingWords.headD 0) = i := by
  cases i <;> cases h <;> simp [Operation.instr, Instr.operandByte, Instr.trailingWords]

/-- A defined instruction has the trailing words of its format (R80, R84). -/
theorem Instr.trailingWords_of_head {i : Instr} {o : Operation} (h : i.head = .defined o) :
    i.trailingWords = if o.format.hasTrailingWord then [i.trailingWords.headD 0] else [] := by
  cases i <;> cases h <;> rfl

/-- An instruction's bytes are its opcode, its operand byte and its trailing words (R80). -/
theorem encodeBytesWith_append (m : OpMap) (i : Instr) (rest : List Byte) :
    encodeBytesWith m i ++ rest =
      i.opcodeIn m :: i.operandByte :: (i.trailingWords.flatMap wordBytes ++ rest) := by
  simp [encodeBytesWith, encodeWith, wordBytes]

/-- With a legal table, decoding an instruction's bytes gives it back and leaves the bytes after them. -/
theorem decodeWith_encodeBytesWith {m : OpMap} (hm : m.legal = true) {i : Instr} (hi : i.wellFormedIn m = true)
    (rest : List Byte) : decodeWith m (encodeBytesWith m i ++ rest) = .ok (i, rest) := by
  have hlookup := Instr.lookup_opcodeIn hm hi
  rw [encodeBytesWith_append]
  cases hhead : i.head with
  | unmapped op =>
    obtain rfl := Instr.eq_bad_of_head hhead
    exact decodeWith_unmapped hlookup 0 rest
  | defined o =>
    rw [hhead] at hlookup
    have hinstr := Instr.eq_instr_of_head hhead (i.opcodeIn m)
    cases hx : o.format.hasTrailingWord with
    | false =>
      have hnone : i.trailingWords = [] := by simpa [hx] using Instr.trailingWords_of_head hhead
      rw [hnone] at hinstr ⊢
      rw [decodeWith_short hlookup hx]
      exact congrArg (fun j => Except.ok (j, rest)) hinstr
    | true =>
      obtain ⟨v, hv⟩ : ∃ v, i.trailingWords = [v] := ⟨_, (Instr.trailingWords_of_head hhead).trans (if_pos hx)⟩
      rw [hv, List.headD_cons, ← joinBytes_hiByte_loByte v] at hinstr
      rw [hv]
      exact (decodeWith_extended hlookup hx i.operandByte (hiByte v) (loByte v) rest).trans
        (congrArg (fun j => Except.ok (j, rest)) hinstr)

/-- Settles O3: a legal table looks an instruction's opcode up as its head, and its fields and trailing word make it again. -/
theorem decodeInvertsEncode : Obligations.DecodeInvertsEncode :=
  ⟨fun _ _ rest hm hi => decodeWith_encodeBytesWith hm hi rest, fun _ rest hi => decodeWith_encodeBytesWith opmap_legal hi rest⟩

/-- Settles O4, from what the decoder answers for each kind of opcode: only class 11 has the formats with a trailing word. -/
theorem everyWordDecodesWithTheLengthOfItsClass : Obligations.EveryWordDecodesWithTheLengthOfItsClass := by
  intro m hi lo rest hm
  refine ⟨fun hmap => decodeWith_unmapped (OpMap.maps_eq_false_iff.1 hmap) lo rest, fun hmap hcls => ?_, fun hmap hcls => ?_⟩
  all_goals
    obtain ⟨o, ho⟩ := OpMap.maps_eq_true_iff.1 hmap
    have hformat := OpMap.hasTrailingWord_iff hm ho
  · have hshort : o.format.hasTrailingWord = false := by simpa [hcls] using hformat
    exact ⟨_, decodeWith_short ho hshort lo rest, Operation.instr_wellFormedIn hm ho _ _⟩
  · have hlong : o.format.hasTrailingWord = true := hformat.2 hcls
    refine ⟨?_, fun hrest => decodeWith_truncated ho hlong lo hrest⟩
    rintro h l tail rfl
    exact ⟨_, decodeWith_extended ho hlong lo h l tail, Operation.instr_wellFormedIn hm ho _ _⟩

/-- Settles O56: the decoder's answer for each instruction, with the fields of the operand byte and the trailing word. -/
theorem decodedOperandsAreTheFieldsOfTheWord : Obligations.DecodedOperandsAreTheFieldsOfTheWord := by
  intro m hi lo h l rest o ho a b v
  have ha : (decodeFields (joinBytes hi lo)).reg1 = a := decodeFields_reg1 hi lo
  have hb : (decodeFields (joinBytes hi lo)).reg2 = b := decodeFields_reg2 hi lo
  have hv : joinBytes h l = v := joinBytes_eq_ofNat h l
  rw [decodeWith_of_lookup ho, hv]
  cases o <;> simp [Operation.instr, Operation.format, Format.hasTrailingWord, ha, hb]

/-- Settles O1: one word per format, decoded. -/
theorem sampleWordsDecodeAsTheTableSays : Obligations.SampleWordsDecodeAsTheTableSays := by
  unfold Obligations.SampleWordsDecodeAsTheTableSays
  decide

/-- Settles O2: R90's table is legal, and legality gives the rest. -/
theorem opcodeMapIsUnambiguous : Obligations.OpcodeMapIsUnambiguous := by
  obtain ⟨hnodup, -, -, hzero, hfits⟩ := opmap.legal_iff.1 opmap_legal
  refine ⟨opmap_legal, OpMap.length_of_legal opmap_legal, hnodup, hzero, fun r hr => ?_⟩
  have hfit := hfits r hr
  revert hfit
  cases r.operation.format <;> simp +contextual [Format.fits]

end Sys2Proof

namespace Sys2Proof.Machine

/-! ## The cycle and the bytes at `pc` (R92, R95) -/

/-- An instruction is the halting one exactly for an unmapped opcode. -/
theorem isBad_instrOfWords (m : OpMap) (hi lo : Byte) (v : Word) :
    (instrOfWords m (joinBytes hi lo) v).isBad = !m.maps hi := by
  cases h : m.lookup hi with
  | none => simp [instrOfWords, OpMap.maps, h, Instr.isBad, Instr.head]
  | some o => simp [instrOfWords, OpMap.maps, h, Instr.isBad]

theorem State.isBad_fetch (s : State) : s.fetch.isBad = !s.opmap.maps (s.readByte s.cpu.pc) :=
  isBad_instrOfWords _ _ _ _

/-- What is fetched is what the decoder reads from the four bytes at `pc`. -/
theorem State.decodeWith_eq_fetch (s : State) :
    ∃ rest, decodeWith s.opmap [s.readByte s.cpu.pc, s.readByte (s.cpu.pc + 1), s.readByte (s.cpu.pc + 2),
      s.readByte (s.cpu.pc + 3)] = .ok (s.fetch, rest) := by
  have hlast : s.cpu.pc + 3 = s.cpu.pc + 2 + 1 := by rw [BitVec.add_assoc]; rfl
  rw [decodeWith_two_words, hlast]
  by_cases hx : takesTrailingWord s.opmap (s.readWord s.cpu.pc) = true
  · exact ⟨_, (if_pos hx).trans (by rw [State.fetch, if_pos hx]; rfl)⟩
  · exact ⟨_, (if_neg hx).trans (by rw [State.fetch, if_neg hx]; rfl)⟩

/-- `bad` has no effect of its own (R92). -/
theorem exec_of_isBad {i : Instr} (h : i.isBad = true) (s : State) : exec i s = .next s := by
  cases i
  case bad => rfl
  all_goals cases h

/-- At a cycle nothing stands before the cycle (R221). -/
theorem State.AtCycle.boundary {s : State} (h : s.AtCycle) : s.boundary = .go := by
  have hbudget : s.budgetSpent = false := by
    have := h.budget
    simp only [State.budgetSpent, decide_eq_false_iff_not]
    omega
  have htick : (s.tickDue && !flagX s.cpu.st) = false := by
    rcases h.noTick with h | h | h | h <;> simp [State.tickDue, h]
  simp [State.boundary, hbudget, htick]

theorem State.AtCycle.step_eq {s : State} (h : s.AtCycle) : step s = s.runCycle := by
  simp [step, State.takeTurn, h.sched, State.cycleTurn, h.between, State.loopRound, h.running, h.boundary]

/-- The cycle of an unmapped opcode (R92). -/
theorem State.runCycle_of_isBad {s : State} (h : s.fetch.isBad = true) :
    s.runCycle = .next ((s.setPc (s.cpu.pc + 2)).stop .halt) := by
  simp [State.runCycle, exec_of_isBad h, onNext, State.endCycle, h]

/-- The cycle of a mapped opcode leaves its context running or stops it with ARITH. -/
theorem State.run_of_runCycle {s t : State} (hbad : s.fetch.isBad = false) (h : s.runCycle = .next t) :
    t.cpu.run = s.cpu.run ∨ t.cpu.run = .stopped .arith := by
  obtain ⟨u, hu, rfl⟩ := runCycle_cases h
  have hrun : u.cpu.run = s.cpu.run ∨ u.cpu.run = .stopped .arith := (exec_effect hu).run
  rcases endCycle_cases u s.fetch with ⟨hbad', -⟩ | ⟨he, -⟩ | ⟨he, -⟩
  · simp [hbad] at hbad'
  · rwa [he]
  · rwa [he]

/-- Settles O38: at a cycle the step is the cycle, and what it fetches is the halting instruction exactly for an unmapped opcode. -/
theorem unmappedOpcodeHalts : Obligations.UnmappedOpcodeHalts := by
  refine ⟨fun op s => rfl, fun s hs hmap => ?_, fun s t hs hmap h => ?_, ?_, ?_⟩
  · have hbad : s.fetch.isBad = true := by simp [s.isBad_fetch, hmap]
    rw [hs.step_eq, s.runCycle_of_isBad hbad]
  · have hbad : s.fetch.isBad = false := by simp [s.isBad_fetch, hmap]
    rw [hs.step_eq] at h
    rcases s.run_of_runCycle hbad h with hr | hr <;> simp [hr, hs.running]
  · exact OpMap.length_unmapped opmap_legal
  · exact OpMap.maps_zero opmap_legal

/-- Settles O37: the decoder reads from memory what the cycle fetches, and no instruction changes `cyc`. -/
theorem stepRunsTheDecodedInstruction : Obligations.StepRunsTheDecodedInstruction := by
  intro s i rest hs hdec t hexec
  obtain ⟨rest', hfetch⟩ := s.decodeWith_eq_fetch
  obtain rfl : s.fetch = i := congrArg Prod.fst (Except.ok.inj (hfetch.symm.trans hdec))
  refine ⟨by rw [hs.step_eq, State.runCycle, hexec]; rfl, fun hbad hrun hflight => ?_⟩
  have hcyc : t.cpu.cyc = s.cpu.cyc := (exec_effect hexec).kept.cyc
  simp [State.endCycle, hbad, hrun, hflight, hcyc]

/-! ## The opcode table (R91) -/

/-- No step changes the opcode table. -/
theorem step_opmap {s t : State} (h : step s = .next t) : t.opmap = s.opmap := by
  obtain ⟨u, -, -, -, -, -, -, hm, hturn⟩ := step_cases h
  rw [← hm]
  rcases hturn with rfl | ⟨-, hl⟩ | ⟨pick, ha⟩
  · rfl
  · exact (loopRound_turnEffect hl).kept.opmap
  · exact (accessTurn_turnEffect ha).kept.opmap

/-- Replace the opcode table. -/
def State.setOpmap (s : State) (m : OpMap) : State := { s with opmap := m }

@[simp] theorem State.setOpmap_cpu (s : State) (m : OpMap) : (s.setOpmap m).cpu = s.cpu := rfl
@[simp] theorem State.setOpmap_reg (s : State) (m : OpMap) (q : Reg) : (s.setOpmap m).reg q = s.reg q := rfl

/-- An exception is raised whatever the opcode table is. -/
theorem State.raise_setOpmap (s : State) (m : OpMap) (kind : Nat) :
    (s.setOpmap m).raise kind = (s.raise kind).map fun t => t.setOpmap m := by
  cases hr : s.raise kind with
  | none => exact (State.raise_eq_none_iff _ kind).2 ((State.raise_eq_none_iff s kind).1 hr)
  | some t =>
    obtain ⟨haccepts, -⟩ := raise_control hr
    obtain ⟨⟨-, -, hkind⟩, rfl⟩ := State.raise_eq_some hr
    obtain ⟨u, hu⟩ := State.raise_isSome (s := s.setOpmap m) haccepts hkind
    obtain ⟨-, rfl⟩ := State.raise_eq_some hu
    exact hu

/-- An atomic waits or runs whatever the opcode table is, if its body does not depend on it. -/
theorem State.withLock_setOpmap {s : State} {i : Instr} {body : State → State} {m : OpMap}
    (hbody : body (s.setOpmap m) = (body s).setOpmap m) :
    (s.setOpmap m).withLock i body = (s.withLock i body).setOpmap m := by
  cases hl : s.lock with
  | none => rw [State.withLock_free hl, State.withLock_free (s := s.setOpmap m) hl, hbody]
  | some k => rw [State.withLock_held hl, State.withLock_held (s := s.setOpmap m) hl]; rfl

/-- No instruction's meaning depends on the opcode table. -/
theorem exec_setOpmap {i : Instr} {s t : State} {m : OpMap} (h : exec i s = .next t) :
    exec i (s.setOpmap m) = .next (t.setOpmap m) := by
  cases i
  case trap =>
    simp only [exec, execTrap, State.raise_setOpmap] at h ⊢
    cases hr : s.raise ExcKind.trap.ordinal <;> rw [hr] at h <;> cases h <;> rfl
  case div ra rb =>
    simp only [exec, execDiv, State.raise_setOpmap, State.setOpmap_reg] at h ⊢
    split at h
    case isTrue hz =>
      rw [if_pos hz]
      cases hr : s.raise ExcKind.fault.ordinal <;> rw [hr] at h <;> cases h <;> rfl
    case isFalse hz => cases h; exact if_neg hz
  case br off =>
    cases h
    by_cases hc : flagC s.cpu.st = true
    · simp [exec, execBr, hc]; rfl
    · simp [exec, execBr, hc]
  case loada ra rb => cases h; exact congrArg Host.Outcome.next (State.withLock_setOpmap rfl)
  case stora ra rb => cases h; exact congrArg Host.Outcome.next (State.withLock_setOpmap rfl)
  case tnset ra rb => cases h; exact congrArg Host.Outcome.next (State.withLock_setOpmap rfl)
  all_goals cases h; rfl

/-- Settles O58: every turn keeps the table, legality lists the 44 instructions, and each meaning is the same with another table. -/
theorem opcodeTableIsConstantAndChangesNoMeaning : Obligations.OpcodeTableIsConstantAndChangesNoMeaning :=
  ⟨fun _ _ => step_opmap, fun _ hm => ⟨OpMap.maps_zero hm, OpMap.length_of_legal hm⟩, fun _ _ _ _ => exec_setOpmap⟩

end Sys2Proof.Machine

/-! Proofs about the no-operand instructions (40_no_operand.md): the status bits, `ret` and `trap`. -/

namespace Sys2Proof.Machine

/-! ## The status bits (40_no_operand.md R111 to R114) -/

/-- A word that is `w` with bit `j` cleared, as one formula over all bits. -/
theorem getLsbD_of_bit_cleared {v w : Word} {j : Nat} (hj : v.getLsbD j = false)
    (hkeep : ∀ k, k ≠ j → v.getLsbD k = w.getLsbD k) (k : Nat) : v.getLsbD k = (w.getLsbD k && k != j) := by
  by_cases hk : k = j
  · simp [hk, hj]
  · simp [hk, hkeep]

/-- A word that is `w` with bit `j` set, as one formula over all bits. -/
theorem getLsbD_of_bit_set {v w : Word} {j : Nat} (hj : v.getLsbD j = true)
    (hkeep : ∀ k, k ≠ j → v.getLsbD k = w.getLsbD k) (k : Nat) : v.getLsbD k = (w.getLsbD k || k == j) := by
  by_cases hk : k = j
  · simp [hk, hj]
  · simp [hk, hkeep]

@[simp] theorem flagD_clearD (st : Word) : flagD (clearD st) = false := by simp [flagD, clearD]

@[simp] theorem flagD_setD (st : Word) : flagD (setD st) = true := by simp [flagD, setD]

/-- Settles O15: each of the four writes its flag and keeps every other bit. -/
theorem statusBitInstructionsWriteOneBit : Obligations.StatusBitInstructionsWriteOneBit := by
  intro s
  refine ⟨⟨_, rfl, ?cld, rfl⟩, ⟨_, rfl, ?std, rfl⟩, ⟨_, rfl, ?cli, rfl⟩, ⟨_, rfl, ?sti, rfl⟩⟩
  case cld => exact getLsbD_of_bit_cleared (flagD_clearD _) fun _ => getLsbD_clearD _
  case std => exact getLsbD_of_bit_set (flagD_setD _) fun _ => getLsbD_setD _
  case cli => exact getLsbD_of_bit_cleared (flagX_clearX _) fun _ => getLsbD_clearX _
  case sti => exact getLsbD_of_bit_set (flagX_setX _) fun _ => getLsbD_setX _

/-! ## `ret` (40_no_operand.md R110) -/

/-- Settles O21: `ret` drops the top of the stack, which writes the stack pointer only, and loads `pc` with it. -/
theorem retPopsThePc : Obligations.RetPopsThePc := by
  intro s
  have hsp : s.dropTop.reg Reg.sp = s.reg Reg.sp + 2 := by rw [State.dropTop_reg, if_pos rfl]
  have hregs : ∀ r, r ∉ [Reg.sp] → s.dropTop.reg r = s.reg r := by
    intro r hr
    rw [State.dropTop_reg, if_neg fun e => hr (by simp [e])]
  exact ⟨s.dropTop.setPc s.top, rfl, rfl, hsp,
    ⟨hregs, fun _ _ => rfl, rfl, rfl, rfl, rfl, rfl, rfl, rfl, rfl, rfl, rfl⟩, rfl, rfl, rfl, rfl⟩

/-! ## `trap` (40_no_operand.md R116, 60_exceptions.md R219) -/

/-- An entry loads `pc` with the vector as memory holds it after the pushes (R205). -/
theorem raise_pc {s t : State} {kind : Nat} (h : s.raise kind = some t) :
    t.cpu.pc = t.readWord (vectorAddr s.cpu.itr kind) := by
  obtain ⟨-, rfl⟩ := State.raise_eq_some h
  rfl

/-- An entry leaves `pc` on top of the stack, 4 below the old stack pointer (R205). -/
theorem raise_saves_pc {s t : State} {kind : Nat} (h : s.raise kind = some t) :
    t.readWord (s.reg Reg.sp - 4) = s.cpu.pc := by
  obtain ⟨-, rfl⟩ := State.raise_eq_some h
  have hsp : ((s.push s.cpu.st).push s.cpu.pc).reg Reg.sp = s.reg Reg.sp - 4 := by
    rw [State.push_reg, if_pos rfl, State.push_reg, if_pos rfl, BitVec.sub_sub]
    rfl
  have htop := (s.push s.cpu.st).top_push s.cpu.pc
  rwa [State.top, hsp] at htop

/-- `trap` with its exception accepted answers the state `Raise(TRAP)` gives. -/
theorem exec_trap_of_raise {s t : State} (h : s.raise 1 = some t) : exec .trap s = .next t := by
  simp only [exec, execTrap, ExcKind.ordinal, h]

/-- `trap` with its exception refused has no effect (R219). -/
theorem exec_trap_of_refused {s : State} (h : s.raise 1 = none) : exec .trap s = .next s := by
  simp only [exec, execTrap, ExcKind.ordinal, h]

/-- Settles O29: in normal execution with a table `Raise(TRAP)` is accepted, and else it is refused. -/
theorem trapRaisesOrDoesNothing : Obligations.TrapRaisesOrDoesNothing := by
  intro s
  constructor
  · rintro ⟨hx, hitr⟩
    have haccepts : s.cpu.accepts = true := by simpa [Context.accepts, hx] using hitr
    obtain ⟨t, ht⟩ := State.raise_isSome (kind := 1) haccepts (by decide)
    have hvector : vectorAddr s.cpu.itr 1 = s.cpu.itr + 2 := rfl
    exact ⟨t, exec_trap_of_raise ht, ht, hvector ▸ raise_pc ht, raise_saves_pc ht⟩
  · intro h
    exact exec_trap_of_refused ((s.raise_eq_none_iff 1).2 (h.imp_right .inl))

end Sys2Proof.Machine

/-! Proofs about the one-register instructions (41_one_register.md) and `loadi` (44_extended.md R172): what each update of the state
leaves alone, the values of the unary functions, and from them one theorem per obligation. -/

namespace Sys2Proof.Machine

/-! ## Frames, one update at a time -/

section Frames

variable {s t : State} {regs : List Reg} {stored : List Word}

theorem Frame.refl (s : State) (regs : List Reg) (stored : List Word) : Frame s s regs stored :=
  ⟨fun _ _ => rfl, fun _ _ => rfl, rfl, rfl, rfl, rfl, rfl, rfl, rfl, rfl, rfl, rfl⟩

theorem Quiet.refl (s : State) (regs : List Reg) (stored : List Word) : Quiet s s regs stored :=
  ⟨.refl s regs stored, rfl, rfl, rfl, rfl⟩

/-- Loading the interrupt-table register stays in every frame. -/
theorem Frame.setItr (h : Frame s t regs stored) (v : Word) : Frame s (t.setItr v) regs stored := { h with }

/-- An emission stays in every frame. -/
theorem Frame.emit (h : Frame s t regs stored) (b : Byte) : Frame s (t.emit b) regs stored := { h with }

/-- A jump stays in every frame. -/
theorem Quiet.setPc (h : Quiet s t regs stored) (v : Word) : Quiet s (t.setPc v) regs stored := { h with }

/-- Writing a register of the frame stays in it. -/
theorem Quiet.setReg (h : Quiet s t regs stored) {r : Reg} (hr : r ∈ regs) (v : Word) :
    Quiet s (t.setReg r v) regs stored :=
  { h with
    regs := fun q hq => by
      rw [State.reg_setReg_other t (ne_of_mem_of_not_mem hr hq)]
      exact h.regs q hq }

/-- Writing one register is in the frame of that register alone. -/
theorem Quiet.setReg_self (s : State) (r : Reg) (v : Word) : Quiet s (s.setReg r v) [r] [] :=
  (Quiet.refl s _ _).setReg (List.mem_singleton_self r) v

/-- Writing a word whose two bytes are in the frame stays in it. -/
theorem Quiet.writeWord (h : Quiet s t regs stored) {a : Word} (hhi : a ∈ stored) (hlo : a + 1 ∈ stored) (v : Word) :
    Quiet s (t.writeWord a v) regs stored :=
  { h with
    mem := fun x hx => by
      rw [State.readByte_writeWord_other t a v (ne_of_mem_of_not_mem hhi hx).symm (ne_of_mem_of_not_mem hlo hx).symm]
      exact h.mem x hx }

/-- A push writes the stack pointer and the two bytes below it. -/
theorem Quiet.push (s : State) (v : Word) : Quiet s (s.push v) [Reg.sp] [s.pushAddr, s.pushAddr + 1] :=
  ((Quiet.refl s _ _).setReg (by simp) _).writeWord (by simp) (by simp) v

end Frames

/-! ## The unary functions (41_one_register.md R120, R121, R127, R128) -/

theorem toNat_aluNeg (x : Word) : (aluNeg x).toNat = (65536 - x.toNat) % 65536 :=
  BitVec.toNat_ofNat ..

theorem toNat_aluNot (x : Word) : (aluNot x).toNat = if x.toNat = 0 then 1 else 0 := by
  have hzero : x = 0 ↔ x.toNat = 0 := BitVec.toNat_inj.symm
  simp only [aluNot, hzero]
  split <;> rfl

theorem toNat_aluInc (x : Word) : (aluInc x).toNat = (x.toNat + 1) % 65536 := BitVec.toNat_add ..

theorem toNat_aluDec (x : Word) : (aluDec x).toNat = (x.toNat + 65535) % 65536 := by
  rw [aluDec, BitVec.toNat_sub, Nat.add_comm]
  rfl

theorem State.unary_reg_same (s : State) (ra : Reg) (f : Word → Word) : (s.unary ra f).reg ra = f (s.reg ra) :=
  s.reg_setReg_same ra _

theorem Quiet.unary (s : State) (ra : Reg) (f : Word → Word) : Quiet s (s.unary ra f) [ra] [] :=
  .setReg_self s ra _

/-- Settles O8: each is `State.unary` of its function, whose value is computed above. -/
theorem unaryInstructionsWriteTheirRegister : Obligations.UnaryInstructionsWriteTheirRegister := by
  intro s ra
  refine ⟨⟨s.unary ra aluNeg, rfl, ?neg, rfl, .unary s ra _⟩, ⟨s.unary ra aluNot, rfl, ?not, rfl, .unary s ra _⟩,
    ⟨s.unary ra aluInc, rfl, ?inc, rfl, .unary s ra _⟩, ⟨s.unary ra aluDec, rfl, ?dec, rfl, .unary s ra _⟩⟩
  case neg => rw [State.unary_reg_same, toNat_aluNeg]
  case not => rw [State.unary_reg_same, toNat_aluNot]
  case inc => rw [State.unary_reg_same, toNat_aluInc]
  case dec => rw [State.unary_reg_same, toNat_aluDec]

/-! ## Loads of one register (R129 to R131, 44_extended.md R172) -/

/-- Settles O9: both write one register, with the id and with the count. -/
theorem cpuidAndCpunumReadTheConfiguration : Obligations.CpuidAndCpunumReadTheConfiguration := by
  intro s ra
  exact ⟨⟨s.setReg ra s.cpu.id, rfl, s.reg_setReg_same ra _, rfl, .setReg_self s ra _⟩,
    ⟨s.setReg ra s.cpu.cnt, rfl, s.reg_setReg_same ra _, rfl, .setReg_self s ra _⟩⟩

/-- Settles O24: `lit` is one update of `itr`; `loadi` writes its register and then moves `pc` past the trailing word. -/
theorem litAndLoadiLoadTheirValue : Obligations.LitAndLoadiLoadTheirValue := by
  intro s ra imm
  exact ⟨⟨s.setItr (s.reg ra), rfl, rfl, rfl, rfl, rfl, rfl, (Frame.refl s _ _).setItr _⟩,
    ⟨(s.setReg ra imm).setPc (s.cpu.pc + 2), rfl, s.reg_setReg_same ra imm, rfl, (Quiet.setReg_self s ra imm).setPc _⟩⟩

/-! ## The stack (R122, R123) -/

/-- The word pushed stands at the new stack pointer. -/
theorem State.readWord_push (s : State) (v : Word) : (s.push v).readWord s.pushAddr = v :=
  State.readWord_writeWord ..

/-- Settles O18: `push` is one `State.push` of the value read at entry. -/
theorem pushStoresBelowTheStackPointer : Obligations.PushStoresBelowTheStackPointer := by
  intro s ra
  have hsp : (s.push (s.reg ra)).reg Reg.sp = s.reg Reg.sp - 2 := by rw [State.push_reg, if_pos rfl]
  exact ⟨s.push (s.reg ra), rfl, hsp, s.readWord_push _, rfl, rfl, .push s _⟩

/-- Settles O19: the destination is written after the stack pointer, so `pop r15` keeps the word popped (R23). -/
theorem popLoadsTheTop : Obligations.PopLoadsTheTop := by
  intro s ra
  have hsp : ra ≠ Reg.sp → (s.dropTop.setReg ra s.top).reg Reg.sp = s.reg Reg.sp + 2 := by
    intro hra
    rw [State.reg_setReg_other _ hra, State.dropTop_reg, if_pos rfl]
  have hquiet : Quiet s (s.dropTop.setReg ra s.top) [ra, Reg.sp] [] :=
    ((Quiet.refl s _ _).setReg (by simp) _).setReg (by simp) _
  exact ⟨s.dropTop.setReg ra s.top, rfl, State.reg_setReg_same .., hsp, rfl, hquiet⟩

/-! ## The output (R126, 10_state.md R44) -/

/-- Settles O23: `out` is one emission, of the low byte. -/
theorem outAppendsOneByte : Obligations.OutAppendsOneByte := by
  intro s ra
  refine ⟨s.emit (loByte (s.reg ra)), rfl, ?before, ?last, rfl, (Frame.refl s _ _).emit _⟩
  case before => exact List.dropLast_concat
  case last => rw [State.emit_outq, List.getLast?_concat, Option.map_some, toNat_loByte]

end Sys2Proof.Machine

/-! Proofs about branch targets and jumps (42_one_immediate.md R140, R141; 41_one_register.md R124; 44_extended.md R170), and the
fields of a store (43_two_register.md R164). -/

namespace Sys2Proof.Machine

/-! ## Branch targets (R85, R140, R141) -/

/-- The switch BRANCH_BASE stands at the address of the next instruction (G7). -/
theorem branchTarget_eq_add (next : Word) (off : Byte) : branchTarget next off = next + sext16 off := rfl

/-- The sign extension is the signed value modulo 65536 (00_scope.md R8). -/
theorem toNat_sext16 (b : Byte) : ((sext16 b).toNat : Int) = b.toInt % 65536 := by
  rw [sext16, BitVec.signExtend, BitVec.toNat_ofInt]
  exact Int.toNat_of_nonneg (Int.emod_nonneg _ (by decide))

theorem toNat_branchTarget (next : Word) (off : Byte) :
    ((branchTarget next off).toNat : Int) = ((next.toNat : Int) + off.toInt) % 65536 := by
  have hoff := toNat_sext16 off
  rw [branchTarget_eq_add, BitVec.toNat_add]
  omega

/-! ## The fields of a store (R164, conflict C6) -/

theorem storeAddrReg_eq (ra rb : Reg) : storeAddrReg ra rb = ra := rfl

theorem storeDataReg_eq (ra rb : Reg) : storeDataReg ra rb = rb := rfl

/-- Settles O17: the target's value is the sum modulo 65536, and both switches stand at the source's choice. -/
theorem branchBaseAndStoreFieldAreTheSources : Obligations.BranchBaseAndStoreFieldAreTheSources :=
  ⟨toNat_branchTarget, fun ra rb => ⟨storeAddrReg_eq ra rb, storeDataReg_eq ra rb⟩⟩

/-! ## Jumps -/

theorem exec_br_of_set {s : State} (hc : flagC s.cpu.st = true) (off : Byte) :
    exec (.br off) s = .next (s.setPc (branchTarget s.cpu.pc off)) :=
  congrArg Host.Outcome.next (if_pos hc)

theorem exec_br_of_clear {s : State} (hc : flagC s.cpu.st = false) (off : Byte) : exec (.br off) s = .next s :=
  congrArg Host.Outcome.next (if_neg (Bool.eq_false_iff.mp hc))

/-- Settles O16: `br` by the condition flag; the other three are one update of `pc`. -/
theorem jumpsWriteOnlyThePc : Obligations.JumpsWriteOnlyThePc := by
  intro s ra off addr
  exact ⟨fun hc => exec_br_of_set hc off, fun hc => exec_br_of_clear hc off, rfl, rfl, rfl⟩

end Sys2Proof.Machine

/-! Proofs about the two-register instructions (43_two_register.md) and, with LOCK free, the atomic load and store (45_atomic.md R180,
R181): the values of the binary functions, the flag a comparison assigns, division by zero, loads and stores. -/

namespace Sys2Proof.Machine

/-! ## The binary functions (43_two_register.md R149 to R158) -/

theorem toNat_aluAdd (a b : Word) : (aluAdd a b).toNat = (b.toNat + a.toNat) % 65536 := BitVec.toNat_add ..

theorem toNat_aluSub (a b : Word) : ((aluSub a b).toNat : Int) = ((b.toNat : Int) - a.toNat) % 65536 := by
  rw [aluSub, BitVec.toNat_sub]
  omega

theorem toNat_aluMul (a b : Word) : (aluMul a b).toNat = (b.toNat * a.toNat) % 65536 := BitVec.toNat_mul ..

/-- A quotient is at most its dividend, so it fits in a word. -/
theorem toNat_aluDiv (a b : Word) : (aluDiv a b).toNat = b.toNat / a.toNat :=
  (BitVec.toNat_ofNat ..).trans (Nat.mod_eq_of_lt (Nat.lt_of_le_of_lt (Nat.div_le_self ..) b.isLt))

/-- For a count of 16 or more the divisor is above every word (decision D9). -/
theorem toNat_aluShr (a b : Word) : (aluShr a b).toNat = b.toNat / 2 ^ a.toNat := by
  by_cases h : a.toNat < 16
  · rw [aluShr, if_pos h, BitVec.toNat_ushiftRight, Nat.shiftRight_eq_div_pow]
  · have hb : b.toNat < 2 ^ a.toNat := Nat.lt_of_lt_of_le b.isLt (Nat.pow_le_pow_right (by decide) (Nat.le_of_not_lt h))
    rw [aluShr, if_neg h, Nat.div_eq_of_lt hb]
    rfl

/-- For a count of 16 or more the product is a multiple of 65536 (decision D9). -/
theorem toNat_aluShl (a b : Word) : (aluShl a b).toNat = (b.toNat * 2 ^ a.toNat) % 65536 := by
  by_cases h : a.toNat < 16
  · rw [aluShl, if_pos h, BitVec.toNat_shiftLeft, Nat.shiftLeft_eq]
  · have hdvd : 65536 ∣ b.toNat * 2 ^ a.toNat :=
      Dvd.dvd.mul_left (Nat.pow_dvd_pow 2 (Nat.le_of_not_lt h)) _
    rw [aluShl, if_neg h, Nat.mod_eq_zero_of_dvd hdvd]
    rfl

theorem State.binary_reg_same (s : State) (ra rb : Reg) (f : Word → Word → Word) :
    (s.binary ra rb f).reg rb = f (s.reg ra) (s.reg rb) :=
  s.reg_setReg_same rb _

theorem Quiet.binary (s : State) (ra rb : Reg) (f : Word → Word → Word) : Quiet s (s.binary ra rb f) [rb] [] :=
  .setReg_self s rb _

/-- Settles O10: each is `State.binary` of its function, on the values at entry. -/
theorem binaryInstructionsWriteTheSecondRegister : Obligations.BinaryInstructionsWriteTheSecondRegister := by
  intro s ra rb
  refine ⟨⟨s.binary ra rb aluAdd, rfl, ?add, rfl, .binary ..⟩, ⟨s.binary ra rb aluSub, rfl, ?sub, rfl, .binary ..⟩,
    ⟨s.binary ra rb aluMul, rfl, ?mul, rfl, .binary ..⟩, ⟨s.binary ra rb aluAnd, rfl, fun k => ?and, rfl, .binary ..⟩,
    ⟨s.binary ra rb aluOr, rfl, fun k => ?or, rfl, .binary ..⟩, ⟨s.binary ra rb aluXor, rfl, fun k => ?xor, rfl, .binary ..⟩,
    ⟨s.binary ra rb aluMov, rfl, ?mov, rfl, .binary ..⟩⟩
  case add => rw [State.binary_reg_same, toNat_aluAdd]
  case sub => rw [State.binary_reg_same, toNat_aluSub]
  case mul => rw [State.binary_reg_same, toNat_aluMul]
  case and => rw [State.binary_reg_same, aluAnd, BitVec.getLsbD_and]
  case or => rw [State.binary_reg_same, aluOr, BitVec.getLsbD_or]
  case xor => rw [State.binary_reg_same, aluXor, BitVec.getLsbD_xor]
  case mov => rw [State.binary_reg_same, aluMov]

/-- Settles O11: one formula for every count, large ones by `toNat_aluShr` and `toNat_aluShl`. -/
theorem shiftsMultiplyAndDivideByPowersOfTwo : Obligations.ShiftsMultiplyAndDivideByPowersOfTwo := by
  intro s ra rb
  refine ⟨⟨s.binary ra rb aluShr, rfl, ?shr, rfl, .binary ..⟩, ⟨s.binary ra rb aluShl, rfl, ?shl, rfl, .binary ..⟩⟩
  case shr => rw [State.binary_reg_same, toNat_aluShr]
  case shl => rw [State.binary_reg_same, toNat_aluShl]

/-! ## Division (R153, 60_exceptions.md R219) -/

theorem exec_div_of_ne_zero {s : State} {ra : Reg} (h : s.reg ra ≠ 0) (rb : Reg) :
    exec (.div ra rb) s = .next (s.binary ra rb aluDiv) :=
  if_neg h

/-- A division by zero with its exception accepted answers the state `Raise(FAULT)` gives. -/
theorem exec_div_of_raise {s t : State} {ra : Reg} (hz : s.reg ra = 0) (rb : Reg) (h : s.raise 2 = some t) :
    exec (.div ra rb) s = .next t := by
  simp only [exec, execDiv, ExcKind.ordinal, hz, if_true, h]

/-- A division by zero with its exception refused stops the context (R219). -/
theorem exec_div_of_refused {s : State} {ra : Reg} (hz : s.reg ra = 0) (rb : Reg) (h : s.raise 2 = none) :
    exec (.div ra rb) s = .next (s.stop .arith) := by
  simp only [exec, execDiv, ExcKind.ordinal, hz, if_true, h]

/-- An entry writes no register but the stack pointer (R205). -/
theorem raise_reg_other {s t : State} {kind : Nat} (h : s.raise kind = some t) {r : Reg} (hr : r ≠ Reg.sp) :
    t.reg r = s.reg r := by
  obtain ⟨-, rfl⟩ := State.raise_eq_some h
  rw [State.setPc_reg, State.setSt_reg, State.push_reg, if_neg hr.symm, State.push_reg, if_neg hr.symm]

/-- Settles O12: the quotient is written as every binary result is. -/
theorem divideByNonzeroGivesTheQuotient : Obligations.DivideByNonzeroGivesTheQuotient := by
  intro s ra rb h
  refine ⟨s.binary ra rb aluDiv, exec_div_of_ne_zero h rb, ?quotient, rfl, .binary ..⟩
  case quotient => rw [State.binary_reg_same, toNat_aluDiv]

/-- Settles O13: in normal execution with a table `Raise(FAULT)` is accepted, and else it is refused. -/
theorem divideByZeroRaisesFaultOrStops : Obligations.DivideByZeroRaisesFaultOrStops := by
  intro s ra rb hz
  constructor
  · rintro ⟨hx, hitr⟩
    have haccepts : s.cpu.accepts = true := by simpa [Context.accepts, hx] using hitr
    obtain ⟨t, ht⟩ := State.raise_isSome (kind := 2) haccepts (by decide)
    have hvector : vectorAddr s.cpu.itr 2 = s.cpu.itr + 4 := rfl
    exact ⟨t, exec_div_of_raise hz rb ht, ht, hvector ▸ raise_pc ht, raise_saves_pc ht, raise_reg_other ht⟩
  · intro h
    exact exec_div_of_refused hz rb ((s.raise_eq_none_iff 2).2 (h.imp_right .inl))

/-! ## Comparisons (R159 to R161, 10_state.md R29) -/

theorem State.flagC_compare (s : State) (ra rb : Reg) (f : Word → Word → Bool) :
    flagC (s.compare ra rb f).cpu.st = f (s.reg ra) (s.reg rb) :=
  flagC_assignC _ _

/-- A comparison leaves every bit of `st` but C (decision D22). -/
theorem State.getLsbD_compare_st (s : State) (ra rb : Reg) (f : Word → Word → Bool) {k : Nat} (hk : k ≠ 0) :
    (s.compare ra rb f).cpu.st.getLsbD k = s.cpu.st.getLsbD k :=
  getLsbD_assignC _ _ hk

/-- Writing the state register stays in every frame. -/
theorem Frame.setSt {s t : State} {regs : List Reg} {stored : List Word} (h : Frame s t regs stored) (v : Word) :
    Frame s (t.setSt v) regs stored :=
  { h with }

theorem Frame.compare (s : State) (ra rb : Reg) (f : Word → Word → Bool) : Frame s (s.compare ra rb f) [] [] :=
  (Frame.refl s _ _).setSt _

theorem condTest_iff (a b : Word) : condTest a b = true ↔ a &&& b ≠ 0 := bne_iff_ne

theorem condCmp_iff (a b : Word) : condCmp a b = true ↔ a.toNat < b.toNat := decide_eq_true_iff

theorem condEqu_iff (a b : Word) : condEqu a b = true ↔ a = b := beq_iff_eq

/-- Settles O14: each is `State.compare` of its condition. -/
theorem comparisonsAssignTheConditionFlag : Obligations.ComparisonsAssignTheConditionFlag := by
  intro s ra rb
  refine ⟨⟨s.compare ra rb condTest, rfl, ?test, fun _ => s.getLsbD_compare_st ra rb _, rfl, rfl, rfl, rfl, .compare ..⟩,
    ⟨s.compare ra rb condCmp, rfl, ?cmp, fun _ => s.getLsbD_compare_st ra rb _, rfl, rfl, rfl, rfl, .compare ..⟩,
    ⟨s.compare ra rb condEqu, rfl, ?equ, fun _ => s.getLsbD_compare_st ra rb _, rfl, rfl, rfl, rfl, .compare ..⟩⟩
  case test => rw [State.flagC_compare, condTest_iff]
  case cmp => rw [State.flagC_compare, condCmp_iff]
  case equ => rw [State.flagC_compare, condEqu_iff]

/-! ## Loads (R163, R165, 45_atomic.md R180) -/

theorem toNat_zext16 (b : Byte) : (zext16 b).toNat = b.toNat := BitVec.toNat_setWidth_of_le (by decide)

/-- With LOCK free `loada` does what `load` does. -/
theorem exec_loada_of_lock_free {s : State} (hl : s.lock = none) (ra rb : Reg) :
    exec (.loada ra rb) s = exec (.load ra rb) s :=
  congrArg Host.Outcome.next (State.withLock_free hl _ _)

/-- Settles O25: each load writes one register, with what memory holds at reg1's address. -/
theorem loadsReadTheAddressInReg1 : Obligations.LoadsReadTheAddressInReg1 := by
  intro s ra rb
  have hload : ∃ t, exec (.load ra rb) s = .next t ∧ t.reg rb = s.readWord (s.reg ra) ∧ t.cpu.pc = s.cpu.pc ∧
      Quiet s t [rb] [] :=
    ⟨s.setReg rb (s.readWord (s.reg ra)), rfl, s.reg_setReg_same rb _, rfl, .setReg_self ..⟩
  refine ⟨hload, ⟨s.setReg rb (zext16 (s.readByte (s.reg ra))), rfl, ?byte, rfl, .setReg_self ..⟩, fun hl => ?loada⟩
  case byte => rw [State.reg_setReg_same, toNat_zext16]
  case loada => rwa [exec_loada_of_lock_free hl]

/-! ## Stores (R164, R166, 45_atomic.md R181) -/

/-- Writing a byte of the frame stays in it. -/
theorem Quiet.writeByte {s t : State} {regs : List Reg} {stored : List Word} (h : Quiet s t regs stored) {a : Word}
    (ha : a ∈ stored) (b : Byte) : Quiet s (t.writeByte a b) regs stored :=
  { h with
    mem := fun x hx => by
      rw [State.readByte_writeByte, if_neg (ne_of_mem_of_not_mem ha hx).symm]
      exact h.mem x hx }

/-- With LOCK free `stora` does what `stor` does. -/
theorem exec_stora_of_lock_free {s : State} (hl : s.lock = none) (ra rb : Reg) :
    exec (.stora ra rb) s = exec (.stor ra rb) s :=
  congrArg Host.Outcome.next (State.withLock_free hl _ _)

/-- Settles O26: a store is one write of a word or of a byte, and its frame is what it writes. -/
theorem storesWriteOnlyTheirBytes : Obligations.StoresWriteOnlyTheirBytes := by
  rintro s ra rb a rfl
  have hstor : ∃ t, exec (.stor ra rb) s = .next t ∧
      t.readWord (s.reg (storeAddrReg ra rb)) = s.reg (storeDataReg ra rb) ∧ t.cpu.pc = s.cpu.pc ∧
      Quiet s t [] [s.reg (storeAddrReg ra rb), s.reg (storeAddrReg ra rb) + 1] :=
    ⟨s.writeWord (s.reg (storeAddrReg ra rb)) (s.reg (storeDataReg ra rb)), rfl, State.readWord_writeWord .., rfl,
      (Quiet.refl s _ _).writeWord (by simp) (by simp) _⟩
  refine ⟨hstor, ⟨s.writeByte (s.reg (storeAddrReg ra rb)) (loByte (s.reg (storeDataReg ra rb))), rfl, ?byte, rfl,
    (Quiet.refl s _ _).writeByte (by simp) _⟩, fun hl => ?stora⟩
  case byte => rw [State.readByte_writeByte, if_pos rfl, toNat_loByte]
  case stora => rwa [exec_stora_of_lock_free hl]

end Sys2Proof.Machine

/-! Proofs about the calls (44_extended.md R171, 41_one_register.md R125) and the return from one (40_no_operand.md R110). -/

namespace Sys2Proof.Machine

/-! ## What both calls do -/

/-- Push the address to resume at, then jump: the effect that `call` and `callr` share. -/
def State.callTo (s : State) (back target : Word) : State := (s.push back).setPc target

/-- `call` resumes after its trailing word (R171). -/
theorem exec_call (s : State) (addr : Word) : exec (.call addr) s = .next (s.callTo (s.cpu.pc + 2) addr) := rfl

/-- `callr` resumes at next, and its target is the register's value before the push (R125, R23). -/
theorem exec_callr (s : State) (ra : Reg) : exec (.callr ra) s = .next (s.callTo s.cpu.pc (s.reg ra)) := rfl

@[simp] theorem State.callTo_pc (s : State) (back target : Word) : (s.callTo back target).cpu.pc = target := rfl

@[simp] theorem State.callTo_reg (s : State) (back target : Word) (q : Reg) :
    (s.callTo back target).reg q = if Reg.sp = q then s.reg Reg.sp - 2 else s.reg q :=
  s.push_reg back q

/-- The return address stands at the new stack pointer. -/
theorem State.readWord_callTo (s : State) (back target : Word) : (s.callTo back target).readWord s.pushAddr = back :=
  s.readWord_push back

/-- The return address is on top of the stack. -/
@[simp] theorem State.top_callTo (s : State) (back target : Word) : (s.callTo back target).top = back :=
  s.top_push back

theorem Quiet.callTo (s : State) (back target : Word) :
    Quiet s (s.callTo back target) [Reg.sp] [s.pushAddr, s.pushAddr + 1] :=
  (Quiet.push s back).setPc target

/-- Settles O20: both are `State.callTo`, with their own return address and target. -/
theorem callsPushTheReturnAddress : Obligations.CallsPushTheReturnAddress := by
  intro s ra addr
  have hsp : ∀ back target, (s.callTo back target).reg Reg.sp = s.reg Reg.sp - 2 := by
    intro back target
    rw [State.callTo_reg, if_pos rfl]
  exact ⟨⟨_, exec_call s addr, s.callTo_pc .., s.readWord_callTo .., hsp .., .callTo ..⟩,
    ⟨_, exec_callr s ra, s.callTo_pc .., s.readWord_callTo .., hsp .., .callTo ..⟩⟩

/-! ## A call and its return -/

/-- `ret` drops the word on top of the stack and jumps to it (R110). -/
theorem exec_ret (s : State) : exec .ret s = .next (s.dropTop.setPc s.top) := rfl

/-- Dropping the word that a call pushed puts every register back. -/
theorem State.dropTop_callTo_reg (s : State) (back target : Word) (q : Reg) :
    (s.callTo back target).dropTop.reg q = s.reg q := by
  by_cases hq : Reg.sp = q
  · subst hq
    rw [State.dropTop_reg, if_pos rfl, State.callTo_reg, if_pos rfl, BitVec.sub_add_cancel]
  · rw [State.dropTop_reg, if_neg hq, State.callTo_reg, if_neg hq]

/-- After a call the drop leaves the bytes of the return address as the only change besides `pc`. -/
theorem Quiet.dropTop_callTo (s : State) (back target : Word) :
    Quiet s (s.callTo back target).dropTop [] [s.pushAddr, s.pushAddr + 1] :=
  { Quiet.callTo s back target with regs := fun r _ => s.dropTop_callTo_reg back target r }

/-- A return right after a call resumes at the address that the call pushed. -/
theorem exec_ret_callTo (s : State) (back target : Word) :
    exec .ret (s.callTo back target) = .next ((s.callTo back target).dropTop.setPc back) := by
  rw [exec_ret, State.top_callTo]

/-- Settles O52: for either call `ret` finds the return address on top, and its drop undoes the call's change of registers. -/
theorem callThenRetResumesAfterTheCall : Obligations.CallThenRetResumesAfterTheCall := by
  intro s ra addr i hi
  rcases hi with rfl | rfl
  case inl =>
    exact ⟨_, _, exec_call s addr, exec_ret_callTo .., by rw [State.setPc_pc, if_pos rfl], (Quiet.dropTop_callTo ..).setPc _⟩
  case inr =>
    have hother : Instr.callr ra ≠ .call addr := by simp
    exact ⟨_, _, exec_callr s ra, exec_ret_callTo .., by simp [hother], (Quiet.dropTop_callTo ..).setPc _⟩

end Sys2Proof.Machine

/-! Proofs about the test-and-set (45_atomic.md R182). -/

namespace Sys2Proof.Machine

/-- With LOCK free `tnset` always completes: one word write of 0x0001, then the word read at entry into x[B] (decision D15). -/
theorem exec_tnset_eq_of_lock_free {s : State} (hl : s.lock = none) (ra rb : Reg) :
    exec (.tnset ra rb) s = .next ((s.writeWord (s.reg ra) 0x0001).setReg rb (s.readWord (s.reg ra))) :=
  congrArg Host.Outcome.next (exec_tnset_of_lock_free hl rfl)

/-- Settles O27: the register gets the old word, its write leaves the new one in memory, and the frame is what both write. -/
theorem tnsetReadsThenSetsTheWord : Obligations.TnsetReadsThenSetsTheWord := by
  intro s ra rb hl
  refine ⟨_, exec_tnset_eq_of_lock_free hl ra rb, ?old, ?new, rfl, ?frame⟩
  case old => rw [State.reg_setReg_same]
  case new => rw [State.setReg_readWord, State.readWord_writeWord]
  case frame => exact ((Quiet.refl s _ _).writeWord (by simp) (by simp) _).setReg (by simp) _

end Sys2Proof.Machine

/-! Proofs about exceptions (60_exceptions.md): taking one and returning from one, the loop around the cycle with its budget and
its tick, and what holds of every step. -/

namespace Sys2Proof.Machine

/-! ## Words on the stack (10_state.md R24) -/

/-- A push leaves the word that was on top of the stack, now below its own. -/
theorem State.readWord_push_sp (s : State) (v : Word) :
    (s.push v).readWord (s.reg Reg.sp) = s.readWord (s.reg Reg.sp) := by
  refine State.readWord_writeWord_other (s.setReg Reg.sp s.pushAddr) s.pushAddr (s.reg Reg.sp) v ⟨?_, ?_, ?_⟩ <;>
    rw [State.pushAddr] <;> bv_omega

/-- Dropping the word just pushed puts every register back. -/
@[simp] theorem State.dropTop_push_reg (s : State) (v : Word) (q : Reg) : (s.push v).dropTop.reg q = s.reg q :=
  s.dropTop_callTo_reg v s.cpu.pc q

/-- Dropping the word just pushed shows the word below it. -/
@[simp] theorem State.top_dropTop_push (s : State) (v : Word) : (s.push v).dropTop.top = s.top := by
  rw [State.top, State.dropTop_push_reg]
  exact s.readWord_push_sp v

@[simp] theorem State.push_push_reg (s : State) (v w : Word) (q : Reg) :
    ((s.push v).push w).reg q = if Reg.sp = q then s.reg Reg.sp - 4 else s.reg q := by
  by_cases hq : Reg.sp = q
  · rw [State.push_reg, if_pos hq, State.push_reg, if_pos rfl, if_pos hq, BitVec.sub_sub]
    rfl
  · rw [State.push_reg, if_neg hq, State.push_reg, if_neg hq, if_neg hq]

/-- After two pushes the first word is the second on the stack. -/
theorem State.readWord_push_push (s : State) (v w : Word) : ((s.push v).push w).readWord (s.reg Reg.sp - 2) = v := by
  have hsp : (s.push v).reg Reg.sp = s.reg Reg.sp - 2 := by rw [State.push_reg, if_pos rfl]
  have hword := (s.push v).readWord_push_sp w
  rw [hsp] at hword
  exact hword.trans (s.readWord_push v)

/-- A push whose stack pointer and two bytes are in the frame stays in it. -/
theorem Quiet.pushed {s t : State} {regs : List Reg} {stored : List Word} (h : Quiet s t regs stored) (hsp : Reg.sp ∈ regs)
    (hhi : t.pushAddr ∈ stored) (hlo : t.pushAddr + 1 ∈ stored) (v : Word) : Quiet s (t.push v) regs stored :=
  (h.setReg hsp _).writeWord hhi hlo v

/-- Two pushes write the stack pointer and the four bytes below it. -/
theorem Quiet.push_push (s : State) (v w : Word) :
    Quiet s ((s.push v).push w) [Reg.sp]
      [s.reg Reg.sp - 2, s.reg Reg.sp - 1, s.reg Reg.sp - 4, s.reg Reg.sp - 3] := by
  have hlow : s.pushAddr + 1 = s.reg Reg.sp - 1 := by rw [State.pushAddr]; bv_omega
  have hhigh' : (s.push v).pushAddr = s.reg Reg.sp - 4 := by rw [State.pushAddr, State.push_reg, if_pos rfl]; bv_omega
  have hlow' : (s.push v).pushAddr + 1 = s.reg Reg.sp - 3 := by rw [hhigh']; bv_omega
  refine ((Quiet.refl s _ _).pushed (by simp) ?hi ?lo v).pushed (by simp) ?hi' ?lo' w
  case hi => simp [State.pushAddr]
  case lo => simp only [hlow, List.mem_cons, true_or, or_true]
  case hi' => simp only [hhigh', List.mem_cons, true_or, or_true]
  case lo' => simp only [hlow', List.mem_cons, true_or, or_true]

/-! ## Return from an exception (R210, R213, 40_no_operand.md R115) -/

theorem exec_iret (s : State) : exec .iret s = .next s.returnFromException := rfl

/-- A return moves the stack pointer past two words and writes no other register. -/
theorem State.returnFromException_reg (s : State) (q : Reg) :
    s.returnFromException.reg q = if Reg.sp = q then s.reg Reg.sp + 4 else s.reg q := by
  have hdrops : s.returnFromException.reg q = s.dropTop.dropTop.reg q := rfl
  by_cases hq : Reg.sp = q
  · subst hq
    rw [hdrops, State.dropTop_reg, if_pos rfl, State.dropTop_reg, if_pos rfl, if_pos rfl, BitVec.add_assoc]
    rfl
  · rw [hdrops, State.dropTop_reg, if_neg hq, State.dropTop_reg, if_neg hq, if_neg hq]

/-- A return is two drops, a jump and a write of `st`. -/
theorem Frame.returnFromException (s : State) : Frame s s.returnFromException [Reg.sp] [] :=
  have drops : Quiet s s.dropTop.dropTop [Reg.sp] [] :=
    ((Quiet.refl s _ _).setReg (by simp) _).setReg (by simp) _
  (drops.setPc s.top).toFrame.setSt s.dropTop.top

/-- What `pc` and `st` held before a return does not matter (R213: unconditionally). -/
theorem State.returnFromException_setSt_setPc (s : State) (v w : Word) :
    ((s.setSt v).setPc w).returnFromException = s.returnFromException := rfl

/-- A return after two pushes loads the two words and puts every register back. -/
theorem State.returnFromException_push_push (s : State) (v w : Word) :
    ((s.push v).push w).returnFromException.cpu.pc = w ∧ ((s.push v).push w).returnFromException.cpu.st = v ∧
      ∀ q, ((s.push v).push w).returnFromException.reg q = s.reg q := by
  refine ⟨(s.push v).top_push w, ?st, fun q => ?reg⟩
  case st => exact ((s.push v).top_dropTop_push w).trans (s.top_push v)
  case reg =>
    rw [State.returnFromException_reg, State.push_push_reg, if_pos rfl, BitVec.sub_add_cancel, State.push_push_reg]
    by_cases hq : Reg.sp = q
    · rw [if_pos hq, hq]
    · rw [if_neg hq, if_neg hq]

/-- Settles O22: a return loads the two words on top, and after two pushes these are the words pushed. -/
theorem iretLoadsPcAndStUnconditionally : Obligations.IretLoadsPcAndStUnconditionally := by
  refine ⟨fun s => ?_, fun s v target => ?_⟩
  · have hsp : s.returnFromException.reg Reg.sp = s.reg Reg.sp + 4 := by
      rw [State.returnFromException_reg, if_pos rfl]
    exact ⟨_, exec_iret s, rfl, s.returnFromException_st, hsp, rfl, rfl, rfl, .returnFromException s⟩
  · obtain ⟨hpc, hst, hreg⟩ := s.returnFromException_push_push v target
    exact ⟨_, exec_iret _, hst, hpc, hreg Reg.sp⟩

/-! ## Taking an exception (R204, R205) -/

/-- A jump stays in every frame. -/
theorem Frame.setPc {s t : State} {regs : List Reg} {stored : List Word} (h : Frame s t regs stored) (v : Word) :
    Frame s (t.setPc v) regs stored :=
  { h with }

/-- An entry leaves its context as running as it was. -/
theorem raise_run {s t : State} {kind : Nat} (h : s.raise kind = some t) : t.cpu.run = s.cpu.run := by
  obtain ⟨-, rfl⟩ := State.raise_eq_some h
  rfl

/-- An entry costs no cycle (R206). -/
theorem raise_cyc {s t : State} {kind : Nat} (h : s.raise kind = some t) : t.cpu.cyc = s.cpu.cyc := by
  obtain ⟨-, rfl⟩ := State.raise_eq_some h
  rfl

/-- Settles O30: an accepted exception is two pushes, then X and `pc`. -/
theorem raiseIsRefusedOrEntersTheHandler : Obligations.RaiseIsRefusedOrEntersTheHandler := by
  refine fun s kind => ⟨s.raise_eq_none_iff kind, fun t h => ?_⟩
  obtain ⟨-, hst, hitr⟩ := raise_control h
  have hbits : ∀ k, t.cpu.st.getLsbD k = (s.cpu.st.getLsbD k || k == 2) := by
    rw [hst]
    exact getLsbD_of_bit_set (flagX_setX _) fun _ => getLsbD_setX _
  have hpc := raise_pc h
  have hsaved := raise_saves_pc h
  obtain ⟨-, rfl⟩ := State.raise_eq_some h
  have hsp : ((s.push s.cpu.st).push s.cpu.pc).reg Reg.sp = s.reg Reg.sp - 4 := by
    rw [State.push_push_reg, if_pos rfl]
  exact ⟨s.readWord_push_push _ _, hsaved, hsp, hbits, hpc, hitr, rfl, rfl,
    ((Quiet.push_push s s.cpu.st s.cpu.pc).toFrame.setSt _).setPc _⟩

/-- Settles O31: `iret` loads the words that the entry's two pushes left, and X was 0 when the entry saved `st`. -/
theorem iretUndoesAnEntry : Obligations.IretUndoesAnEntry := by
  intro s t kind h
  obtain ⟨⟨hx, -⟩, rfl⟩ := State.raise_eq_some h
  obtain ⟨hpc, hst, hreg⟩ := s.returnFromException_push_push s.cpu.st s.cpu.pc
  refine ⟨_, exec_iret _, ?_⟩
  rw [State.returnFromException_setSt_setPc]
  exact ⟨hpc, hst, by rw [hst, hx], hreg, fun _ => rfl⟩

/-! ## Every instruction answers (R230) -/

/-- Settles O36: each meaning is a next state; `trap` and `div` are so whether their exception is accepted or refused. -/
theorem everyInstructionIsAlwaysAvailable : Obligations.EveryInstructionIsAlwaysAvailable := by
  intro i s
  cases i
  case trap =>
    cases hr : s.raise 1 with
    | none => exact ⟨_, exec_trap_of_refused hr⟩
    | some t => exact ⟨_, exec_trap_of_raise hr⟩
  case div ra rb =>
    by_cases hz : s.reg ra = 0
    · cases hr : s.raise 2 with
      | none => exact ⟨_, exec_div_of_refused hz rb hr⟩
      | some t => exact ⟨_, exec_div_of_raise hz rb hr⟩
    · exact ⟨_, exec_div_of_ne_zero hz rb⟩
  all_goals exact ⟨_, rfl⟩

/-! ## What stands between two cycles (R221) -/

theorem State.boundary_of_spent {s : State} (hn : s.budget ≠ 0) (h : s.budget ≤ s.cpu.cyc) : s.boundary = .exhausted := by
  simp [State.boundary, State.budgetSpent, hn, h]

theorem State.lt_budget_of_boundary {s : State} (h : s.boundary ≠ .exhausted) (hn : s.budget ≠ 0) : s.cpu.cyc < s.budget :=
  Nat.lt_of_not_le fun hle => h (State.boundary_of_spent hn hle)

section BudgetLeft

variable {s : State} (hb : s.budget = 0 ∨ s.cpu.cyc < s.budget)
include hb

theorem State.budgetSpent_of_left : s.budgetSpent = false := by
  simp only [State.budgetSpent, decide_eq_false_iff_not]
  omega

theorem State.boundary_ne_exhausted : s.boundary ≠ .exhausted := by
  rw [State.boundary, State.budgetSpent_of_left hb, if_neg (by decide)]
  split <;> decide

/-- X = 1 drops a tick, due or not (R217, decision D17). -/
theorem State.boundary_of_flagX (hx : flagX s.cpu.st = true) : s.boundary = .go := by
  simp [State.boundary, State.budgetSpent_of_left hb, hx]

/-- A tick is due, and X = 0 (R215, decision D16). -/
theorem State.boundary_of_tick (hp : s.period ≠ 0) (hc : s.cpu.cyc ≠ 0) (hm : s.cpu.cyc % s.period = 0)
    (hx : flagX s.cpu.st = false) : s.boundary = .tick := by
  simp [State.boundary, State.budgetSpent_of_left hb, State.tickDue, hp, hc, hm, hx]

end BudgetLeft

/-! ## One round of the loop (R221) -/

/-- With no turn scheduled and no cycle in progress the step is a round of the active context. -/
theorem step_eq_loopRound {s : State} (hs : s.sched = []) (hf : s.cpu.flight = none) : step s = s.loopRound := by
  simp [step, State.takeTurn, hs, State.cycleTurn, hf]

section Running

variable {s : State} (hrun : s.cpu.run = .running)
include hrun

theorem loopRound_of_exhausted (h : s.boundary = .exhausted) : s.loopRound = .next (s.stop .exhausted) := by
  simp [State.loopRound, hrun, h]

theorem loopRound_of_go (h : s.boundary = .go) : s.loopRound = s.runCycle := by
  simp [State.loopRound, hrun, h]

theorem loopRound_of_tick_accepted (h : s.boundary = .tick) {t : State} (hr : s.raise 0 = some t) :
    s.loopRound = t.runCycle := by
  simp [State.loopRound, hrun, h, ExcKind.ordinal, hr]

theorem loopRound_of_tick_refused (h : s.boundary = .tick) (hr : s.raise 0 = none) :
    s.loopRound = .next (s.stop .timerFail) := by
  simp [State.loopRound, hrun, h, ExcKind.ordinal, hr]

end Running

/-- Settles O32: with X = 1 `Raise` is refused, so `trap` and `div` take their refused way, and a tick is no boundary. -/
theorem nestingGuardRefusesEveryException : Obligations.NestingGuardRefusesEveryException := by
  intro s hx
  have hr : ∀ kind, s.raise kind = none := fun kind => (s.raise_eq_none_iff kind).2 (.inl hx)
  exact ⟨hr, exec_trap_of_refused (hr 1), fun ra rb hz => exec_div_of_refused hz rb (hr 2),
    fun hrun hb => loopRound_of_go hrun (State.boundary_of_flagX hb hx)⟩

/-- Settles O41: without a table the INTERRUPT exception is refused. -/
theorem tickWithoutATableIsFatal : Obligations.TickWithoutATableIsFatal := by
  intro s hs hrun hf hb hp hc hm hx hitr
  rw [step_eq_loopRound hs hf]
  exact loopRound_of_tick_refused hrun (State.boundary_of_tick hb hp hc hm hx) ((s.raise_eq_none_iff 0).2 (.inr (.inl hitr)))

/-- Settles O42: with a table the INTERRUPT exception is accepted, and the round's cycle starts from its entry. -/
theorem tickEntersTheInterruptHandler : Obligations.TickEntersTheInterruptHandler := by
  intro s hs hrun hf hb hp hc hm hx hitr
  have haccepts : s.cpu.accepts = true := by simpa [Context.accepts, hx] using hitr
  obtain ⟨t, ht⟩ := State.raise_isSome (kind := 0) haccepts (by decide)
  have hvector : vectorAddr s.cpu.itr 0 = s.cpu.itr := BitVec.add_zero _
  refine ⟨t, ht, hvector ▸ raise_pc ht, raise_saves_pc ht, raise_cyc ht, ?_⟩
  rw [step_eq_loopRound hs hf]
  exact loopRound_of_tick_accepted hrun (State.boundary_of_tick hb hp hc hm hx) ht

/-- Settles O43: at a cycle neither the budget nor a tick stands before it. -/
theorem droppedOrAbsentTickLeavesTheCycle : Obligations.DroppedOrAbsentTickLeavesTheCycle :=
  fun _ hs => hs.step_eq

/-! ## The budget (R223) -/

/-- A cycle stops its context with HALT or ARITH at most. -/
theorem runCycle_run {s t : State} (h : s.runCycle = .next t) :
    t.cpu.run = s.cpu.run ∨ t.cpu.run = .stopped .arith ∨ t.cpu.run = .stopped .halt := by
  by_cases hbad : s.fetch.isBad = true
  · rw [State.runCycle_of_isBad hbad] at h
    cases h
    exact .inr (.inr rfl)
  · exact (State.run_of_runCycle (by simpa using hbad) h).imp_right .inl

/-- Settles O39: a spent budget is the first thing a round looks at, and nothing else in a round stops with EXHAUSTED. -/
theorem budgetStopsTheContext : Obligations.BudgetStopsTheContext := by
  intro s hs hrun hf
  rw [step_eq_loopRound hs hf]
  refine ⟨fun hn hle => loopRound_of_exhausted hrun (State.boundary_of_spent hn hle), fun hb t h => ?_⟩
  have cycle : ∀ u : State, u.cpu.run = .running → u.runCycle = .next t → t.cpu.run ≠ .stopped .exhausted := by
    intro u hu hcycle
    rcases runCycle_run hcycle with he | he | he <;> simp [he, hu]
  rcases loopRound_cases h with ⟨hstop, -⟩ | ⟨-, ⟨hspent, -⟩ | ⟨-, rfl⟩ | ⟨-, u, hr, hcycle⟩ | ⟨-, hcycle⟩⟩
  · exact absurd hrun hstop
  · exact absurd hspent (State.boundary_ne_exhausted hb)
  · simp [State.stop]
  · exact cycle u ((raise_run hr).trans hrun) hcycle
  · exact cycle s hrun hcycle

/-- The active context's cycle count is as before, or one more with its cycle over (R224). -/
def CountsAtMostOne (s t : State) : Prop :=
  t.cpu.cyc = s.cpu.cyc ∨ (t.cpu.cyc = s.cpu.cyc + 1 ∧ t.cpu.flight = none)

/-- What happened before the count may be anything that leaves `cyc` alone. -/
theorem CountsAtMostOne.after {s u t : State} (h : CountsAtMostOne u t) (hcyc : u.cpu.cyc = s.cpu.cyc) :
    CountsAtMostOne s t := by
  unfold CountsAtMostOne at h ⊢
  rwa [← hcyc]

theorem finishStage_count {s t : State} {f : Flight} (h : s.finishStage f = .next t) : CountsAtMostOne s t := by
  cases finishStage_end h with
  | finished he => exact he.cyc.symm.imp And.left fun ⟨hcyc, _⟩ => ⟨hcyc, he.flight⟩
  | goesOn _ _ _ _ cyc => exact .inl cyc

theorem accessFlight_count {s t : State} {f : Flight} {pick : Nat} (h : s.accessFlight f pick = .next t) :
    CountsAtMostOne s t := by
  rcases accessFlight_cases h with ⟨-, hs⟩ | ⟨_, -, -, rfl⟩ | ⟨x, rest, u, g, -, hp, hend⟩
  · exact finishStage_count hs
  · exact .inl rfl
  · obtain ⟨hcpu, -⟩ := perform_lock hp
    have hcyc : u.cpu.cyc = s.cpu.cyc := by rw [hcpu]
    rcases hend with ⟨-, hs⟩ | ⟨-, rfl⟩
    · exact (finishStage_count hs).after hcyc
    · exact .inl hcyc

theorem endCycle_count (s : State) (i : Instr) : CountsAtMostOne s (s.endCycle i) := by
  rcases endCycle_cases s i with ⟨-, he⟩ | ⟨he, -⟩ | ⟨he, -, -, hf⟩ <;> rw [he]
  · exact .inl rfl
  · exact .inl rfl
  · exact .inr ⟨rfl, hf⟩

theorem runCycle_count {s t : State} (h : s.runCycle = .next t) : CountsAtMostOne s t := by
  obtain ⟨u, hu, rfl⟩ := runCycle_cases h
  exact (endCycle_count u s.fetch).after (exec_effect hu).kept.cyc

/-- The active context's part of `WithinBudget`. -/
def State.OwnBudget (s : State) : Prop :=
  s.budget ≠ 0 → s.cpu.cyc ≤ s.budget ∧ (s.cpu.flight.isSome = true → s.cpu.cyc < s.budget)

/-- Counting a cycle that the budget still allows. -/
theorem CountsAtMostOne.ownBudget {s t : State} (h : CountsAtMostOne s t) (hb : t.budget = s.budget)
    (hlt : s.budget ≠ 0 → s.cpu.cyc < s.budget) : t.OwnBudget := by
  intro hn
  rw [hb] at hn ⊢
  have hlt := hlt hn
  rcases h with he | ⟨he, hf⟩
  · exact ⟨by omega, fun _ => by omega⟩
  · exact ⟨by omega, by simp [hf]⟩

theorem loopRound_ownBudget {s t : State} (hown : s.OwnBudget) (h : s.loopRound = .next t) : t.OwnBudget := by
  have hb : t.budget = s.budget := (loopRound_turnEffect h).kept.budget
  rcases loopRound_cases h with ⟨-, rfl⟩ | ⟨-, ⟨-, rfl⟩ | ⟨-, rfl⟩ | ⟨htick, u, hr, hu⟩ | ⟨hgo, hc⟩⟩
  · exact hown
  · exact hown
  · exact hown
  · exact ((runCycle_count hu).after (raise_cyc hr)).ownBudget hb (State.lt_budget_of_boundary (by simp [htick]))
  · exact (runCycle_count hc).ownBudget hb (State.lt_budget_of_boundary (by simp [hgo]))

theorem accessTurn_ownBudget {s t : State} {pick : Nat} (hown : s.OwnBudget) (h : s.accessTurn pick = .next t) :
    t.OwnBudget := by
  have hb : t.budget = s.budget := (accessTurn_turnEffect h).kept.budget
  rcases accessTurn_cases h with ⟨-, rfl⟩ | ⟨-, f, hf, ha⟩ |
      ⟨-, -, ⟨-, rfl⟩ | ⟨-, rfl⟩ | ⟨htick, ha⟩ | ⟨hgo, ha⟩⟩
  · exact hown
  · exact (accessFlight_count ha).ownBudget hb fun hn => (hown hn).2 (by simp [hf])
  · exact hown
  · exact hown
  · exact (accessFlight_count ha).ownBudget hb (State.lt_budget_of_boundary (by simp [htick]))
  · exact (accessFlight_count ha).ownBudget hb (State.lt_budget_of_boundary (by simp [hgo]))

/-- Whether every context is within the budget does not depend on which one is active. -/
theorem State.WithinBudget.perm {s u : State} (h : s.WithinBudget) (hp : u.contexts.Perm s.contexts)
    (hb : u.budget = s.budget) : u.WithinBudget := by
  intro hn c hc
  rw [hb] at hn ⊢
  exact h hn c (hp.mem_iff.1 hc)

/-- A turn that keeps the others needs its own context's part only. -/
theorem State.WithinBudget.turn {s t : State} (h : s.WithinBudget) (kept : TurnKept s t) (hown : t.OwnBudget) :
    t.WithinBudget := by
  intro hn c hc
  rcases List.mem_cons.1 hc with rfl | hc
  · exact hown hn
  · rw [kept.budget] at hn ⊢
    exact h hn c (List.mem_cons_of_mem _ (kept.others ▸ hc))

/-- Settles O40: a cycle begins only with budget left, and counts one. -/
theorem stepKeepsWithinBudget : Obligations.StepKeepsWithinBudget := by
  intro s t hs h
  obtain ⟨u, hp, -, -, -, hb, -, -, hturn⟩ := step_cases h
  have hu : u.WithinBudget := hs.perm hp hb
  have hown : u.OwnBudget := fun hn => hu hn u.cpu List.mem_cons_self
  rcases hturn with rfl | ⟨-, hr⟩ | ⟨pick, ha⟩
  · exact hu
  · exact hu.turn (loopRound_turnEffect hr).kept (loopRound_ownBudget hown hr)
  · exact hu.turn (accessTurn_turnEffect ha).kept (accessTurn_ownBudget hown ha)

/-! ## A stopped context (R222) -/

theorem loopRound_of_stopped {s t : State} (hstop : s.cpu.run ≠ .running) (h : s.loopRound = .next t) : t = s := by
  rcases loopRound_cases h with ⟨-, ht⟩ | ⟨hrun, -⟩
  · exact ht
  · exact absurd hrun hstop

theorem accessTurn_of_stopped {s t : State} {pick : Nat} (hstop : s.cpu.run ≠ .running) (h : s.accessTurn pick = .next t) :
    t = s := by
  rcases accessTurn_cases h with ⟨-, ht⟩ | ⟨hrun, -⟩ | ⟨hrun, -⟩
  · exact ht
  · exact absurd hrun hstop
  · exact absurd hrun hstop

/-- A stopped context stays through a turn that changes nothing when it is the active one's. -/
theorem mem_contexts_of_turn {u t : State} {c : Context} {r : StopReason} (kept : TurnKept u t)
    (idle : u.cpu.run ≠ .running → t = u) (hc : c ∈ u.contexts) (hstop : c.run = .stopped r) : c ∈ t.contexts := by
  rcases List.mem_cons.1 hc with rfl | hothers
  · rw [idle (by simp [hstop])]
    exact hc
  · exact List.mem_cons_of_mem _ (kept.others ▸ hothers)

/-- Settles O44: a turn of a stopped context changes nothing, and a turn of another leaves its record alone. -/
theorem stoppedContextsNeverChange : Obligations.StoppedContextsNeverChange := by
  intro s t c r h hc hstop
  obtain ⟨u, hp, -, -, -, -, -, -, hturn⟩ := step_cases h
  have hcu : c ∈ u.contexts := hp.mem_iff.2 hc
  rcases hturn with rfl | ⟨-, hr⟩ | ⟨pick, ha⟩
  · exact hcu
  · exact mem_contexts_of_turn (loopRound_turnEffect hr).kept (loopRound_of_stopped · hr) hcu hstop
  · exact mem_contexts_of_turn (accessTurn_turnEffect ha).kept (accessTurn_of_stopped · ha) hcu hstop

end Sys2Proof.Machine

/-! # Placing a word (R58, R95, R261) -/

namespace Sys2Proof

theorem decodeTableWith_eq_some_iff {m : OpMap} {nbits w : Nat} {i : Instr} :
    decodeTableWith m nbits w = some i ↔ ∃ rest, decodeWith m (tableBytes nbits w) = .ok (i, rest) := by
  unfold decodeTableWith
  split <;> simp [*]

end Sys2Proof

namespace Sys2Proof.Machine

/-! ## What storing bytes does -/

/-- Storing bytes replaces Memory and nothing else. -/
theorem State.exists_writeBytes_eq_setMem (s : State) (a : Word) (bs : List Byte) :
    ∃ m, s.writeBytes a bs = s.setMem m := by
  induction bs generalizing s a with
  | nil => exact ⟨s.mem, rfl⟩
  | cons b bs ih =>
    obtain ⟨m, hm⟩ := ih (s.writeByte a b) (a + 1)
    exact ⟨m, hm⟩

@[simp] theorem State.writeBytes_cpu (s : State) (a : Word) (bs : List Byte) : (s.writeBytes a bs).cpu = s.cpu := by
  obtain ⟨m, hm⟩ := s.exists_writeBytes_eq_setMem a bs
  rw [hm, State.setMem_cpu]

@[simp] theorem State.writeBytes_opmap (s : State) (a : Word) (bs : List Byte) : (s.writeBytes a bs).opmap = s.opmap := by
  obtain ⟨m, hm⟩ := s.exists_writeBytes_eq_setMem a bs
  rw [hm, State.setMem_opmap]

/-- Four bytes read back, in address order, also where they wrap around the end of Memory (R53). -/
theorem State.readBytes_writeBytes_four (s : State) (a : Word) (b₀ b₁ b₂ b₃ : Byte) :
    let t := s.writeBytes a [b₀, b₁, b₂, b₃]
    [t.readByte a, t.readByte (a + 1), t.readByte (a + 2), t.readByte (a + 3)] = [b₀, b₁, b₂, b₃] := by
  simp [State.writeBytes, BitVec.add_assoc]

/-- Of four bytes placed at `pc` the next fetch makes what the decoder makes of them (R95). -/
theorem State.fetch_writeBytes_four {s : State} {b₀ b₁ b₂ b₃ : Byte} {i : Instr} {rest : List Byte}
    (h : decodeWith s.opmap [b₀, b₁, b₂, b₃] = .ok (i, rest)) :
    (s.writeBytes s.cpu.pc [b₀, b₁, b₂, b₃]).fetch = i := by
  obtain ⟨rest', hfetch⟩ := (s.writeBytes s.cpu.pc [b₀, b₁, b₂, b₃]).decodeWith_eq_fetch
  rw [State.writeBytes_opmap, State.writeBytes_cpu, State.readBytes_writeBytes_four, h] at hfetch
  exact (congrArg Prod.fst (Except.ok.inj hfetch)).symm

/-! ## Nothing before the cycle -/

@[simp] theorem State.readyToFetch_cpu (s : State) :
    s.readyToFetch.cpu = { s.cpu with run := .running, flight := none } := rfl

/-- `readyToFetch` drops a budget that is used up (R223, notes/assumptions/34.md). -/
theorem State.readyToFetch_budget_left (s : State) :
    s.readyToFetch.budget = 0 ∨ s.readyToFetch.cpu.cyc < s.readyToFetch.budget := by
  by_cases h : s.budgetSpent = true
  · exact .inl (if_pos h)
  · rw [show s.readyToFetch.budget = s.budget from if_neg h]
    simp only [State.budgetSpent, decide_eq_true_iff] at h
    simp only [State.readyToFetch_cpu]
    omega

/-- `readyToFetch` drops a period by which a tick is due (R215, notes/assumptions/34.md). -/
theorem State.readyToFetch_no_tick (s : State) :
    s.readyToFetch.period = 0 ∨ s.readyToFetch.cpu.cyc = 0 ∨
      s.readyToFetch.cpu.cyc % s.readyToFetch.period ≠ 0 := by
  by_cases h : s.tickDue = true
  · exact .inl (if_pos h)
  · rw [show s.readyToFetch.period = s.period from if_neg h]
    simp only [State.tickDue, decide_eq_true_iff] at h
    simp only [State.readyToFetch_cpu]
    tauto

/-- Whatever stood before a cycle, `readyToFetch` has cleared it. -/
theorem State.readyToFetch_atCycle (s : State) : s.readyToFetch.AtCycle where
  sched := rfl
  running := rfl
  between := rfl
  budget := s.readyToFetch_budget_left
  noTick := s.readyToFetch_no_tick.imp_right (Or.imp_right Or.inl)

/-- Memory has no say in whether a cycle is next. -/
theorem State.AtCycle.writeBytes {s : State} (h : s.AtCycle) (a : Word) (bs : List Byte) : (s.writeBytes a bs).AtCycle := by
  obtain ⟨m, hm⟩ := s.exists_writeBytes_eq_setMem a bs
  obtain ⟨sched, running, between, budget, noTick⟩ := h
  rw [hm]
  exact ⟨sched, running, between, budget, noTick⟩

theorem State.withFetchWord_atCycle (s : State) (nbits w : Nat) : (s.withFetchWord nbits w).AtCycle :=
  s.readyToFetch_atCycle.writeBytes _ _

/-- Settles O55: the decoder reads back the bytes placed, and what stood before the cycle is cleared. -/
theorem placedWordIsFetchedNext : Obligations.PlacedWordIsFetchedNext := by
  intro s nbits w i h
  obtain ⟨rest, hdec⟩ := decodeTableWith_eq_some_iff.1 h
  exact ⟨State.fetch_writeBytes_four (s := s.readyToFetch) hdec, s.withFetchWord_atCycle nbits w,
    (s.withFetchWord_atCycle nbits w).step_eq⟩

end Sys2Proof.Machine
